-- ==== Sys2Proof/Word.lean ====
section
/-!
DEFINITION. The word types of the EXR PIZ core and their plainest arithmetic (spec 00_scope.md R8 to R10).
-/

namespace Sys2Proof

/-- A register, descriptor word or operand: 32 bits (R20, R56). -/
abbrev Word := BitVec 32

/-- A byte of DMEM or of the bitmap (R12, R29). -/
abbrev Byte := BitVec 8

/-- A sample, a LUT entry: 16 bits (`SYM_BITS`, R8). -/
abbrev Sample := BitVec 16

/-- `ceil8(n) = (n + 7) // 8` (R9): the bytes that hold `n` bits. -/
abbrev ceil8 (n : Nat) : Nat := (n + 7) / 8

/-- `u32(x)` of a non-negative integer (R10). -/
abbrev u32 (n : Nat) : Word := BitVec.ofNat 32 n

/-- `u16(x)` of an integer (R10). -/
abbrev u16 (x : Int) : Sample := BitVec.ofInt 16 x

/-- `s16(x)`, the two's complement reading of a sample (R10). -/
abbrev s16 (x : Sample) : Int := x.toInt

end Sys2Proof
end

