-- ==== Sys2Proof/Machine/Table.lean ====
section
/-!
DEFINITION. The internal tables (spec 10_state.md R29 to R32): a table of `2^d` entries as plain data in one canonical form, with
reading, writing an entry and writing an aligned block of entries. DESIGN CHOICE (log 11): a table is the binary tree of its
index bits, most significant first, in which a half whose entries are all equal is one leaf.
-/

namespace Sys2Proof.Machine

/-- A table: `leaf a` is a table whose entries are all `a`; `node l r` has the entries of `l` at the indices whose top bit is 0
and those of `r` at the others. -/
inductive Tab (α : Type) where
  | leaf (a : α)
  | node (l r : Tab α)
deriving DecidableEq, Repr, Inhabited

/-- The half whose top index bit is 0. -/
def Tab.left {α : Type} : Tab α → Tab α
  | .leaf a => .leaf a
  | .node l _ => l

/-- The half whose top index bit is 1. -/
def Tab.right {α : Type} : Tab α → Tab α
  | .leaf a => .leaf a
  | .node _ r => r

/-- Two halves as one table, in the canonical form. -/
def Tab.join {α : Type} [DecidableEq α] : Tab α → Tab α → Tab α
  | .leaf a, .leaf b => if a = b then .leaf a else .node (.leaf a) (.leaf b)
  | l, r => .node l r

/-- Entry `i` of a table of `2^d` entries. -/
def Tab.get {α : Type} : Tab α → Nat → Nat → α
  | .leaf a, _, _ => a
  | .node l r, d, i => if i.testBit (d - 1) then r.get (d - 1) i else l.get (d - 1) i

/-- The table with `a` in every entry whose top `n` index bits are the low `n` bits of `c`. -/
def Tab.setBlock {α : Type} [DecidableEq α] : Nat → Tab α → Nat → α → Tab α
  | 0, _, _, a => .leaf a
  | n + 1, t, c, a =>
    if c.testBit n then Tab.join t.left (Tab.setBlock n t.right c a)
    else Tab.join (Tab.setBlock n t.left c a) t.right

/-- The table of `2^d` entries with `a` in entry `i`. -/
def Tab.set {α : Type} [DecidableEq α] (t : Tab α) (d i : Nat) (a : α) : Tab α :=
  Tab.setBlock d t i a

/-- Whether every entry of the table satisfies `p`. -/
def Tab.all {α : Type} (p : α → Bool) : Tab α → Bool
  | .leaf a => p a
  | .node l r => l.all p && r.all p

/-- Whether every entry whose top `n` index bits are the low `n` bits of `c` satisfies `p`. -/
def Tab.allBlock {α : Type} (p : α → Bool) : Nat → Tab α → Nat → Bool
  | 0, t, _ => t.all p
  | n + 1, t, c => Tab.allBlock p n (if c.testBit n then t.right else t.left) c

/-- The indices `base + i`, ascending, of the entries that satisfy `p` in a table of `2^d` entries whose first index is `base`.
A half whose entries are all equal is looked at once (`Tab.indices_eq_filter` in Laws/Tables.lean says that nothing is lost). -/
def Tab.indices {α : Type} (p : α → Bool) : Tab α → Nat → Nat → List Nat
  | .leaf a, d, base => if p a then (List.range (2 ^ d)).map (base + ·) else []
  | .node l r, d + 1, base => Tab.indices p l d base ++ Tab.indices p r d (base + 2 ^ d)
  | .node l r, 0, base => if p ((Tab.node l r).get 0 base) then [base] else []

/-- The canonical form of a table of `2^d` entries: no deeper than `d`, and no node over two equal leaves. -/
def Tab.wf {α : Type} [DecidableEq α] : Nat → Tab α → Bool
  | _, .leaf _ => true
  | 0, .node _ _ => false
  | d + 1, .node l r => Tab.wf d l && Tab.wf d r && decide (Tab.join l r = .node l r)

/-- An entry of the decoding table `DEC` (R32): nothing, a code of 1 to 14 bits with its symbol, or the symbols whose codes are
longer than 14 bits and begin with the entry's index, in the order they were appended. -/
inductive DecEntry where
  | empty
  | short (len lit : Nat)
  | long (lits : List Nat)
deriving DecidableEq, Repr, Inhabited

/-- `BITMAP` (R29): 8192 bytes. -/
abbrev BitmapRam := Tab Byte

/-- `LUT` (R30): 65536 entries of 16 bits. -/
abbrev LutRam := Tab Sample

/-- `PACK` (R31): 65537 entries of 64 bits, code length in bits [5:0] and code in bits [63:6]. -/
abbrev PackRam := Tab (BitVec 64)

/-- `DEC` (R32): 16384 entries. -/
abbrev DecRam := Tab DecEntry

/-- Index bits of `BITMAP`: 8192 = 2^13 bytes. -/
abbrev bitmapBits : Nat := 13

/-- Index bits of `LUT`: 65536 = 2^16 entries. -/
abbrev lutBits : Nat := 16

/-- Index bits of `PACK`: indices 0 .. 65536 take 17 bits; the entries past 65536 are never written nor read (log 11). -/
abbrev packBits : Nat := 17

/-- Index bits of `DEC`: `HUF_DECBITS` = 14 (R8). -/
abbrev decBits : Nat := 14

end Sys2Proof.Machine
end

