-- ==== Sys2Proof/Config.lean ====
section
/-!
DEFINITION. What an implementation fixes (spec 00_scope.md R7, R8; 20_memory.md R48) and the free values: what the spec leaves
unspecified and the machine goes on with (93_implementation_defined.md U6 to U9).
-/

namespace Sys2Proof

/-- The open parameters (R7, R48). They are fields of a machine's state that no step changes (log 1), so that a statement about
every state is about every parameter. -/
structure Params where
  /-- `DMEM_SIZE`, bytes (R7) -/
  dmemSize : Nat
  /-- `IMPL_ID`, the value of the register `ID` (R7, R21) -/
  implId : Word
  /-- `REG_HOST_BASE`: where the register block stands in the host's address map (R20, R48) -/
  regHostBase : Nat
  /-- `DMEM_HOST_BASE`: where the DMEM port stands in the host's address map (R48) -/
  dmemHostBase : Nat
deriving DecidableEq, Repr

/-- The bounds of `DMEM_SIZE` (R7). -/
abbrev Params.Valid (p : Params) : Prop :=
  64 ≤ p.dmemSize ∧ p.dmemSize ≤ 2147483648 ∧ p.dmemSize % 4 = 0

/-- `IMPL_ID` of the machine `State.reset` describes: no source fixes it (R21, U2; log 2). -/
opaque Config.implId : Word

/-- `REG_HOST_BASE` of the machine `State.reset` describes (R48, U3; log 2). -/
opaque Config.regHostBase : Nat

/-- `DMEM_HOST_BASE` of the machine `State.reset` describes (R48, U3; log 2). -/
opaque Config.dmemHostBase : Nat

/-- The parameters of the machine `State.reset` describes. DESIGN CHOICE (log 1): 65536 bytes of DMEM, the size of the test
vectors (95_test_vectors.md section 0); the rest uninterpreted. -/
def Config.params : Params where
  dmemSize := 65536
  implId := Config.implId
  regHostBase := Config.regHostBase
  dmemHostBase := Config.dmemHostBase

/-- Free value (log 8, log 9): a DMEM byte the spec leaves unspecified (U6, U9), by the counter of the draw and the address. -/
opaque Config.freeByte : Nat → Nat → Byte

/-- Free value (log 7): what a host DMEM read returns while a chain runs (U8). -/
opaque Config.freeWord : Nat → Word

/-- Free value (log 9): `PACK` after a failed `HUF_DECODE` (R114, U7). -/
opaque Config.freePack : Nat → Machine.PackRam

/-- Free value (log 9): `DEC` after a failed `HUF_DECODE` (R114, U7). -/
opaque Config.freeDec : Nat → Machine.DecRam

/-- `MAX_CODE_LEN` (R8). -/
abbrev Config.maxCodeLen : Nat := 58

/-- `HUF_HDR_BYTES` (R8). -/
abbrev Config.hufHdrBytes : Nat := 20

/-- The largest symbol index, `HUF_ENCSIZE - 1` (R8). -/
abbrev Config.maxSymbol : Nat := 65536

/-- `SHORT_ZEROCODE_RUN` (R8). -/
abbrev Config.shortZerocodeRun : Nat := 59

/-- `LONG_ZEROCODE_RUN` (R8). -/
abbrev Config.longZerocodeRun : Nat := 63

/-- `SHORTEST_LONG_RUN` (R8). -/
abbrev Config.shortestLongRun : Nat := 6

/-- `W14_LIMIT` = 2^14 (R8). -/
abbrev Config.w14Limit : Nat := 16384

/-- `BITMAP_BYTES` (R8). -/
abbrev Config.bitmapBytes : Nat := 8192

/-- `USHORT_RANGE` (R8). -/
abbrev Config.ushortRange : Nat := 65536

/-- `CMD_BYTES` (R8). -/
abbrev Config.cmdBytes : Nat := 32

end Sys2Proof
end

