-- ==== Sys2Proof/Machine/Memory.lean ====
section
/-!
DEFINITION. DMEM as plain data (spec 20_memory.md R37): a list of (address, byte) pairs in one canonical form, with the memory
primitives of 00_scope.md R12 and the stream bits of R13, written once over the reading and writing of one byte.
-/

namespace Sys2Proof.Machine

/-- DMEM: the listed bytes, addresses strictly rising, none equal to what an unlisted address reads as. -/
abbrev Memory := List Host.Cell

/-- What an unlisted address reads as. DESIGN CHOICE (log 3): power-on contents are unspecified (R36, U4). -/
def Memory.unlisted : Byte := 0

/-- `Byte(a)` (R12). -/
def Memory.read : Memory → Nat → Byte
  | [], _ => Memory.unlisted
  | (k, x) :: m, a => if a = k then x else if a < k then Memory.unlisted else Memory.read m a

/-- The cell of byte `b` at `a` before the cells `m`, unless an unlisted address reads as `b`. -/
def Memory.cons (a : Nat) (b : Byte) (m : Memory) : Memory :=
  if b = Memory.unlisted then m else (a, b) :: m

/-- `MemWrite(a, 1, b)` (R12). -/
def Memory.write : Memory → Nat → Byte → Memory
  | [], a, b => Memory.cons a b []
  | (k, x) :: m, a, b =>
    if a = k then Memory.cons a b m
    else if a < k then Memory.cons a b ((k, x) :: m)
    else (k, x) :: Memory.write m a b

/-- The canonical form: addresses strictly rising, and no byte equal to what an unlisted address reads as. -/
def Memory.wf : Memory → Bool
  | [] => true
  | [(_, x)] => x != Memory.unlisted
  | (k, x) :: (k', x') :: m => decide (k < k') && x != Memory.unlisted && Memory.wf ((k', x') :: m)

/-- Every listed address is below `n`. -/
def Memory.below (m : Memory) (n : Nat) : Bool := m.all fun c => decide (c.1 < n)

/-- `MemRead(a, n)`: the `n` bytes from `a`, little-endian (R12, R39). -/
def Memory.readLE (m : Memory) (a : Nat) : Nat → Nat
  | 0 => 0
  | n + 1 => (m.read a).toNat + 256 * Memory.readLE m (a + 1) n

/-- `MemWrite(a, n, v)`: the low `n` bytes of `v` from `a`, little-endian (R12, R39). -/
def Memory.writeLE (m : Memory) (a : Nat) : Nat → Nat → Memory
  | 0, _ => m
  | n + 1, v => Memory.writeLE (m.write a (BitVec.ofNat 8 v)) (a + 1) n (v / 256)

/-- `Sample(a)` (R12, R42). -/
def Memory.sample (m : Memory) (a : Nat) : Sample := BitVec.ofNat 16 (m.readLE a 2)

/-- `SetSample(a, v)` (R12, R42). -/
def Memory.setSample (m : Memory) (a : Nat) (v : Sample) : Memory := m.writeLE a 2 v.toNat

/-- `count` samples written from `a` on, in order (R42). -/
def Memory.writeSamples (m : Memory) (a : Nat) : List Sample → Memory
  | [] => m
  | v :: vs => Memory.writeSamples (m.setSample a v) (a + 2) vs

/-- `StreamBit(base, i)`: most significant bit first within each byte (R13, R40). -/
def Memory.streamBit (m : Memory) (base i : Nat) : Bool := (m.read (base + i / 8)).getLsbD (7 - i % 8)

/-- `StreamBits(base, i, n)`: the `n` bits from `i`, most significant first (R13). -/
def Memory.streamBits (m : Memory) (base i : Nat) : Nat → Nat
  | 0 => 0
  | n + 1 => 2 * Memory.streamBits m base i n + (m.streamBit base (i + n)).toNat

/-- A byte with bit `j` counted from the least significant set to `b`. -/
def setByteBit (x : Byte) (j : Nat) (b : Bool) : Byte :=
  if b then x ||| (1#8 <<< j) else x &&& ~~~(1#8 <<< j)

/-- `SetStreamBit(base, i, b)`: the other seven bits of the byte keep their values (R13). -/
def Memory.setStreamBit (m : Memory) (base i : Nat) (b : Bool) : Memory :=
  m.write (base + i / 8) (setByteBit (m.read (base + i / 8)) (7 - i % 8) b)

/-- The bytes `f 0 .. f (n-1)` written from `a` on. -/
def Memory.writeBytes (m : Memory) (a n : Nat) (f : Nat → Byte) : Memory :=
  (List.range n).foldl (fun m i => m.write (a + i) (f i)) m

/-- `Overlap(a0, n0, a1, n1)` (R45). -/
abbrev Overlap (a0 n0 a1 n1 : Nat) : Prop := 0 < n0 ∧ 0 < n1 ∧ a0 < a1 + n1 ∧ a1 < a0 + n0

end Sys2Proof.Machine
end

