-- ==== Sys2Proof/Syntax.lean ====
section
/-!
DEFINITION. The commands of the opcode table (spec 30_encoding.md R59, opcode_table.json), one constructor a row, and the raw
descriptor they are read from (R56). An operand word a command does not use is no part of the command (R58).
-/

namespace Sys2Proof

/-- The `WM` field of a wavelet command (R57). -/
inductive WavMode where
  | w14
  | w16
  | auto
  | reserved
deriving DecidableEq, Repr

/-- A command with the operand words it uses (R59). -/
inductive Instr where
  | nop
  | endChain
  | brInit (base nbits : Word)
  | brRead (k dst : Word)
  | brSeek (i : Word)
  | brRemain
  | brAlign
  | bwInit (base capbits : Word)
  | bwWrite (k src srclen : Word)
  | bwIndex
  | bwRemain
  | bwAlign
  | bmClear
  | bmSet (v : Word)
  | bmUnset (v : Word)
  | bmHas (v : Word)
  | bmScan (base count : Word)
  | bmBounds
  | bmLoad (src min max : Word)
  | bmStore (dst min max : Word)
  | lutFwd
  | lutRev
  | lutApply (base count : Word)
  | lutRead (i : Word)
  | hufDecode (src len dst nout : Word)
  | hufPackRead (sym : Word)
  | hufDecRead (i j : Word)
  | wavFwd (wm : WavMode) (base nx ny ox oy : Word)
  | wavInv (wm : WavMode) (base nx ny ox oy : Word)
deriving DecidableEq, Repr

/-- The eight words of a command descriptor (R56): the control word `W0` and the operand words A to G. -/
structure Descriptor where
  w0 : Word
  a : Word
  b : Word
  c : Word
  d : Word
  e : Word
  f : Word
  g : Word
deriving DecidableEq, Repr

end Sys2Proof
end

