-- ==== Sys2Proof/Machine/State.lean ====
section
/-!
DEFINITION. The state of the core (spec 10_state.md), plain data, with the value after reset (R36, R139), and the reasons a step
can stop. Fields whose docstring says MODEL are not the spec's.
-/

namespace Sys2Proof.Machine

/-- The class of an error (R127). -/
inductive ErrClass where
  | format
  | programmer
deriving DecidableEq, Repr

/-- The error codes (R128). -/
inductive ErrCode where
  | pBadop | pAlign | pRange | pOverlap | pState | pValue | pNegk | pSrc | pCap | pSeek | pGeom
  | fBmBounds | fHufFrame | fHufHdr | fHufTable | fHufTableRun | fHufTableLen | fHufPbits | fHufCode | fHufOverlap
  | fHufEmpty | fHufLongmiss | fHufTrunc | fHufRleNoprev | fHufToomuch | fHufNotenough
deriving DecidableEq, Repr

/-- The four states of the sequencer (R63): `STATUS.BUSY`, `DONE`, `ERR` and `ECLASS` (R23). -/
inductive Seq where
  | idle
  | running
  | done
  | error (cls : ErrClass)
deriving DecidableEq, Repr

/-- `ERRCODE`, `ERRINFO`, `ERRCP` (R24). `code = none` is `ERRCODE = 0`. -/
structure ErrRegs where
  code : Option ErrCode
  info : Word
  cp : Word
deriving DecidableEq, Repr

/-- `RES0` .. `RES3` (R26). -/
structure Results where
  r0 : Word
  r1 : Word
  r2 : Word
  r3 : Word
deriving DecidableEq, Repr

/-- `VALID` (R28). -/
structure Valid where
  bmv : Bool
  lutv : Bool
  lutk : Bool
  hufv : Bool
deriving DecidableEq, Repr

/-- The BitReader's registers `BR_BASE`, `BR_N`, `BR_POS`, `BR_FLAGS.OVR` (R33). -/
structure BitReader where
  base : Word
  n : Word
  pos : Word
  ovr : Bool
deriving DecidableEq, Repr

/-- The BitWriter's registers `BW_BASE`, `BW_CAP`, `BW_POS` (R34). -/
structure BitWriter where
  base : Word
  cap : Word
  pos : Word
deriving DecidableEq, Repr

/-- What the host can do to the core (R20, R55, R64): an access of `size` bytes to the register block by offset, to the DMEM port
by DMEM address, or to either by its address in the host's map (R48). -/
inductive HostAction where
  | regRead (offset size : Nat)
  | regWrite (offset size : Nat) (v : Word)
  | memRead (a size : Nat)
  | memWrite (a size : Nat) (v : Word)
  | busRead (addr size : Nat)
  | busWrite (addr size : Nat) (v : Word)
deriving DecidableEq, Repr

/-- One turn of the two agents (R16, R64; log 6): the core steps, or the host acts. -/
inductive HostTurn where
  | core
  | act (h : HostAction)
deriving DecidableEq, Repr

/-- The state of one core. -/
structure State where
  /-- `DMEM_SIZE`, `IMPL_ID` and the platform's addresses (R7, R48); no step changes them -/
  params : Params
  /-- `CP` (R19) -/
  cp : Word
  /-- `CTRL.IE` (R22) -/
  ie : Bool
  /-- `STATUS.BUSY`, `DONE`, `ERR`, `ECLASS` (R23, R63) -/
  seq : Seq
  /-- `ERRCODE`, `ERRINFO`, `ERRCP` (R24) -/
  err : ErrRegs
  /-- `CMDCNT` (R25) -/
  cmdCnt : Word
  /-- `RES0` .. `RES3` (R26) -/
  res : Results
  /-- `LUTMAX`, bits [15:0]; the others read 0 (R27) -/
  lutMax : Sample
  /-- `VALID` (R28) -/
  valid : Valid
  /-- the BitReader (R33) -/
  reader : BitReader
  /-- the BitWriter (R34) -/
  writer : BitWriter
  /-- `BITMAP` (R29) -/
  bitmap : BitmapRam
  /-- `LUT` (R30) -/
  lut : LutRam
  /-- `PACK` (R31) -/
  pack : PackRam
  /-- `DEC` (R32) -/
  dec : DecRam
  /-- DMEM (R37) -/
  dmem : Memory
  /-- MODEL: the turns to come, next first; when there are none the core steps (log 6) -/
  hostTurns : List HostTurn
  /-- MODEL: the value the last host read returned (log 7) -/
  hostData : Word
  /-- MODEL: the host has written DMEM under the running chain (R55, U9; log 8) -/
  hostRaced : Bool
  /-- MODEL: the counter the free values are drawn with (log 9) -/
  freeCtr : Nat
deriving DecidableEq, Repr

/-- Why the machine stops. -/
inductive Fault where
  /-- Raised by `BR_READ` and `BW_WRITE` when the reader's or the writer's region is not inside DMEM: there is no byte at the
  addresses it would access (R37). Safe: no run from reset reaches it, since `BR_INIT` and `BW_INIT` check the region (log 13). -/
  | streamOutsideDmem (base : Word)
deriving DecidableEq, Repr

/-- Why a step is refused. -/
inductive Refusal where
  /-- Raised by `exec` for an instruction that has no meaning yet. Safe. -/
  | notModelled (mnemonic : String)
  /-- Raised by a host access to the register block that is not an aligned 32-bit access inside it (R55, D8, U16). Safe. -/
  | hostRegisterAccess (offset size : Nat)
  /-- Raised by a host access to the DMEM port that is not 1, 2 or 4 bytes inside DMEM (R55, D8, U16). Safe. -/
  | hostDmemAccess (a size : Nat)
  /-- Raised by a host access to an address of its own map that is not in exactly one of the two windows (R20, R48; log 14).
  Safe. -/
  | hostUnmapped (addr : Nat)
deriving DecidableEq, Repr

/-- What a step answers. -/
abbrev Outcome := Host.Outcome State Fault Refusal

/-- The state after power-on reset of a core with parameters `p` (R36, R139). The tables are unspecified there: DESIGN CHOICE,
every entry 0 or Empty (log 4). -/
def State.resetWith (p : Params) : State where
  params := p
  cp := 0
  ie := false
  seq := .idle
  err := ⟨none, 0, 0⟩
  cmdCnt := 0
  res := ⟨0, 0, 0, 0⟩
  lutMax := 0
  valid := ⟨false, false, false, false⟩
  reader := ⟨0, 0, 0, false⟩
  writer := ⟨0, 0, 0⟩
  bitmap := .leaf 0
  lut := .leaf 0
  pack := .leaf 0
  dec := .leaf .empty
  dmem := []
  hostTurns := []
  hostData := 0
  hostRaced := false
  freeCtr := 0

/-- The machine right after power-on reset (R36, R139), for the parameters of Config (log 1, log 2). -/
def State.reset : State := State.resetWith Config.params

end Sys2Proof.Machine
end

