-- ==== Sys2Proof/Machine/Flags.lean ====
section
/-!
DEFINITION. The flags and the words the host reads them in: error classes and codes (spec 60_exceptions.md R127, R128), `CTRL`,
`STATUS`, `VALID`, `BR_FLAGS` (10_state.md R22, R23, R28, R33) and the interrupt output (60_exceptions.md R132).
-/

namespace Sys2Proof.Machine

/-- The class of each error (R128): the `P_` errors are programmer errors, the `F_` errors format errors. -/
def ErrCode.cls : ErrCode → ErrClass
  | .pBadop => .programmer
  | .pAlign => .programmer
  | .pRange => .programmer
  | .pOverlap => .programmer
  | .pState => .programmer
  | .pValue => .programmer
  | .pNegk => .programmer
  | .pSrc => .programmer
  | .pCap => .programmer
  | .pSeek => .programmer
  | .pGeom => .programmer
  | .fBmBounds => .format
  | .fHufFrame => .format
  | .fHufHdr => .format
  | .fHufTable => .format
  | .fHufTableRun => .format
  | .fHufTableLen => .format
  | .fHufPbits => .format
  | .fHufCode => .format
  | .fHufOverlap => .format
  | .fHufEmpty => .format
  | .fHufLongmiss => .format
  | .fHufTrunc => .format
  | .fHufRleNoprev => .format
  | .fHufToomuch => .format
  | .fHufNotenough => .format

/-- The value of each error in `ERRCODE[7:0]` (R128). -/
def ErrCode.number : ErrCode → Byte
  | .pBadop => 0x01
  | .pAlign => 0x02
  | .pRange => 0x03
  | .pOverlap => 0x04
  | .pState => 0x05
  | .pValue => 0x06
  | .pNegk => 0x07
  | .pSrc => 0x08
  | .pCap => 0x09
  | .pSeek => 0x0A
  | .pGeom => 0x0B
  | .fBmBounds => 0x40
  | .fHufFrame => 0x41
  | .fHufHdr => 0x42
  | .fHufTable => 0x43
  | .fHufTableRun => 0x44
  | .fHufTableLen => 0x45
  | .fHufPbits => 0x46
  | .fHufCode => 0x47
  | .fHufOverlap => 0x48
  | .fHufEmpty => 0x49
  | .fHufLongmiss => 0x4A
  | .fHufTrunc => 0x4B
  | .fHufRleNoprev => 0x4C
  | .fHufToomuch => 0x4D
  | .fHufNotenough => 0x4E

/-- `STATUS.BUSY` (R23). -/
def State.busy (s : State) : Bool :=
  match s.seq with
  | .running => true
  | _ => false

/-- `STATUS.DONE` (R23). -/
def State.doneFlag (s : State) : Bool :=
  match s.seq with
  | .done => true
  | _ => false

/-- `STATUS.ERR` (R23). -/
def State.errFlag (s : State) : Bool :=
  match s.seq with
  | .error _ => true
  | _ => false

/-- `STATUS.ECLASS`: 1 for a programmer error, 0 for a format error and when `ERR = 0` (R23, R127). -/
def State.eclass (s : State) : Bool :=
  match s.seq with
  | .error .programmer => true
  | _ => false

/-- The interrupt output, `IRQ = CTRL.IE & (DONE | ERR)` (R132). -/
def State.irq (s : State) : Bool := s.ie && (s.doneFlag || s.errFlag)

/-- A flag as bit `i` of a register. -/
def flagBit (b : Bool) (i : Nat) : Word := if b then 1#32 <<< i else 0

/-- `CTRL` as it reads: `IE` in bit 1, 0 elsewhere (R22). -/
def State.ctrlWord (s : State) : Word := flagBit s.ie 1

/-- `STATUS` (R23). -/
def State.statusWord (s : State) : Word :=
  flagBit s.busy 0 ||| flagBit s.doneFlag 1 ||| flagBit s.errFlag 2 ||| flagBit s.eclass 3 ||| flagBit s.irq 4

/-- `ERRCODE`: the code in bits [7:0], 0 for none (R24). -/
def State.errcodeWord (s : State) : Word :=
  match s.err.code with
  | none => 0
  | some e => e.number.setWidth 32

/-- `LUTMAX`: bits [31:16] read 0 (R27). -/
def State.lutmaxWord (s : State) : Word := s.lutMax.setWidth 32

/-- `VALID` (R28). -/
def State.validWord (s : State) : Word :=
  flagBit s.valid.bmv 0 ||| flagBit s.valid.lutv 1 ||| flagBit s.valid.lutk 2 ||| flagBit s.valid.hufv 3

/-- `BR_FLAGS`: bit 0 `OVR` (R33). -/
def State.brFlagsWord (s : State) : Word := flagBit s.reader.ovr 0

end Sys2Proof.Machine
end

