-- ==== Sys2Proof/Machine/Ops.lean ====
section
/-!
DEFINITION. The operations the commands share: the range check (spec 20_memory.md R44), the error step (60_exceptions.md R130) and
the two ways back from it (R131: `CLR`, R67, and `GO`, R66), the retiring of a command (40_sequencer.md R69), the soft reset
(70_reset_and_hazards.md R140), and the commit of a command's DMEM writes.
-/

namespace Sys2Proof.Machine

/-- `InRange(a, n)` (R44). -/
abbrev State.inRange (s : State) (a n : Nat) : Prop := n = 0 ∨ a + n ≤ s.params.dmemSize

/-- The error step: a check has raised `e` with information word `info` at the command at `CP` (R130). It saves `CP` in `ERRCP`
and stops the chain; there is no handler and nothing else changes. -/
def State.errorStep (s : State) (e : ErrCode) (info : Word) : State :=
  { s with seq := .error e.cls, err := ⟨some e, info, s.cp⟩ }

/-- `raise E(info)` (R14). -/
def raise (e : ErrCode) (info : Word) (s : State) : Outcome := .next (s.errorStep e info)

/-- `CLR` on a stopped core: back to idle (R67). -/
def State.clear (s : State) : State := { s with seq := .idle, err := ⟨none, 0, 0⟩ }

/-- `GO` on a stopped core: a chain starts at `CP` (R66). It has had no host write under it (log 8). -/
def State.startChain (s : State) : State :=
  { s with seq := .running, err := ⟨none, 0, 0⟩, cmdCnt := 0, hostRaced := false }

/-- Soft reset: the reset of R139, but DMEM is kept (R140); so are the model's turns, its host data and its counter. -/
def State.softReset (s : State) : State :=
  { State.resetWith s.params with dmem := s.dmem, hostTurns := s.hostTurns, hostData := s.hostData, freeCtr := s.freeCtr }

/-- A command has completed without error: `CMDCNT` and `CP` advance (R69). -/
def State.retire (s : State) : State := { s with cmdCnt := s.cmdCnt + 1, cp := s.cp + 32 }

/-- The `n` bytes from `a` on hold free values (log 8, log 9). -/
def Memory.freeRange (m : Memory) (ctr a n : Nat) : Memory :=
  m.writeBytes a n fun i => Config.freeByte ctr (a + i)

/-- The bytes of all the ranges hold free values. -/
def Memory.freeRanges (m : Memory) (ctr : Nat) (ws : List (Nat × Nat)) : Memory :=
  ws.foldl (fun m w => m.freeRange ctr w.1 w.2) m

/-- A command that writes the ranges `ws` leaves DMEM as `m`; after a host write under the running chain the bytes it writes are
unspecified instead (R55, U9; log 8). -/
def State.commit (s : State) (m : Memory) (ws : List (Nat × Nat)) : State :=
  if s.hostRaced then { s with dmem := m.freeRanges s.freeCtr ws, freeCtr := s.freeCtr + 1 }
  else { s with dmem := m }

/-- `RES0 <- v`. -/
def State.setRes0 (s : State) (v : Word) : State := { s with res := { s.res with r0 := v } }

end Sys2Proof.Machine
end

