-- ==== Sys2Proof/Machine/Operands.lean ====
section
/-!
DEFINITION. The operand forms of the commands (spec 30_encoding.md R58): unsigned words, the signed count `k`, a sample buffer
(42_bitmap_lut.md `CheckSamples`) and a wavelet plane (44_wavelet.md R118).
-/

namespace Sys2Proof.Machine

/-- An operand word read as an unsigned integer (R58). -/
abbrev operandU (w : Word) : Nat := w.toNat

/-- The count `k` of `BR_READ` and `BW_WRITE`, read as `s32(A)`; none when it is negative (R58). -/
def operandK (w : Word) : Option Nat := if w.toInt < 0 then none else some w.toNat

/-- An error and its information word. -/
abbrev Raise := ErrCode × Word

/-- `CheckSamples(base, count)` (42_bitmap_lut.md; R43, R44): the error it raises, if any. -/
def checkSamples (s : State) (base count : Nat) : Option Raise :=
  if base % 2 ≠ 0 then some (.pAlign, u32 base)
  else if ¬ s.inRange base (2 * count) then some (.pRange, u32 base)
  else none

/-- A plane of `nx * ny` samples in DMEM, with strides in samples (R118). -/
structure Plane where
  base : Nat
  nx : Nat
  ny : Nat
  ox : Nat
  oy : Nat
deriving DecidableEq, Repr

/-- `Addr(x, y)` (R118). -/
abbrev Plane.addr (p : Plane) (x y : Nat) : Nat := p.base + 2 * (x * p.ox + y * p.oy)

/-- `P(x, y)` (R118). -/
def Plane.get (p : Plane) (m : Memory) (x y : Nat) : Sample := m.sample (p.addr x y)

/-- `P(x, y) <- v` (R118). -/
def Plane.put (p : Plane) (m : Memory) (x y : Nat) (v : Sample) : Memory := m.setSample (p.addr x y) v

/-- The plane of a wavelet command's operands (R118). -/
def planeOf (base nx ny ox oy : Word) : Plane :=
  ⟨base.toNat, nx.toNat, ny.toNat, ox.toNat, oy.toNat⟩

end Sys2Proof.Machine
end

