-- ==== Sys2Proof/Machine/BitIO.lean ====
section
/-!
DEFINITION. The bit I/O engine (spec 41_bitio.md): the BitReader's commands (R75 to R80) and the BitWriter's (R81 to R86).
-/

namespace Sys2Proof.Machine

/-- `BR_INIT base, nbits` (R75). -/
def execBrInit (base nbits : Word) (s : State) : Outcome :=
  if ¬ s.inRange (operandU base) (ceil8 (operandU nbits)) then raise .pRange base s
  else .next ({ s with reader := ⟨base, nbits, 0, false⟩ } : State).retire

/-- Output byte `i` of a read that takes `t` bits from position `pos` of the stream at `base`: bit `7 - j` is stream bit
`pos + 8*i + j`, or 0 from the `t`-th bit on (R76). -/
def readByte (m : Memory) (base pos t i : Nat) : Byte :=
  (List.range 8).foldl
    (fun b j => if 8 * i + j < t ∧ m.streamBit base (pos + (8 * i + j)) then b ||| (1#8 <<< (7 - j)) else b) 0

/-- The reader after a read of `k` bits (R76): the cursor clamps at `BR_N`, and an over-read sets `OVR`. -/
def BitReader.advance (r : BitReader) (k : Nat) : BitReader :=
  { r with
    pos := r.pos + u32 (min k (r.n.toNat - r.pos.toNat))
    ovr := r.ovr || decide (r.n.toNat < r.pos.toNat + k) }

/-- `BR_READ k, dst` (R76). The stream's bytes are read as DMEM holds them now (R80). -/
def execBrRead (k dst : Word) (s : State) : Outcome :=
  match operandK k with
  | none => raise .pNegk k s
  | some n =>
    let base := s.reader.base.toNat
    if ¬ s.inRange (operandU dst) (ceil8 n) then raise .pRange dst s
    else if Overlap (operandU dst) (ceil8 n) base (ceil8 s.reader.n.toNat) then raise .pOverlap dst s
    else
      let t := min n (s.reader.n.toNat - s.reader.pos.toNat)
      if 0 < t ∧ ¬ s.inRange base (ceil8 s.reader.n.toNat) then .fault (.streamOutsideDmem s.reader.base)
      else
        let m := s.dmem.writeBytes (operandU dst) (ceil8 n) (readByte s.dmem base s.reader.pos.toNat t)
        .next (({ s.commit m [(operandU dst, ceil8 n)] with reader := s.reader.advance n } : State).setRes0 (u32 t)).retire

/-- `BR_SEEK i` (R77). -/
def execBrSeek (i : Word) (s : State) : Outcome :=
  if s.reader.n.toNat < operandU i then raise .pSeek i s
  else .next ({ s with reader := { s.reader with pos := i } } : State).retire

/-- `BR_REMAIN` (R78). -/
def execBrRemain (s : State) : Outcome := .next (s.setRes0 (s.reader.n - s.reader.pos)).retire

/-- `BR_ALIGN` (R79). -/
def execBrAlign (s : State) : Outcome :=
  let a := ceil8 s.reader.pos.toNat
  .next (({ s with reader := { s.reader with pos := u32 (min (8 * a) s.reader.n.toNat) } } : State).setRes0 (u32 a)).retire

/-- `BW_INIT base, capbits` (R81). -/
def execBwInit (base capbits : Word) (s : State) : Outcome :=
  let nb := ceil8 (operandU capbits)
  if ¬ s.inRange (operandU base) nb then raise .pRange base s
  else
    let m := s.dmem.writeBytes (operandU base) nb fun _ => 0
    .next ({ s.commit m [(operandU base, nb)] with writer := ⟨base, capbits, 0⟩ } : State).retire

/-- The first `k` bits of the stream at `src` written into the stream at `base` from bit `pos` on, bit by bit (R82). -/
def writeBits (m : Memory) (base pos src k : Nat) : Memory :=
  (List.range k).foldl (fun m j => m.setStreamBit base (pos + j) (m.streamBit src j)) m

/-- The bytes a write of `k` bits at bit `pos` of the stream at `base` touches. -/
def writeBitsRange (base pos k : Nat) : Nat × Nat :=
  (base + pos / 8, if k = 0 then 0 else ceil8 (pos + k) - pos / 8)

/-- `BW_WRITE k, src, srclen` (R82). -/
def execBwWrite (k src srclen : Word) (s : State) : Outcome :=
  match operandK k with
  | none => raise .pNegk k s
  | some n =>
    let base := s.writer.base.toNat
    let pos := s.writer.pos.toNat
    if 8 * operandU srclen < n then raise .pSrc k s
    else if ¬ s.inRange (operandU src) (operandU srclen) then raise .pRange src s
    else if s.writer.cap.toNat < pos + n then raise .pCap k s
    else if Overlap (operandU src) (ceil8 n) base (ceil8 s.writer.cap.toNat) then raise .pOverlap s.writer.base s
    else if 0 < n ∧ ¬ s.inRange base (ceil8 s.writer.cap.toNat) then .fault (.streamOutsideDmem s.writer.base)
    else
      let m := writeBits s.dmem base pos (operandU src) n
      .next ({ s.commit m [writeBitsRange base pos n] with writer := { s.writer with pos := s.writer.pos + u32 n } } : State).retire

/-- `BW_INDEX` (R83). -/
def execBwIndex (s : State) : Outcome := .next (s.setRes0 s.writer.pos).retire

/-- `BW_REMAIN` (R84). -/
def execBwRemain (s : State) : Outcome := .next (s.setRes0 (s.writer.cap - s.writer.pos)).retire

/-- `BW_ALIGN` (R85). -/
def execBwAlign (s : State) : Outcome :=
  let a := ceil8 s.writer.pos.toNat
  .next (({ s with writer := { s.writer with pos := u32 (min (8 * a) s.writer.cap.toNat) } } : State).setRes0 (u32 a)).retire

end Sys2Proof.Machine
end

