-- ==== Sys2Proof/Machine/Bitmap.lean ====
section
/-!
DEFINITION. The occupancy bitmap's commands (spec 42_bitmap_lut.md R89 to R96).
-/

namespace Sys2Proof.Machine

/-- `BITMAP[i]` (R29). -/
abbrev bitmapByte (bm : BitmapRam) (i : Nat) : Byte := bm.get bitmapBits i

/-- `Has(v)`: bit `v & 7` of `BITMAP[v >> 3]` (R29, R41). -/
def bitmapHas (bm : BitmapRam) (v : Nat) : Bool := (bitmapByte bm (v / 8)).getLsbD (v % 8)

/-- The bitmap with the bit of `v` set to `b` (R90, R91). -/
def bitmapPut (bm : BitmapRam) (v : Nat) (b : Bool) : BitmapRam :=
  bm.set bitmapBits (v / 8) (setByteBit (bitmapByte bm (v / 8)) (v % 8) b)

/-- The bitmap with the bit of every one of the `count` samples from `base` on set (R93). -/
def bitmapScan (m : Memory) (base count : Nat) (bm : BitmapRam) : BitmapRam :=
  (List.range count).foldl (fun bm i => bitmapPut bm (m.sample (base + 2 * i)).toNat true) bm

/-- The bitmap whose bytes `min .. min + n - 1` are those of DMEM from `src` on and the others 0 (R95). -/
def bitmapLoad (m : Memory) (src min n : Nat) : BitmapRam :=
  (List.range n).foldl (fun bm i => bm.set bitmapBits (min + i) (m.read (src + i))) (.leaf 0)

/-- The indices `i` in 0..8191 with `BITMAP[i] != 0`, ascending (R94). -/
def nonzeroBytes (bm : BitmapRam) : List Nat := bm.indices (fun x => x != 0) bitmapBits 0

/-- `BM_CLEAR` (R89). -/
def execBmClear (s : State) : Outcome :=
  .next ({ s with bitmap := .leaf 0, valid := { s.valid with bmv := true } } : State).retire

/-- `BM_SET v` (R90). -/
def execBmSet (v : Word) (s : State) : Outcome :=
  if 0xFFFF < operandU v then raise .pValue v s
  else if s.valid.bmv = false then raise .pState 0 s
  else .next ({ s with bitmap := bitmapPut s.bitmap (operandU v) true } : State).retire

/-- `BM_UNSET v` (R91). -/
def execBmUnset (v : Word) (s : State) : Outcome :=
  if 0xFFFF < operandU v then raise .pValue v s
  else if s.valid.bmv = false then raise .pState 0 s
  else .next ({ s with bitmap := bitmapPut s.bitmap (operandU v) false } : State).retire

/-- `BM_HAS v` (R92). -/
def execBmHas (v : Word) (s : State) : Outcome :=
  if 0xFFFF < operandU v then raise .pValue v s
  else if s.valid.bmv = false then raise .pState 0 s
  else .next (s.setRes0 (flagBit (bitmapHas s.bitmap (operandU v)) 0)).retire

/-- `BM_SCAN base, count` (R93). -/
def execBmScan (base count : Word) (s : State) : Outcome :=
  match checkSamples s (operandU base) (operandU count) with
  | some (e, info) => raise e info s
  | none =>
    if s.valid.bmv = false then raise .pState 0 s
    else .next ({ s with bitmap := bitmapScan s.dmem (operandU base) (operandU count) s.bitmap } : State).retire

/-- `RES0`, `RES1`, `RES2` of `BM_BOUNDS`: the least and the greatest index of a non-zero byte and 0, or 0, 0, 1 (R94). -/
def bitmapBounds (bm : BitmapRam) : Nat × Nat × Nat :=
  match (nonzeroBytes bm).head?, (nonzeroBytes bm).getLast? with
  | some lo, some hi => (lo, hi, 0)
  | _, _ => (0, 0, 1)

/-- `BM_BOUNDS` (R94). -/
def execBmBounds (s : State) : Outcome :=
  if s.valid.bmv = false then raise .pState 0 s
  else
    let b := bitmapBounds s.bitmap
    .next ({ s with res := ⟨u32 b.1, u32 b.2.1, u32 b.2.2, s.res.r3⟩ } : State).retire

/-- `BM_LOAD src, min, max` (R95). -/
def execBmLoad (src min max : Word) (s : State) : Outcome :=
  let n := operandU max - operandU min + 1
  if operandU max < operandU min ∨ 8191 < operandU max then raise .fBmBounds min s
  else if ¬ s.inRange (operandU src) n then raise .pRange src s
  else
    .next (({ s with
      bitmap := bitmapLoad s.dmem (operandU src) (operandU min) n
      valid := { s.valid with bmv := true } } : State).setRes0 (u32 n)).retire

/-- `BM_STORE dst, min, max` (R96). -/
def execBmStore (dst min max : Word) (s : State) : Outcome :=
  let n := operandU max - operandU min + 1
  if operandU max < operandU min ∨ 8191 < operandU max then raise .pValue min s
  else if ¬ s.inRange (operandU dst) n then raise .pRange dst s
  else if s.valid.bmv = false then raise .pState 0 s
  else
    let m := s.dmem.writeBytes (operandU dst) n fun i => bitmapByte s.bitmap (operandU min + i)
    .next ((s.commit m [(operandU dst, n)]).setRes0 (u32 n)).retire

end Sys2Proof.Machine
end

