-- ==== Sys2Proof/Machine/Huffman.lean ====
section
/-!
DEFINITION. The Huffman decoder (spec 43_huffman.md R102 to R116): the phases of `HUF_DECODE` as functions of DMEM, each answering
its result or the error it raises, then the three commands. `HUF_DECODE` reads DMEM as it is at its start and stores its samples
when it has succeeded; R107 has checked that what it reads and what it writes do not overlap (log 12).
-/

namespace Sys2Proof.Machine

/-- The result of a phase, or the error it raises. -/
abbrev Checked (α : Type) := Except Raise α

/-- The header fields (R102); the reserved word is not read. -/
structure HufHeader where
  dMin : Nat
  dMax : Nat
  tableLength : Nat
  payloadBits : Nat
deriving DecidableEq, Repr

/-- Phase 2: the frame and header checks of the block of `len` bytes at `src` (R108). -/
def hufHeader (m : Memory) (src len : Nat) : Checked HufHeader :=
  if len < Config.hufHdrBytes then .error (.fHufFrame, u32 len)
  else
    let h : HufHeader := ⟨m.readLE src 4, m.readLE (src + 4) 4, m.readLE (src + 8) 4, m.readLE (src + 12) 4⟩
    if h.dMax < h.dMin ∨ Config.maxSymbol < h.dMax then .error (.fHufHdr, u32 h.dMax)
    else if len - Config.hufHdrBytes < h.tableLength then .error (.fHufTableLen, u32 h.tableLength)
    else if 8 * (len - Config.hufHdrBytes - h.tableLength) < h.payloadBits then .error (.fHufPbits, u32 h.payloadBits)
    else .ok h

/-- `Get(n)` of phase 3: `n` bits of the table of `tbits` bits at `tb` from position `q` on, and the position after them (R109). -/
def hufTableGet (m : Memory) (tb tbits q n : Nat) : Checked (Nat × Nat) :=
  if tbits < q + n then .error (.fHufTable, u32 q) else .ok (m.streamBits tb q n, q + n)

/-- A zero run of `run` symbols at symbol `im` (R109): the symbol after it. -/
def hufSkipRun (dMax im run : Nat) : Checked Nat :=
  if dMax + 1 < im + run then .error (.fHufTableRun, u32 im) else .ok (im + run)

/-- One item of the table (R104) at symbol `im` and table position `q` (R109): the symbol of non-zero length it gives, if any,
with its length, the symbol after it and the position after it. -/
def hufTableItem (m : Memory) (tb tbits dMax im q : Nat) : Checked (List (Nat × Nat) × Nat × Nat) :=
  match hufTableGet m tb tbits q 6 with
  | .error e => .error e
  | .ok (v, q1) =>
    if v = Config.longZerocodeRun then
      match hufTableGet m tb tbits q1 8 with
      | .error e => .error e
      | .ok (f, q2) =>
        match hufSkipRun dMax im (f + Config.shortestLongRun) with
        | .error e => .error e
        | .ok im' => .ok ([], im', q2)
    else if Config.shortZerocodeRun ≤ v then
      match hufSkipRun dMax im (v - 57) with
      | .error e => .error e
      | .ok im' => .ok ([], im', q1)
    else .ok (if v = 0 then [] else [(im, v)], im + 1, q1)

/-- The loop of phase 3 from symbol `im` and table position `q` (R109): the symbols of non-zero length with their lengths,
ascending, and the position after the last item. Every turn covers a symbol, so `dMax + 1 - dMin` turns are enough. -/
def hufLengths (m : Memory) (tb tbits dMax : Nat) : Nat → Nat → Nat → Checked (List (Nat × Nat) × Nat)
  | 0, _, q => .ok ([], q)
  | fuel + 1, im, q =>
    if dMax < im then .ok ([], q)
    else
      match hufTableItem m tb tbits dMax im q with
      | .error e => .error e
      | .ok (ls, im', q1) =>
        match hufLengths m tb tbits dMax fuel im' q1 with
        | .error e => .error e
        | .ok (ls', q2) => .ok (ls ++ ls', q2)

/-- Phase 3: the code lengths of the table of the block at `src` (R109). -/
def hufUnpack (m : Memory) (src : Nat) (h : HufHeader) : Checked (List (Nat × Nat)) :=
  match hufLengths m (src + Config.hufHdrBytes) (8 * h.tableLength) h.dMax (h.dMax + 1 - h.dMin) h.dMin 0 with
  | .error e => .error e
  | .ok (ls, q) => if ceil8 q ≠ h.tableLength then .error (.fHufTableLen, u32 h.tableLength) else .ok ls

/-- `freq[l]` of phase 4 (R110). -/
def hufFreq (ls : List (Nat × Nat)) (l : Nat) : Nat := ls.countP fun sl => sl.2 == l

/-- `c` of phase 4 after `k` turns of its loop from length 58 down (R110). -/
def hufStartAfter (ls : List (Nat × Nat)) : Nat → Nat
  | 0 => 0
  | k + 1 => (hufStartAfter ls k + hufFreq ls (Config.maxCodeLen - k)) / 2

/-- `start[l]` of phase 4 (R110). -/
def hufStart (ls : List (Nat × Nat)) (l : Nat) : Nat := hufStartAfter ls (Config.maxCodeLen - l)

/-- A pack: length in bits [5:0], code in bits [63:6] (R31, R110). -/
def packOf (code len : Nat) : BitVec 64 := BitVec.ofNat 64 (code * 64 + len)

/-- The length of a pack (R31). -/
def packLen (p : BitVec 64) : Nat := p.toNat % 64

/-- The code of a pack (R31). -/
def packCode (p : BitVec 64) : Nat := p.toNat / 64

/-- The second loop of phase 4 (R110): `start` holds the next code of each length. -/
def hufAssign : List (Nat × Nat) → List Nat → PackRam → PackRam
  | [], _, t => t
  | (s, l) :: ls, start, t =>
    let c := start.getD l 0
    hufAssign ls (start.set l (c + 1)) (t.set packBits s (packOf c l))

/-- Phase 4: the packs of the canonical codes of the lengths `ls` (R110). -/
def hufPacks (ls : List (Nat × Nat)) : PackRam :=
  hufAssign ls ((List.range (Config.maxCodeLen + 1)).map (hufStart ls)) (.leaf 0)

/-- `PACK[s]`. -/
abbrev packAt (t : PackRam) (s : Nat) : BitVec 64 := t.get packBits s

/-- Symbol `s` with code `c` of length `l` entered in the decoding table (R111). -/
def hufEnter (t : DecRam) (s c l : Nat) : Checked DecRam :=
  if c >>> l ≠ 0 then .error (.fHufCode, u32 s)
  else if l ≤ decBits then
    if t.allBlock (fun e => e == .empty) l c then .ok (t.setBlock l c (.short l s)) else .error (.fHufOverlap, u32 s)
  else
    let i := c >>> (l - decBits)
    match t.get decBits i with
    | .short _ _ => .error (.fHufOverlap, u32 s)
    | .empty => .ok (t.set decBits i (.long [s]))
    | .long lits => .ok (t.set decBits i (.long (lits ++ [s])))

/-- Phase 5: the decoding table of the symbols `ls` with the codes of `packs` (R111). -/
def hufBuild (packs : PackRam) : List (Nat × Nat) → DecRam → Checked DecRam
  | [], t => .ok t
  | (s, l) :: ls, t =>
    match hufEnter t s (packCode (packAt packs s)) l with
    | .error e => .error e
    | .ok t' => hufBuild packs ls t'

/-- `PBit(q)` of a payload of `pbits` bits at `pb` (R112). -/
def hufPBit (m : Memory) (pb pbits q : Nat) : Bool := decide (q < pbits) && m.streamBit pb q

/-- `Peek(q, n)` (R112). -/
def hufPeek (m : Memory) (pb pbits q : Nat) : Nat → Nat
  | 0 => 0
  | n + 1 => 2 * hufPeek m pb pbits q n + (hufPBit m pb pbits (q + n)).toNat

/-- The symbol whose code stands at cursor `p`, and the cursor after the code (R112). -/
def hufSymbol (m : Memory) (pb pbits : Nat) (packs : PackRam) (t : DecRam) (p : Nat) : Checked (Nat × Nat) :=
  match t.get decBits (hufPeek m pb pbits p decBits) with
  | .empty => .error (.fHufEmpty, u32 p)
  | .short l s => if pbits < p + l then .error (.fHufTrunc, u32 p) else .ok (s, p + l)
  | .long lits =>
    match lits.find? fun d =>
      decide (p + packLen (packAt packs d) ≤ pbits) &&
        (hufPeek m pb pbits p (packLen (packAt packs d)) == packCode (packAt packs d)) with
    | none => .error (.fHufLongmiss, u32 p)
    | some s => .ok (s, p + packLen (packAt packs s))

/-- What the decode loop carries: the samples so far, last first, and their number `cnt` (R35). The last sample is the last
literal: an escape repeats it and leaves it (R112). -/
structure HufOut where
  rev : List Sample
  cnt : Nat
deriving DecidableEq, Repr

/-- One item with symbol `s`, its code ending at `p`: the samples after it and the cursor after it (R112). -/
def hufItem (m : Memory) (pb pbits dMax nout : Nat) (s p : Nat) (o : HufOut) : Checked (HufOut × Nat) :=
  if s = dMax then
    if pbits < p + 8 then .error (.fHufTrunc, u32 p)
    else
      let n := hufPeek m pb pbits p 8
      match o.rev with
      | [] => .error (.fHufRleNoprev, u32 (p + 8))
      | last :: _ =>
        if nout < o.cnt + n then .error (.fHufToomuch, u32 (p + 8))
        else .ok (⟨List.replicate n last ++ o.rev, o.cnt + n⟩, p + 8)
  else if nout ≤ o.cnt then .error (.fHufToomuch, u32 p)
  else .ok (⟨BitVec.ofNat 16 s :: o.rev, o.cnt + 1⟩, p)

/-- The loop of phase 6 from cursor `p` (R112). Every turn takes at least one bit, so `payloadBits` turns are enough. -/
def hufPayload (m : Memory) (pb pbits dMax nout : Nat) (packs : PackRam) (t : DecRam) : Nat → Nat → HufOut → Checked HufOut
  | 0, _, o => .ok o
  | fuel + 1, p, o =>
    if pbits ≤ p then .ok o
    else
      match hufSymbol m pb pbits packs t p with
      | .error e => .error e
      | .ok (s, p1) =>
        match hufItem m pb pbits dMax nout s p1 o with
        | .error e => .error e
        | .ok (o', p2) => hufPayload m pb pbits dMax nout packs t fuel p2 o'

/-- A decoded block. -/
structure HufBlock where
  header : HufHeader
  packs : PackRam
  dec : DecRam
  samples : List Sample
deriving DecidableEq, Repr

/-- Phases 2 to 7 on the block of `len` bytes at `src`, for `nout` samples (R108 to R113). -/
def hufDecodeBlock (m : Memory) (src len nout : Nat) : Checked HufBlock :=
  match hufHeader m src len with
  | .error e => .error e
  | .ok h =>
    match hufUnpack m src h with
    | .error e => .error e
    | .ok ls =>
      let packs := hufPacks ls
      match hufBuild packs ls (.leaf .empty) with
      | .error e => .error e
      | .ok t =>
        match hufPayload m (src + Config.hufHdrBytes + h.tableLength) h.payloadBits h.dMax nout packs t h.payloadBits 0 ⟨[], 0⟩ with
        | .error e => .error e
        | .ok o => if o.cnt ≠ nout then .error (.fHufNotenough, u32 o.cnt) else .ok ⟨h, packs, t, o.rev.reverse⟩

/-- `HUF_DECODE` has raised after its programmer checks (R114): `HUFV` is 0, and the destination samples, `PACK` and `DEC` hold
unspecified values, which are free here (U6, U7; log 9). -/
def State.hufFail (s : State) (dst nout : Nat) (e : ErrCode) (info : Word) : State :=
  ({ s with
    valid := { s.valid with hufv := false }
    pack := Config.freePack s.freeCtr
    dec := Config.freeDec s.freeCtr
    dmem := s.dmem.freeRange s.freeCtr dst (2 * nout)
    freeCtr := s.freeCtr + 1 } : State).errorStep e info

/-- `HUF_DECODE` has succeeded with block `b` (R113). -/
def State.hufDone (s : State) (dst nout : Nat) (b : HufBlock) : State :=
  { s.commit (s.dmem.writeSamples dst b.samples) [(dst, 2 * nout)] with
    valid := { s.valid with hufv := true }
    pack := b.packs
    dec := b.dec
    res := ⟨u32 b.header.dMin, u32 b.header.dMax, u32 b.header.tableLength, u32 b.header.payloadBits⟩ }

/-- `HUF_DECODE src, L, dst, nout`: phase 1 (R107), the other phases (R108 to R113), and their end (R113, R114). -/
def execHufDecode (src len dst nout : Word) (s : State) : Outcome :=
  if operandU dst % 2 ≠ 0 then raise .pAlign dst s
  else if ¬ s.inRange (operandU src) (operandU len) then raise .pRange src s
  else if ¬ s.inRange (operandU dst) (2 * operandU nout) then raise .pRange dst s
  else if Overlap (operandU src) (operandU len) (operandU dst) (2 * operandU nout) then raise .pOverlap dst s
  else
    match hufDecodeBlock s.dmem (operandU src) (operandU len) (operandU nout) with
    | .error (e, info) => .next (s.hufFail (operandU dst) (operandU nout) e info)
    | .ok b => .next (s.hufDone (operandU dst) (operandU nout) b).retire

/-- `HUF_PACK_READ sym` (R115). -/
def execHufPackRead (sym : Word) (s : State) : Outcome :=
  if Config.maxSymbol < operandU sym then raise .pValue sym s
  else if s.valid.hufv = false then raise .pState 3 s
  else
    let p := packAt s.pack (operandU sym)
    .next ({ s with
      res := ⟨p.extractLsb' 0 32, p.extractLsb' 32 32, (p.extractLsb' 0 6).setWidth 32, p.extractLsb' 6 32⟩ } : State).retire

/-- What `HUF_DEC_READ` returns for an entry and a list index: kind, length or count, and symbol (R116). -/
def decEntryWords (e : DecEntry) (j : Nat) : Word × Word × Word :=
  match e with
  | .empty => (0, 0, 0xFFFFFFFF)
  | .short l s => (1, u32 l, u32 s)
  | .long lits => (2, u32 lits.length, if h : j < lits.length then u32 lits[j] else 0xFFFFFFFF)

/-- `HUF_DEC_READ i, j` (R116). -/
def execHufDecRead (i j : Word) (s : State) : Outcome :=
  if 16383 < operandU i then raise .pValue i s
  else if s.valid.hufv = false then raise .pState 3 s
  else
    let r := decEntryWords (s.dec.get decBits (operandU i)) (operandU j)
    .next ({ s with res := ⟨r.1, r.2.1, r.2.2, s.res.r3⟩ } : State).retire

end Sys2Proof.Machine
end

