-- ==== Sys2Proof/Machine/Lut.lean ====
section
/-!
DEFINITION. The LUT's commands (spec 42_bitmap_lut.md R97 to R100).
-/

namespace Sys2Proof.Machine

/-- `Live(v)`: 0, or a value whose bitmap bit is 1 (42_bitmap_lut.md). -/
def live (bm : BitmapRam) (v : Nat) : Bool := v == 0 || bitmapHas bm v

/-- The live values, ascending: the values `v` at which the walks of R97 and R98 over 0..65535 advance `k`, which is a live
value's place in this list. It looks at the non-zero bytes only; `liveValues_eq_filter` in Laws/Tables.lean says that it is the
list of all `v` in 0..65535 with `Live(v)`. -/
def liveValues (bm : BitmapRam) : List Nat :=
  0 :: (((nonzeroBytes bm).flatMap fun i => (List.range 8).map (8 * i + ·)).filter fun v => v != 0 && bitmapHas bm v)

/-- The forward LUT (R97): a live value's entry is its rank, every other entry 0. -/
def lutForward (bm : BitmapRam) : LutRam :=
  (liveValues bm).zipIdx.foldl (fun t vk => t.set lutBits vk.1 (BitVec.ofNat 16 vk.2)) (.leaf 0)

/-- The reverse LUT (R98): the entry of a rank is its live value, the entries past the last rank are 0. -/
def lutReverse (bm : BitmapRam) : LutRam :=
  (liveValues bm).zipIdx.foldl (fun t vk => t.set lutBits vk.2 (BitVec.ofNat 16 vk.1)) (.leaf 0)

/-- `k - 1` after the walk: the number of live values minus 1 (R27, R97, R98). -/
def lutMaximum (bm : BitmapRam) : Nat := (liveValues bm).length - 1

/-- What `LUT_FWD` and `LUT_REV` share: the LUT, `LUTMAX`, `RES0` and the flags (R97, R98). -/
def State.setLut (s : State) (t : LutRam) (kind : Bool) : State :=
  ({ s with
    lut := t
    lutMax := BitVec.ofNat 16 (lutMaximum s.bitmap)
    valid := { s.valid with lutv := true, lutk := kind } } : State).setRes0 (u32 (lutMaximum s.bitmap))

/-- `LUT_FWD` (R97). -/
def execLutFwd (s : State) : Outcome :=
  if s.valid.bmv = false then raise .pState 0 s
  else .next (s.setLut (lutForward s.bitmap) false).retire

/-- `LUT_REV` (R98). -/
def execLutRev (s : State) : Outcome :=
  if s.valid.bmv = false then raise .pState 0 s
  else .next (s.setLut (lutReverse s.bitmap) true).retire

/-- The `count` samples from `base` on, each replaced by its LUT entry (R99). -/
def lutApply (t : LutRam) (base count : Nat) (m : Memory) : Memory :=
  (List.range count).foldl
    (fun m i => m.setSample (base + 2 * i) (t.get lutBits (m.sample (base + 2 * i)).toNat)) m

/-- `LUT_APPLY base, count` (R99). -/
def execLutApply (base count : Word) (s : State) : Outcome :=
  match checkSamples s (operandU base) (operandU count) with
  | some (e, info) => raise e info s
  | none =>
    if s.valid.lutv = false then raise .pState 1 s
    else
      .next (s.commit (lutApply s.lut (operandU base) (operandU count) s.dmem)
        [(operandU base, 2 * operandU count)]).retire

/-- `LUT_READ i` (R100). -/
def execLutRead (i : Word) (s : State) : Outcome :=
  if 0xFFFF < operandU i then raise .pValue i s
  else if s.valid.lutv = false then raise .pState 1 s
  else .next (s.setRes0 ((s.lut.get lutBits (operandU i)).setWidth 32)).retire

end Sys2Proof.Machine
end

