-- ==== Sys2Proof/Machine/Sequencer.lean ====
section
/-!
DEFINITION. `NOP` and `END` (spec 40_sequencer.md R71, R72).
-/

namespace Sys2Proof.Machine

/-- `NOP` (R71): nothing but the retire. -/
def execNop (s : State) : Outcome := .next s.retire

/-- `END` (R72): the retire, and the chain is done (R69). -/
def execEndChain (s : State) : Outcome := .next { s.retire with seq := .done }

end Sys2Proof.Machine
end

