-- ==== Sys2Proof/WellFormed.lean ====
section
/-!
DEFINITION. What the spec calls a legal descriptor (30_encoding.md R57, R60) and a well-formed command.
-/

namespace Sys2Proof

/-- `OPC`, `W0[7:0]` (R57). -/
abbrev Descriptor.opc (d : Descriptor) : Nat := (d.w0.extractLsb' 0 8).toNat

/-- `WM`, `W0[9:8]` (R57). -/
abbrev Descriptor.wm (d : Descriptor) : Nat := (d.w0.extractLsb' 8 2).toNat

/-- `RSV`, `W0[31:10]` (R57). -/
abbrev Descriptor.rsv (d : Descriptor) : Nat := (d.w0.extractLsb' 10 22).toNat

/-- The opcodes of the table of R59. -/
def definedOpcodes : List Nat :=
  [0x00, 0x01, 0x10, 0x11, 0x12, 0x13, 0x14, 0x18, 0x19, 0x1A, 0x1B, 0x1C, 0x20, 0x21, 0x22, 0x23, 0x24, 0x25, 0x26, 0x27,
   0x28, 0x29, 0x2A, 0x2B, 0x30, 0x31, 0x32, 0x40, 0x41]

/-- The wavelet opcodes, whose `WM` may differ from 0 (R57). -/
def wavOpcodes : List Nat := [0x40, 0x41]

/-- A legal descriptor: none of the four conditions of R60 holds. -/
def Descriptor.legal (d : Descriptor) : Bool :=
  definedOpcodes.contains d.opc && d.rsv == 0 && (d.wm == 0 || wavOpcodes.contains d.opc) && !(d.wm == 3)

/-- The reserved code of `WM` (R57). -/
def WavMode.wellFormed : WavMode → Bool
  | .w14 => true
  | .w16 => true
  | .auto => true
  | .reserved => false

/-- A well-formed command: operands take every value (R58), so only a wavelet command's mode can be wrong (R60). -/
def Instr.wellFormed : Instr → Bool
  | .nop => true
  | .endChain => true
  | .brInit _ _ => true
  | .brRead _ _ => true
  | .brSeek _ => true
  | .brRemain => true
  | .brAlign => true
  | .bwInit _ _ => true
  | .bwWrite _ _ _ => true
  | .bwIndex => true
  | .bwRemain => true
  | .bwAlign => true
  | .bmClear => true
  | .bmSet _ => true
  | .bmUnset _ => true
  | .bmHas _ => true
  | .bmScan _ _ => true
  | .bmBounds => true
  | .bmLoad _ _ _ => true
  | .bmStore _ _ _ => true
  | .lutFwd => true
  | .lutRev => true
  | .lutApply _ _ => true
  | .lutRead _ => true
  | .hufDecode _ _ _ _ => true
  | .hufPackRead _ => true
  | .hufDecRead _ _ => true
  | .wavFwd wm _ _ _ _ _ => wm.wellFormed
  | .wavInv wm _ _ _ _ _ => wm.wellFormed

end Sys2Proof
end

