-- ==== Sys2Proof/Decode.lean ====
section
/-!
DEFINITION. The decoder, from the bytes of a descriptor to a command or a named reason to refuse it (spec 30_encoding.md R56 to
R60), and after it the encoder, from the same tables (R57, R59, R62).
-/

namespace Sys2Proof

/-- Why bytes are no command. The first is the model's own: the sequencer always fetches 32 bytes (R68). The others are the four
conditions of R60, all of which the core reports as `P_BADOP`. -/
inductive DecodeError where
  | truncated
  | unknownOpcode (opc : Nat)
  | reservedBits (rsv : Nat)
  | strayMode (opc wm : Nat)
  | reservedMode (opc : Nat)
deriving DecidableEq, Repr

/-- A 32-bit word from its four bytes, lowest address first: little-endian (R39). -/
def wordOfBytes (b0 b1 b2 b3 : Byte) : Word := b3 ++ b2 ++ b1 ++ b0

/-- The four bytes of a word, lowest address first (R39). -/
def bytesOfWord (w : Word) : List Byte :=
  [w.extractLsb' 0 8, w.extractLsb' 8 8, w.extractLsb' 16 8, w.extractLsb' 24 8]

/-- One word off a list of bytes. -/
def takeWord : List Byte → Option (Word × List Byte)
  | b0 :: b1 :: b2 :: b3 :: rest => some (wordOfBytes b0 b1 b2 b3, rest)
  | _ => none

/-- `n` words off a list of bytes. -/
def takeWords : Nat → List Byte → Option (List Word × List Byte)
  | 0, bs => some ([], bs)
  | n + 1, bs =>
    match takeWord bs with
    | none => none
    | some (w, bs1) =>
      match takeWords n bs1 with
      | none => none
      | some (ws, bs2) => some (w :: ws, bs2)

/-- A descriptor off a list of bytes, with the bytes after it (R56). -/
def takeDescriptor (bs : List Byte) : Option (Descriptor × List Byte) :=
  match takeWords 8 bs with
  | some ([w0, a, b, c, d, e, f, g], rest) => some (⟨w0, a, b, c, d, e, f, g⟩, rest)
  | _ => none

/-- The mode that the two bits of `WM` name (R57). -/
def wavModeOf : Nat → WavMode
  | 0 => .w14
  | 1 => .w16
  | 2 => .auto
  | _ => .reserved

/-- The command of opcode `opc` with the operand words of `d` (R59); none for an opcode outside the table. -/
def commandOf (opc : Nat) (d : Descriptor) : Option Instr :=
  match opc with
  | 0x00 => some .nop
  | 0x01 => some .endChain
  | 0x10 => some (.brInit d.a d.b)
  | 0x11 => some (.brRead d.a d.b)
  | 0x12 => some (.brSeek d.a)
  | 0x13 => some .brRemain
  | 0x14 => some .brAlign
  | 0x18 => some (.bwInit d.a d.b)
  | 0x19 => some (.bwWrite d.a d.b d.c)
  | 0x1A => some .bwIndex
  | 0x1B => some .bwRemain
  | 0x1C => some .bwAlign
  | 0x20 => some .bmClear
  | 0x21 => some (.bmSet d.a)
  | 0x22 => some (.bmUnset d.a)
  | 0x23 => some (.bmHas d.a)
  | 0x24 => some (.bmScan d.a d.b)
  | 0x25 => some .bmBounds
  | 0x26 => some (.bmLoad d.a d.b d.c)
  | 0x27 => some (.bmStore d.a d.b d.c)
  | 0x28 => some .lutFwd
  | 0x29 => some .lutRev
  | 0x2A => some (.lutApply d.a d.b)
  | 0x2B => some (.lutRead d.a)
  | 0x30 => some (.hufDecode d.a d.b d.c d.d)
  | 0x31 => some (.hufPackRead d.a)
  | 0x32 => some (.hufDecRead d.a d.b)
  | 0x40 => some (.wavFwd (wavModeOf d.wm) d.a d.b d.c d.d d.e)
  | 0x41 => some (.wavInv (wavModeOf d.wm) d.a d.b d.c d.d d.e)
  | _ => none

/-- Decoding a descriptor: the conditions of R60, then the command. -/
def decodeDescriptor (d : Descriptor) : Except DecodeError Instr :=
  match commandOf d.opc d with
  | none => .error (.unknownOpcode d.opc)
  | some i =>
    if d.rsv ≠ 0 then .error (.reservedBits d.rsv)
    else if d.wm ≠ 0 ∧ ¬ wavOpcodes.contains d.opc then .error (.strayMode d.opc d.wm)
    else if d.wm = 3 then .error (.reservedMode d.opc)
    else .ok i

/-- Decoding bytes: the command, and the bytes after its descriptor. Total; what it refuses it names. -/
def decode (bs : List Byte) : Except DecodeError (Instr × List Byte) :=
  match takeDescriptor bs with
  | none => .error .truncated
  | some (d, rest) =>
    match decodeDescriptor d with
    | .error e => .error e
    | .ok i => .ok (i, rest)

/-- The 32 bytes of an instruction word laid out as the hardware stores them: bits `8i+7 .. 8i` of `w` are byte `i` (R39, R56),
and every bit at or above `nbits` is 0. -/
def layoutWord (nbits w : Nat) : List Byte :=
  (List.range Config.cmdBytes).map fun i => BitVec.ofNat 8 ((w % 2 ^ nbits) >>> (8 * i))

/-- What the decoder reads from an instruction whose bits are `w`, numbered as spec/opcode_table.json numbers them. -/
def decodeTableWord (nbits w : Nat) : Option Instr :=
  match decode (layoutWord nbits w) with
  | .ok (i, _) => some i
  | .error _ => none

/-- The two bits of `WM` (R57). -/
def wavModeBits : WavMode → BitVec 2
  | .w14 => 0
  | .w16 => 1
  | .auto => 2
  | .reserved => 3

/-- The control word of an opcode and a mode, with `RSV` 0 (R57). -/
def controlWord (opc : Byte) (wm : BitVec 2) : Word := (0 : BitVec 22) ++ wm ++ opc

/-- The descriptor of an opcode with mode 0 and the operand words A to E; the others are 0 (R62). -/
def plainDescriptor (opc : Byte) (a b c d e : Word := 0) : Descriptor :=
  ⟨controlWord opc 0, a, b, c, d, e, 0, 0⟩

/-- The descriptor of a command (R59); the operand words it does not use are 0 (R62). -/
def encodeDescriptor : Instr → Descriptor
  | .nop => plainDescriptor 0x00
  | .endChain => plainDescriptor 0x01
  | .brInit base nbits => plainDescriptor 0x10 base nbits
  | .brRead k dst => plainDescriptor 0x11 k dst
  | .brSeek i => plainDescriptor 0x12 i
  | .brRemain => plainDescriptor 0x13
  | .brAlign => plainDescriptor 0x14
  | .bwInit base capbits => plainDescriptor 0x18 base capbits
  | .bwWrite k src srclen => plainDescriptor 0x19 k src srclen
  | .bwIndex => plainDescriptor 0x1A
  | .bwRemain => plainDescriptor 0x1B
  | .bwAlign => plainDescriptor 0x1C
  | .bmClear => plainDescriptor 0x20
  | .bmSet v => plainDescriptor 0x21 v
  | .bmUnset v => plainDescriptor 0x22 v
  | .bmHas v => plainDescriptor 0x23 v
  | .bmScan base count => plainDescriptor 0x24 base count
  | .bmBounds => plainDescriptor 0x25
  | .bmLoad src min max => plainDescriptor 0x26 src min max
  | .bmStore dst min max => plainDescriptor 0x27 dst min max
  | .lutFwd => plainDescriptor 0x28
  | .lutRev => plainDescriptor 0x29
  | .lutApply base count => plainDescriptor 0x2A base count
  | .lutRead i => plainDescriptor 0x2B i
  | .hufDecode src len dst nout => plainDescriptor 0x30 src len dst nout
  | .hufPackRead sym => plainDescriptor 0x31 sym
  | .hufDecRead i j => plainDescriptor 0x32 i j
  | .wavFwd wm base nx ny ox oy => ⟨controlWord 0x40 (wavModeBits wm), base, nx, ny, ox, oy, 0, 0⟩
  | .wavInv wm base nx ny ox oy => ⟨controlWord 0x41 (wavModeBits wm), base, nx, ny, ox, oy, 0, 0⟩

/-- The 32 bytes of a descriptor (R39, R56). -/
def bytesOfDescriptor (d : Descriptor) : List Byte :=
  bytesOfWord d.w0 ++ bytesOfWord d.a ++ bytesOfWord d.b ++ bytesOfWord d.c ++ bytesOfWord d.d ++ bytesOfWord d.e ++
    bytesOfWord d.f ++ bytesOfWord d.g

/-- The bytes of a command's descriptor, lowest address first. -/
def encode (i : Instr) : List Byte := bytesOfDescriptor (encodeDescriptor i)

end Sys2Proof
end

