-- ==== Sys2Proof/Machine/Wavelet.lean ====
section
/-!
DEFINITION. The 2-D Haar wavelet unit (spec 44_wavelet.md R118 to R125). The w16 formulas, the odd column and line and the level
bound stand in the rules as general knowledge the spec adopts (G1 to G3; log 16).
-/

namespace Sys2Proof.Machine

/-- `enc14` (R121), in signed arithmetic (C2). -/
def enc14 (a b : Sample) : Sample × Sample := (u16 ((s16 a + s16 b) >>> 1), u16 (s16 a - s16 b))

/-- `dec14` (R121); `hs & 1` is the remainder of `hs` modulo 2. -/
def dec14 (l h : Sample) : Sample × Sample :=
  let ai := s16 l + s16 h % 2 + s16 h >>> 1
  (u16 ai, u16 (ai - s16 h))

/-- `enc16` (R122). -/
def enc16 (a b : Sample) : Sample × Sample :=
  let ao : Nat := (a.toNat + 0x8000) % 65536
  let m : Nat := (ao + b.toNat) / 2
  (if ao < b.toNat then BitVec.ofNat 16 (m + 0x8000) else BitVec.ofNat 16 m, u16 ((ao : Int) - b.toNat))

/-- `dec16` (R122). -/
def dec16 (l h : Sample) : Sample × Sample :=
  let bb : Sample := u16 ((l.toNat : Int) - (h.toNat / 2 : Nat))
  (u16 ((h.toNat : Int) + bb.toNat - 0x8000), bb)

/-- `Levels(nx, ny)`, ascending: the scales `p = 1, 2, 4, ...` with `2*p <= min(nx, ny)` (R123). The operands are below 2^32, so
no scale is above 2^31. -/
def wavLevels (nx ny : Nat) : List Nat :=
  ((List.range 32).map fun j => 2 ^ j).filter fun p => decide (2 * p ≤ min nx ny)

/-- `0, p2, 2*p2, ...` while `_ + p2 <= n`. -/
def wavStarts (p2 n : Nat) : List Nat := (List.range (n / p2)).map fun i => i * p2

/-- One pair of samples replaced by `f` of them. -/
def wavPair (f : Sample → Sample → Sample × Sample) (pl : Plane) (x0 y0 x1 y1 : Nat) (m : Memory) : Memory :=
  let r := f (pl.get m x0 y0) (pl.get m x1 y1)
  pl.put (pl.put m x0 y0 r.1) x1 y1 r.2

/-- The four samples of the block at `(xb, yb)` of scale `p` replaced. -/
def wavPutBlock (pl : Plane) (p xb yb : Nat) (r00 r01 r10 r11 : Sample) (m : Memory) : Memory :=
  pl.put (pl.put (pl.put (pl.put m xb yb r00) (xb + p) yb r01) xb (yb + p) r10) (xb + p) (yb + p) r11

/-- The 2x2 block step of the forward transform: rows, then columns (R124). -/
def wavFwdBlock (enc : Sample → Sample → Sample × Sample) (pl : Plane) (p xb yb : Nat) (m : Memory) : Memory :=
  let i0 := enc (pl.get m xb yb) (pl.get m (xb + p) yb)
  let i1 := enc (pl.get m xb (yb + p)) (pl.get m (xb + p) (yb + p))
  let c0 := enc i0.1 i1.1
  let c1 := enc i0.2 i1.2
  wavPutBlock pl p xb yb c0.1 c1.1 c0.2 c1.2 m

/-- The 2x2 block step of the inverse transform: columns, then rows (R125). -/
def wavInvBlock (dec : Sample → Sample → Sample × Sample) (pl : Plane) (p xb yb : Nat) (m : Memory) : Memory :=
  let i0 := dec (pl.get m xb yb) (pl.get m xb (yb + p))
  let i1 := dec (pl.get m (xb + p) yb) (pl.get m (xb + p) (yb + p))
  let r0 := dec i0.1 i1.1
  let r1 := dec i0.2 i1.2
  wavPutBlock pl p xb yb r0.1 r0.2 r1.1 r1.2 m

/-- One row of blocks of scale `p` at `yb`, and the pair of the odd column when there is one (R124, R125). -/
def wavBlockRow (f : Sample → Sample → Sample × Sample) (block : Nat → Nat → Memory → Memory) (pl : Plane) (p yb : Nat)
    (m : Memory) : Memory :=
  let m1 := (wavStarts (2 * p) pl.nx).foldl (fun m xb => block xb yb m) m
  if pl.nx &&& p ≠ 0 then
    let xr := pl.nx / (2 * p) * (2 * p)
    wavPair f pl xr yb xr (yb + p) m1
  else m1

/-- One scale of the transform: the rows of blocks, and the pairs of the odd line when there is one (R124, R125). -/
def wavScale (f : Sample → Sample → Sample × Sample) (block : Nat → Nat → Memory → Memory) (pl : Plane) (p : Nat) (m : Memory) :
    Memory :=
  let m1 := (wavStarts (2 * p) pl.ny).foldl (fun m yb => wavBlockRow f block pl p yb m) m
  if pl.ny &&& p ≠ 0 then
    let yr := pl.ny / (2 * p) * (2 * p)
    (wavStarts (2 * p) pl.nx).foldl (fun m xb => wavPair f pl xb yr (xb + p) yr m) m1
  else m1

/-- The forward transform: the scales ascending (R124). -/
def wavForward (enc : Sample → Sample → Sample × Sample) (pl : Plane) (m : Memory) : Memory :=
  (wavLevels pl.nx pl.ny).foldl (fun m p => wavScale enc (wavFwdBlock enc pl p) pl p m) m

/-- The inverse transform: the scales descending (R125). -/
def wavInverse (dec : Sample → Sample → Sample × Sample) (pl : Plane) (m : Memory) : Memory :=
  (wavLevels pl.nx pl.ny).reverse.foldl (fun m p => wavScale dec (wavInvBlock dec pl p) pl p m) m

/-- Coordinate `v` of a side of `n` samples is a corner of one of the blocks of scale `p` (R124). -/
abbrev InBlock (p n v : Nat) : Prop := v % p = 0 ∧ v / (2 * p) * (2 * p) + 2 * p ≤ n

/-- Coordinate `v` of a side of `n` samples is that of the odd column or line of scale `p`, which there is one of (R124). -/
abbrev OddAt (p n v : Nat) : Prop := n &&& p ≠ 0 ∧ v = n / (2 * p) * (2 * p)

/-- Scale `p` writes sample `(x, y)`: in a block, in a pair of the odd column, or in a pair of the odd line (R124, R125). -/
abbrev Plane.Touches (pl : Plane) (p x y : Nat) : Prop :=
  (InBlock p pl.nx x ∧ InBlock p pl.ny y) ∨ (OddAt p pl.nx x ∧ InBlock p pl.ny y) ∨ (InBlock p pl.nx x ∧ OddAt p pl.ny y)

/-- A transform writes sample `(x, y)`: one of its scales does (R124, R125). -/
abbrev Plane.Writes (pl : Plane) (x y : Nat) : Prop := ∃ p ∈ wavLevels pl.nx pl.ny, pl.Touches p x y

/-- The byte ranges of the samples a transform writes. -/
def Plane.written (pl : Plane) : List (Nat × Nat) :=
  (List.range pl.ny).flatMap fun y => ((List.range pl.nx).filter fun x => pl.Writes x y).map fun x => (pl.addr x y, 2)

/-- Strides for which distinct samples of a plane do not overlap, row by row or column by column (R119). -/
abbrev Plane.Geometry (pl : Plane) : Prop :=
  (1 ≤ pl.ox ∧ pl.nx * pl.ox ≤ pl.oy) ∨ (1 ≤ pl.oy ∧ pl.ny * pl.oy ≤ pl.ox)

/-- The bytes from a plane's base to its last sample (R119). -/
abbrev Plane.span (pl : Plane) : Nat := 2 * ((pl.nx - 1) * pl.ox + (pl.ny - 1) * pl.oy) + 2

/-- The checks of R119 on a plane whose sides are both at least 2: the error they raise, if any. -/
def wavCheck (wm : WavMode) (pl : Plane) (s : State) : Option Raise :=
  if pl.base % 2 ≠ 0 then some (.pAlign, u32 pl.base)
  else if ¬ pl.Geometry then some (.pGeom, 0)
  else if ¬ s.inRange pl.base pl.span then some (.pRange, u32 pl.base)
  else if wm = .auto ∧ s.valid.lutv = false then some (.pState, 1)
  else none

/-- Whether the w16 variant applies (R120). -/
def wavIs16 (wm : WavMode) (s : State) : Bool :=
  match wm with
  | .w14 => false
  | .w16 => true
  | .auto => decide (Config.w14Limit ≤ s.lutMax.toNat)
  | .reserved => false

/-- What the two wavelet commands share: the checks, then the transform `f`, which is told whether the variant is w16 (R119,
R120). The reserved mode is no command (R60; log 15): it raises `P_BADOP(W0)`. -/
def wavCommand (f : Bool → Plane → Memory → Memory) (opc : Byte) (wm : WavMode) (pl : Plane) (s : State) : Outcome :=
  if wm = .reserved then raise .pBadop (controlWord opc 3) s
  else if min pl.nx pl.ny < 2 then .next s.retire
  else
    match wavCheck wm pl s with
    | some (e, info) => raise e info s
    | none => .next (s.commit (f (wavIs16 wm s) pl s.dmem) pl.written).retire

/-- The forward transform of a variant (R120, R124). -/
def wavForwardOf (is16 : Bool) (pl : Plane) (m : Memory) : Memory := wavForward (if is16 then enc16 else enc14) pl m

/-- The inverse transform of a variant (R120, R125). -/
def wavInverseOf (is16 : Bool) (pl : Plane) (m : Memory) : Memory := wavInverse (if is16 then dec16 else dec14) pl m

/-- `WAV_FWD base, nx, ny, ox, oy` (R124). -/
def execWavFwd (wm : WavMode) (base nx ny ox oy : Word) (s : State) : Outcome :=
  wavCommand wavForwardOf 0x40 wm (planeOf base nx ny ox oy) s

/-- `WAV_INV base, nx, ny, ox, oy` (R125). -/
def execWavInv (wm : WavMode) (base nx ny ox oy : Word) (s : State) : Outcome :=
  wavCommand wavInverseOf 0x41 wm (planeOf base nx ny ox oy) s

end Sys2Proof.Machine
end

