-- ==== Sys2Proof/Machine/Dispatch.lean ====
section
/-!
DEFINITION. One arm per command: the command's meaning, which ends with its retire (spec 40_sequencer.md R69) or with the
error step (60_exceptions.md R130).
-/

namespace Sys2Proof.Machine

def exec (i : Instr) (s : State) : Host.Outcome State Fault Refusal :=
  match i with
  | .nop => Sys2Proof.Machine.execNop s
  | .endChain => Sys2Proof.Machine.execEndChain s
  | .brInit base nbits => Sys2Proof.Machine.execBrInit base nbits s
  | .brRead k dst => Sys2Proof.Machine.execBrRead k dst s
  | .brSeek idx => Sys2Proof.Machine.execBrSeek idx s
  | .brRemain => Sys2Proof.Machine.execBrRemain s
  | .brAlign => Sys2Proof.Machine.execBrAlign s
  | .bwInit base capbits => Sys2Proof.Machine.execBwInit base capbits s
  | .bwWrite k src srclen => Sys2Proof.Machine.execBwWrite k src srclen s
  | .bwIndex => Sys2Proof.Machine.execBwIndex s
  | .bwRemain => Sys2Proof.Machine.execBwRemain s
  | .bwAlign => Sys2Proof.Machine.execBwAlign s
  | .bmClear => Sys2Proof.Machine.execBmClear s
  | .bmSet v => Sys2Proof.Machine.execBmSet v s
  | .bmUnset v => Sys2Proof.Machine.execBmUnset v s
  | .bmHas v => Sys2Proof.Machine.execBmHas v s
  | .bmScan base count => Sys2Proof.Machine.execBmScan base count s
  | .bmBounds => Sys2Proof.Machine.execBmBounds s
  | .bmLoad src min max => Sys2Proof.Machine.execBmLoad src min max s
  | .bmStore dst min max => Sys2Proof.Machine.execBmStore dst min max s
  | .lutFwd => Sys2Proof.Machine.execLutFwd s
  | .lutRev => Sys2Proof.Machine.execLutRev s
  | .lutApply base count => Sys2Proof.Machine.execLutApply base count s
  | .lutRead idx => Sys2Proof.Machine.execLutRead idx s
  | .hufDecode src len dst nout => Sys2Proof.Machine.execHufDecode src len dst nout s
  | .hufPackRead sym => Sys2Proof.Machine.execHufPackRead sym s
  | .hufDecRead idx j => Sys2Proof.Machine.execHufDecRead idx j s
  | .wavFwd wm base nx ny ox oy => Sys2Proof.Machine.execWavFwd wm base nx ny ox oy s
  | .wavInv wm base nx ny ox oy => Sys2Proof.Machine.execWavInv wm base nx ny ox oy s

end Sys2Proof.Machine
end

