-- ==== Sys2Proof/Machine/Fetch.lean ====
section
/-!
DEFINITION. Fetching a descriptor (spec 40_sequencer.md R68) and placing one where the next fetch reads it (log 10).
-/

namespace Sys2Proof.Machine

/-- The 32 bytes of the descriptor at `a` (R56, R68). -/
def fetchBytes (m : Memory) (a : Nat) : List Byte :=
  (List.range Config.cmdBytes).map fun i => m.read (a + i)

/-- The checks of a fetch at `CP` (R68). -/
abbrev State.Fetchable (s : State) : Prop :=
  s.cp.toNat % 4 = 0 ∧ s.cp.toNat + 32 ≤ s.params.dmemSize

/-- The fetch and decode of R68: the command at `CP`, or the error raised. -/
def State.fetch (s : State) : Except (ErrCode × Word) Instr :=
  if s.cp.toNat % 4 ≠ 0 then .error (.pAlign, s.cp)
  else if s.params.dmemSize < s.cp.toNat + 32 then .error (.pRange, s.cp)
  else
    match decode (fetchBytes s.dmem s.cp.toNat) with
    | .ok (i, _) => .ok i
    | .error _ => .error (.pBadop, u32 (s.dmem.readLE s.cp.toNat 4))

/-- Bytes written from `a` on. -/
def Memory.writeList (m : Memory) (a : Nat) : List Byte → Memory
  | [] => m
  | b :: bs => Memory.writeList (m.write a b) (a + 1) bs

/-- A state whose next step is the core's: the model's turns begin with one of the core's, or there are none (log 6). -/
def State.withCoreTurn (s : State) : State :=
  match s.hostTurns with
  | .act _ :: _ => { s with hostTurns := .core :: s.hostTurns }
  | _ => s

/-- `s` with a chain running at a `CP` that can be fetched from: `GO` if none runs (R66), and `CP = 0` if a fetch at `CP` would
raise (log 10). -/
def State.readyToFetch (s : State) : State :=
  let s1 := if s.busy then s else s.startChain
  if s1.Fetchable then s1 else { s1 with cp := 0 }

/-- `s` with the descriptor bytes `bs` where the next step fetches. -/
def State.placeDescriptor (s : State) (bs : List Byte) : State :=
  let s1 := s.withCoreTurn.readyToFetch
  { s1 with dmem := s1.dmem.writeList s1.cp.toNat bs }

end Sys2Proof.Machine
end

