-- ==== Sys2Proof/Machine/HostPort.lean ====
section
/-!
DEFINITION. What the host does to the core: the register block (spec 10_state.md R20 to R28), `CTRL` (40_sequencer.md R65 to R67),
the DMEM port (20_memory.md R55) and the two windows of the host's address map (R20, R48).
-/

namespace Sys2Proof.Machine

/-- A register of the block by its offset (R20); reserved offsets read 0. -/
def State.register (s : State) (offset : Nat) : Word :=
  match offset with
  | 0x00 => s.params.implId
  | 0x04 => s.ctrlWord
  | 0x08 => s.statusWord
  | 0x0C => s.cp
  | 0x10 => s.errcodeWord
  | 0x14 => s.err.info
  | 0x18 => s.err.cp
  | 0x1C => s.cmdCnt
  | 0x20 => s.res.r0
  | 0x24 => s.res.r1
  | 0x28 => s.res.r2
  | 0x2C => s.res.r3
  | 0x30 => s.lutmaxWord
  | 0x34 => s.validWord
  | 0x38 => s.reader.base
  | 0x3C => s.reader.n
  | 0x40 => s.reader.pos
  | 0x44 => s.brFlagsWord
  | 0x48 => s.writer.base
  | 0x4C => s.writer.cap
  | 0x50 => s.writer.pos
  | 0x54 => u32 s.params.dmemSize
  | _ => 0

/-- A write of `CTRL` (R22, R65): `SRST` alone, or `IE`, then `CLR`, then `GO`, the last two ignored while `BUSY`. -/
def State.writeCtrl (s : State) (v : Word) : State :=
  if v.getLsbD 3 then s.softReset
  else
    let s1 : State := { s with ie := v.getLsbD 1 }
    let s2 := if v.getLsbD 2 ∧ s1.busy = false then s1.clear else s1
    if v.getLsbD 0 ∧ s2.busy = false then s2.startChain else s2

/-- A write to a register of the block: `CTRL` (R65) and `CP`, which ignores it while `BUSY` (R19), act; every other register
ignores it (R20). -/
def State.writeRegister (s : State) (offset : Nat) (v : Word) : State :=
  match offset with
  | 0x04 => s.writeCtrl v
  | 0x0C => if s.busy then s else { s with cp := v }
  | _ => s

/-- An aligned 32-bit access inside the block (R20, R55). -/
abbrev RegisterAccess (offset size : Nat) : Prop := size = 4 ∧ offset % 4 = 0 ∧ offset < 256

/-- An access of 1, 2 or 4 bytes inside DMEM (R55). -/
abbrev State.dmemAccess (s : State) (a size : Nat) : Prop :=
  (size = 1 ∨ size = 2 ∨ size = 4) ∧ a + size ≤ s.params.dmemSize

/-- A host read of DMEM (R55); while `BUSY` it returns a free value (U8; log 7). -/
def State.hostMemRead (s : State) (a size : Nat) : State :=
  if s.busy then { s with hostData := Config.freeWord s.freeCtr, freeCtr := s.freeCtr + 1 }
  else { s with hostData := u32 (s.dmem.readLE a size) }

/-- A host write of DMEM (R55); while `BUSY` the bytes become free values, and the chain is marked (U9; log 8). -/
def State.hostMemWrite (s : State) (a size : Nat) (v : Word) : State :=
  if s.busy then
    { s with dmem := s.dmem.freeRange s.freeCtr a size, hostRaced := true, freeCtr := s.freeCtr + 1 }
  else { s with dmem := s.dmem.writeLE a size v.toNat }

/-- What an address of the host's map names (R20, R48). -/
inductive HostTarget where
  | register (offset : Nat)
  | dmem (a : Nat)
deriving DecidableEq, Repr

/-- The target of a host address: the register block or the DMEM port; none where neither window, or both, hold the address
(log 14). -/
def hostTarget (p : Params) (addr : Nat) : Option HostTarget :=
  let inRegs := p.regHostBase ≤ addr ∧ addr < p.regHostBase + 256
  let inDmem := p.dmemHostBase ≤ addr ∧ addr < p.dmemHostBase + p.dmemSize
  if inRegs ∧ ¬ inDmem then some (.register (addr - p.regHostBase))
  else if inDmem ∧ ¬ inRegs then some (.dmem (addr - p.dmemHostBase))
  else none

/-- A register read (R55): the value goes to the host, the core is unchanged (R47). -/
def hostRegRead (offset size : Nat) (s : State) : Outcome :=
  if RegisterAccess offset size then .next { s with hostData := s.register offset }
  else .refused (.hostRegisterAccess offset size)

/-- A register write (R55). -/
def hostRegWrite (offset size : Nat) (v : Word) (s : State) : Outcome :=
  if RegisterAccess offset size then .next (s.writeRegister offset v)
  else .refused (.hostRegisterAccess offset size)

/-- A read through the DMEM port (R55). -/
def hostDmemRead (a size : Nat) (s : State) : Outcome :=
  if s.dmemAccess a size then .next (s.hostMemRead a size) else .refused (.hostDmemAccess a size)

/-- A write through the DMEM port (R55). -/
def hostDmemWrite (a size : Nat) (v : Word) (s : State) : Outcome :=
  if s.dmemAccess a size then .next (s.hostMemWrite a size v) else .refused (.hostDmemAccess a size)

/-- A host action (R64). -/
def hostAct (h : HostAction) (s : State) : Outcome :=
  match h with
  | .regRead offset size => hostRegRead offset size s
  | .regWrite offset size v => hostRegWrite offset size v s
  | .memRead a size => hostDmemRead a size s
  | .memWrite a size v => hostDmemWrite a size v s
  | .busRead addr size =>
    match hostTarget s.params addr with
    | some (.register offset) => hostRegRead offset size s
    | some (.dmem a) => hostDmemRead a size s
    | none => .refused (.hostUnmapped addr)
  | .busWrite addr size v =>
    match hostTarget s.params addr with
    | some (.register offset) => hostRegWrite offset size v s
    | some (.dmem a) => hostDmemWrite a size v s
    | none => .refused (.hostUnmapped addr)

end Sys2Proof.Machine
end

