-- ==== Sys2Proof/Machine/Step.lean ====
section
/-!
DEFINITION. One step (spec 40_sequencer.md R63, R64, R68, R69): a host action where it is the host's turn, else the core's own step.
-/

namespace Sys2Proof.Machine

/-- The core's step: in a stopped state it changes nothing (R63; log 5); while a chain runs it fetches and decodes the descriptor
at `CP`, and runs the command or takes the error step (R68, R69, R130). -/
def coreStep (s : State) : Outcome :=
  match s.seq with
  | .running =>
    match s.fetch with
    | .ok i => exec i s
    | .error (e, info) => raise e info s
  | _ => .next s

/-- One step of the two agents (R16, R64; log 6). -/
def step (s : State) : Host.Outcome State Fault Refusal :=
  match s.hostTurns with
  | [] => coreStep s
  | .core :: ts => coreStep { s with hostTurns := ts }
  | .act h :: ts => hostAct h { s with hostTurns := ts }

/-- `s` with the instruction whose bits are `w` where the next step fetches, so that the next step runs it (log 10). -/
def State.withFetchWord (s : State) (nbits w : Nat) : State := s.placeDescriptor (layoutWord nbits w)

end Sys2Proof.Machine
end

