-- ==== Sys2Proof/Safety.lean ====
section
/-!
DEFINITION. The terms claims use: the invariants of a machine (spec 10_state.md R23, R31 to R34; 20_memory.md R37), the bytes a
command stores to, what the command table says of operands and results (30_encoding.md R59), sequences of commands, ranks of live
values (42_bitmap_lut.md), and the items of a packed table and of a payload (43_huffman.md R104, R105) as a producer writes them.
No step uses them.
-/

namespace Sys2Proof.Machine

/-- DMEM is in its canonical form and lists no address outside `0 .. DMEM_SIZE - 1` (R37). -/
abbrev State.MemOk (s : State) : Prop := s.dmem.wf = true ∧ s.dmem.below s.params.dmemSize = true

/-- `0 <= BR_POS <= BR_N` (R33), and the stream's bytes are inside DMEM (R75). -/
abbrev State.ReaderOk (s : State) : Prop :=
  s.reader.pos.toNat ≤ s.reader.n.toNat ∧ s.inRange s.reader.base.toNat (ceil8 s.reader.n.toNat)

/-- `0 <= BW_POS <= BW_CAP` (R34), and the writer's bytes are inside DMEM (R81). -/
abbrev State.WriterOk (s : State) : Prop :=
  s.writer.pos.toNat ≤ s.writer.cap.toNat ∧ s.inRange s.writer.base.toNat (ceil8 s.writer.cap.toNat)

/-- The error registers agree with the sequencer: in the error state they hold an error of its class, in every other state they
are cleared (R23, R24). -/
abbrev State.ErrOk (s : State) : Prop :=
  match s.seq, s.err.code with
  | .error c, some e => e.cls = c
  | .error _, none => False
  | _, _ => s.err = ⟨none, 0, 0⟩

/-- The invariant of the machine's registers and memory. -/
abbrev State.Inv (s : State) : Prop := s.params.Valid ∧ s.MemOk ∧ s.ReaderOk ∧ s.WriterOk ∧ s.ErrOk

/-- A pack: length at most 58, and `code >> length == 0` whenever the length is not 0 (R31). -/
abbrev PackOk (p : BitVec 64) : Prop :=
  packLen p ≤ Config.maxCodeLen ∧ (0 < packLen p → packCode p >>> packLen p = 0)

/-- A decoding-table entry (R32): a short code of 1 to 14 bits, or a list of symbols that is not empty. -/
abbrev DecEntryOk : DecEntry → Prop
  | .empty => True
  | .short l s => 1 ≤ l ∧ l ≤ decBits ∧ s ≤ Config.maxSymbol
  | .long lits => lits ≠ [] ∧ ∀ d ∈ lits, d ≤ Config.maxSymbol

/-- The invariant of the internal tables: their canonical form, and what R31 and R32 say of `PACK` and `DEC` while they are
valid (`VALID.HUFV`). -/
def State.TablesOk (s : State) : Prop :=
  s.bitmap.wf bitmapBits = true ∧ s.lut.wf lutBits = true ∧
    (s.valid.hufv = true →
      s.pack.wf packBits = true ∧ s.dec.wf decBits = true ∧
        (∀ i, PackOk (packAt s.pack i)) ∧ ∀ i, DecEntryOk (s.dec.get decBits i))

/-- The commands `is` executed one after another from `s` (R69), stopping at an outcome that is not a next state. It is for claims
about sequences of commands, which fetch plays no part in. -/
def execAll : List Instr → State → Outcome
  | [], s => .next s
  | i :: is, s =>
    match exec i s with
    | .next t => execAll is t
    | o => o

/-- Address `a` is one of the `n` bytes from `b` on. -/
abbrev InBytes (a b n : Nat) : Prop := b ≤ a ∧ a < b + n

/-- Address `a` is a byte of one of the samples a wavelet command writes (R124, R125). -/
abbrev Plane.WritesByte (p : Plane) (a : Nat) : Prop :=
  ∃ x y, p.Writes x y ∧ InBytes a (p.addr x y) 2

/-- Address `a` is one of the bytes the command may store to in state `s`, by the expressions its meaning uses. -/
def Stores (i : Instr) (s : State) (a : Nat) : Prop :=
  match i with
  | .brRead k dst => InBytes a (operandU dst) (ceil8 k.toNat)
  | .bwInit base capbits => InBytes a (operandU base) (ceil8 (operandU capbits))
  | .bwWrite k _ _ =>
    InBytes a (writeBitsRange s.writer.base.toNat s.writer.pos.toNat k.toNat).1
      (writeBitsRange s.writer.base.toNat s.writer.pos.toNat k.toNat).2
  | .bmStore dst min max => InBytes a (operandU dst) (operandU max - operandU min + 1)
  | .lutApply base count => InBytes a (operandU base) (2 * operandU count)
  | .hufDecode _ _ dst nout => InBytes a (operandU dst) (2 * operandU nout)
  | .wavFwd _ base nx ny ox oy => (planeOf base nx ny ox oy).WritesByte a
  | .wavInv _ base nx ny ox oy => (planeOf base nx ny ox oy).WritesByte a
  | .nop => False
  | .endChain => False
  | .brInit _ _ => False
  | .brSeek _ => False
  | .brRemain => False
  | .brAlign => False
  | .bwIndex => False
  | .bwRemain => False
  | .bwAlign => False
  | .bmClear => False
  | .bmSet _ => False
  | .bmUnset _ => False
  | .bmHas _ => False
  | .bmScan _ _ => False
  | .bmBounds => False
  | .bmLoad _ _ _ => False
  | .lutFwd => False
  | .lutRev => False
  | .lutRead _ => False
  | .hufPackRead _ => False
  | .hufDecRead _ _ => False

/-- The four programmer checks of `HUF_DECODE` pass (R107). -/
def HufChecked (s : State) (src len dst nout : Word) : Prop :=
  dst.toNat % 2 = 0 ∧ s.inRange src.toNat len.toNat ∧ s.inRange dst.toNat (2 * nout.toNat) ∧
    ¬ Overlap src.toNat len.toNat dst.toNat (2 * nout.toNat)

/-- The descriptor at `a`: `Wi = MemRead(a + 4*i, 4)` (R56). -/
def descriptorAt (m : Memory) (a : Nat) : Descriptor :=
  ⟨u32 (m.readLE a 4), u32 (m.readLE (a + 4) 4), u32 (m.readLE (a + 8) 4), u32 (m.readLE (a + 12) 4),
    u32 (m.readLE (a + 16) 4), u32 (m.readLE (a + 20) 4), u32 (m.readLE (a + 24) 4), u32 (m.readLE (a + 28) 4)⟩

/-- How many of the operand words A, B, C, D, E a command uses (R59). -/
def operandWords : Instr → Nat
  | .nop => 0
  | .endChain => 0
  | .brInit _ _ => 2
  | .brRead _ _ => 2
  | .brSeek _ => 1
  | .brRemain => 0
  | .brAlign => 0
  | .bwInit _ _ => 2
  | .bwWrite _ _ _ => 3
  | .bwIndex => 0
  | .bwRemain => 0
  | .bwAlign => 0
  | .bmClear => 0
  | .bmSet _ => 1
  | .bmUnset _ => 1
  | .bmHas _ => 1
  | .bmScan _ _ => 2
  | .bmBounds => 0
  | .bmLoad _ _ _ => 3
  | .bmStore _ _ _ => 3
  | .lutFwd => 0
  | .lutRev => 0
  | .lutApply _ _ => 2
  | .lutRead _ => 1
  | .hufDecode _ _ _ _ => 4
  | .hufPackRead _ => 1
  | .hufDecRead _ _ => 2
  | .wavFwd _ _ _ _ _ _ => 5
  | .wavInv _ _ _ _ _ _ => 5

/-- How many of `RES0`, `RES1`, `RES2`, `RES3` a command writes (R59). -/
def resultRegs : Instr → Nat
  | .nop => 0
  | .endChain => 0
  | .brInit _ _ => 0
  | .brRead _ _ => 1
  | .brSeek _ => 0
  | .brRemain => 1
  | .brAlign => 1
  | .bwInit _ _ => 0
  | .bwWrite _ _ _ => 0
  | .bwIndex => 1
  | .bwRemain => 1
  | .bwAlign => 1
  | .bmClear => 0
  | .bmSet _ => 0
  | .bmUnset _ => 0
  | .bmHas _ => 1
  | .bmScan _ _ => 0
  | .bmBounds => 3
  | .bmLoad _ _ _ => 1
  | .bmStore _ _ _ => 1
  | .lutFwd => 1
  | .lutRev => 1
  | .lutApply _ _ => 0
  | .lutRead _ => 1
  | .hufDecode _ _ _ _ => 4
  | .hufPackRead _ => 4
  | .hufDecRead _ _ => 3
  | .wavFwd _ _ _ _ _ _ => 0
  | .wavInv _ _ _ _ _ _ => 0

/-- A piece of R87: `k` bits, the source they are written from and the place they are read back to. -/
structure Chunk where
  k : Word
  src : Word
  dst : Word
deriving DecidableEq, Repr

/-- `BW_INIT w, cap`, then `BW_WRITE k, src, ceil8(k)` for each chunk (R87). -/
def writeChain (w cap : Word) (cs : List Chunk) : List Instr :=
  .bwInit w cap :: cs.map fun c => .bwWrite c.k c.src (u32 (ceil8 c.k.toNat))

/-- `BR_INIT w, cap`, then `BR_READ k, dst` for each chunk (R87). -/
def readChain (w cap : Word) (cs : List Chunk) : List Instr :=
  .brInit w cap :: cs.map fun c => .brRead c.k c.dst

/-- `k` of the walks of R97 and R98 when they reach `v`: the number of live values below `v`. -/
def rank (bm : BitmapRam) (v : Nat) : Nat := (List.range v).countP (live bm)

/-- `v` in `n` bits, most significant first (R40). -/
def bitsOf (n v : Nat) : List Bool := (List.range n).map fun j => v.testBit (n - 1 - j)

/-- The bits `bs` stand in the stream at `base` from bit `q` on (R13). -/
def StreamIs (m : Memory) (base q : Nat) (bs : List Bool) : Prop :=
  ∀ i, i < bs.length → m.streamBit base (q + i) = bs.getD i false

/-- An item of the packed code-length table (R104). -/
inductive TableItem where
  | length (v : Nat)
  | shortRun (n : Nat)
  | longRun (f : Nat)
deriving DecidableEq, Repr

/-- The values an item can carry (R104). -/
def TableItem.Ok : TableItem → Prop
  | .length v => v ≤ 58
  | .shortRun n => 2 ≤ n ∧ n ≤ 5
  | .longRun f => f ≤ 255

/-- The bits of an item (R104). -/
def TableItem.bits : TableItem → List Bool
  | .length v => bitsOf 6 v
  | .shortRun n => bitsOf 6 (n + 57)
  | .longRun f => bitsOf 6 63 ++ bitsOf 8 f

/-- The symbols an item covers (R104). -/
def TableItem.covers : TableItem → Nat
  | .length _ => 1
  | .shortRun n => n
  | .longRun f => f + 6

/-- The symbols the items cover. -/
def tableCovers (items : List TableItem) : Nat := (items.map TableItem.covers).sum

/-- The symbols of non-zero length of a table whose first symbol is `im`, with their lengths (R104). -/
def tableLengths : List TableItem → Nat → List (Nat × Nat)
  | [], _ => []
  | it :: items, im =>
    let rest := tableLengths items (im + it.covers)
    match it with
    | .length v => if v = 0 then rest else (im, v) :: rest
    | .shortRun _ => rest
    | .longRun _ => rest

/-- An item of a payload (R105): a literal symbol, or the escape with its count. -/
inductive PayloadItem where
  | literal (s : Nat)
  | again (n : Nat)
deriving DecidableEq, Repr

/-- The symbol whose code an item begins with (R105). -/
def PayloadItem.symbol (dMax : Nat) : PayloadItem → Nat
  | .literal s => s
  | .again _ => dMax

/-- The bits of an item under the codes of `packs` (R105). -/
def PayloadItem.bits (packs : PackRam) (dMax : Nat) (it : PayloadItem) : List Bool :=
  let p := packAt packs (it.symbol dMax)
  match it with
  | .literal _ => bitsOf (packLen p) (packCode p)
  | .again n => bitsOf (packLen p) (packCode p) ++ bitsOf 8 n

/-- The values an item can carry (R105). -/
def PayloadItem.Ok (dMax : Nat) : PayloadItem → Prop
  | .literal s => s < dMax
  | .again n => n ≤ 255

/-- The samples of a payload after the samples `out` (R105): a literal is one sample, an escape repeats the last sample. -/
def payloadSamples : List PayloadItem → List Sample → List Sample
  | [], out => out
  | .literal s :: items, out => payloadSamples items (out ++ [BitVec.ofNat 16 s])
  | .again n :: items, out => payloadSamples items (out ++ List.replicate n (out.getLastD 0))

/-- The block of `len` bytes at `src` has the header `h`, which passes the checks of R108. -/
def HufFramed (m : Memory) (src len : Nat) (h : HufHeader) : Prop :=
  20 ≤ len ∧ h = ⟨m.readLE src 4, m.readLE (src + 4) 4, m.readLE (src + 8) 4, m.readLE (src + 12) 4⟩ ∧
    h.dMin ≤ h.dMax ∧ h.dMax ≤ 65536 ∧ h.tableLength ≤ len - 20 ∧ h.payloadBits ≤ 8 * (len - 20 - h.tableLength)

/-- The table of the block at `src` stands in DMEM as the items `table`, which cover the symbols of the header and fill
`tableLength` bytes (R104). -/
def HufTabled (m : Memory) (src : Nat) (h : HufHeader) (table : List TableItem) : Prop :=
  (∀ it ∈ table, it.Ok) ∧ tableCovers table = h.dMax + 1 - h.dMin ∧ StreamIs m (src + 20) 0 (table.flatMap TableItem.bits) ∧
    ceil8 (table.flatMap TableItem.bits).length = h.tableLength

/-- One of the codes of `x` and `y` (symbols with their lengths) has at most 14 bits and is a prefix of the other, so that they
need the same entry of the decoding table (R111). -/
def Clash (packs : PackRam) (x y : Nat × Nat) : Prop :=
  min x.2 y.2 ≤ 14 ∧
    packCode (packAt packs x.1) >>> (x.2 - min x.2 y.2) = packCode (packAt packs y.1) >>> (y.2 - min x.2 y.2)

/-- The code of `x` (a symbol with its length) stands whole in the payload of `pbits` bits at `pb`, from bit `p` on. -/
def CodeAt (m : Memory) (pb pbits : Nat) (packs : PackRam) (p : Nat) (x : Nat × Nat) : Prop :=
  p + x.2 ≤ pbits ∧ StreamIs m pb p (bitsOf x.2 (packCode (packAt packs x.1)))

/-- The code of `x`, or its first 14 bits when it is longer, begins the 14 bits from `p` on, where the bits past the payload's end
are 0: the bits the decoding table is indexed with (R112). -/
def CodeIndexed (m : Memory) (pb pbits : Nat) (packs : PackRam) (p : Nat) (x : Nat × Nat) : Prop :=
  ∀ j, j < min x.2 14 →
    (decide (p + j < pbits) && m.streamBit pb (p + j)) = (bitsOf x.2 (packCode (packAt packs x.1))).getD j false

/-- No symbol with a code of more than 14 bits that comes before `s` has its code at `p`: the list search of R112 takes the first
symbol whose code matches and fits. -/
def NoEarlierLongCode (m : Memory) (pb pbits : Nat) (packs : PackRam) (ls : List (Nat × Nat)) (p s : Nat) : Prop :=
  ∀ y ∈ ls, 14 < y.2 → y.1 < s → ¬ CodeAt m pb pbits packs p y

/-- The payload of `pbits` bits at `pb` begins with the items `items` (R105): they begin with a literal, their symbols have codes,
their bits stand there, and where an item's code has more than 14 bits it is the first that matches and fits (R112). -/
def PayloadBegins (m : Memory) (pb pbits : Nat) (packs : PackRam) (ls : List (Nat × Nat)) (dMax : Nat) (items : List PayloadItem) :
    Prop :=
  (∀ n rest, items ≠ .again n :: rest) ∧
    (∀ it ∈ items, it.Ok dMax ∧ ∃ l, (it.symbol dMax, l) ∈ ls) ∧
    StreamIs m pb 0 (items.flatMap (PayloadItem.bits packs dMax)) ∧
    (items.flatMap (PayloadItem.bits packs dMax)).length ≤ pbits ∧
    ∀ before it after, items = before ++ it :: after → ∀ l, (it.symbol dMax, l) ∈ ls → 14 < l →
      NoEarlierLongCode m pb pbits packs ls (before.flatMap (PayloadItem.bits packs dMax)).length (it.symbol dMax)

end Sys2Proof.Machine
end

