-- ==== Sys2Proof/Certificates/Slice0/Obligations.lean ====
section
/-!
DEFINITION. The statements for the provers, in the order of the spec's files. Each docstring names the rule it formalises. `retire`
is the retire of R69 and `errorStep` the error step of R130, spelled out in `CommandRetiresOrStops` and `ErrorsArePrecise`. The
premise `hostRaced = false` says that the host has not written DMEM under the running chain, which 20_memory.md R55 forbids it
(log 8); what a command stores when it has is `CommandsStoreOnlyTheirBytes`.
-/

open Sys2Proof Sys2Proof.Machine

/-! ## The sequencer -/

/-- R71: `NOP` only retires; 32 zero bytes are a `NOP`, whatever the operand words are. -/
def Obligations.NopOnlyRetires : Prop :=
  (∀ s : State, exec .nop s = .next { s with cp := s.cp + 32, cmdCnt := s.cmdCnt + 1 }) ∧
    decode (List.replicate 32 0) = .ok (.nop, []) ∧
    ∀ d : Descriptor, d.w0 = 0 → decodeDescriptor d = .ok .nop

/-- R72: `END` retires and ends the chain done, and it is the only way a chain ends without error. -/
def Obligations.EndIsTheOnlyGoodEnd : Prop :=
  (∀ s : State, exec .endChain s = .next { s with cp := s.cp + 32, cmdCnt := s.cmdCnt + 1, seq := .done }) ∧
    (∀ s t : State, exec .endChain s = .next t → t.statusWord = if s.ie then 0x12 else 0x02) ∧
    ∀ (i : Instr) (s t : State), s.seq = .running → exec i s = .next t → t.seq = .done → i = .endChain

/-- R68, R69, R63, R64: what one step is. A step of a running chain whose descriptor decodes is `exec` of the command; a stopped
core steps to itself (log 5); around both, the step only takes the core's turn off the model's list of turns, and when the host's
turn is next the step is the host's action (log 6). -/
def Obligations.StepRunsTheDecodedCommand : Prop :=
  (∀ (s : State) (i : Instr) (rest : List Byte), s.seq = .running → s.cp.toNat % 4 = 0 →
    s.cp.toNat + 32 ≤ s.params.dmemSize → decode (fetchBytes s.dmem s.cp.toNat) = .ok (i, rest) →
    (s.hostTurns = [] → step s = exec i s) ∧
      ∀ ts, s.hostTurns = .core :: ts → step s = exec i { s with hostTurns := ts }) ∧
  (∀ s : State, s.seq ≠ .running →
    (s.hostTurns = [] → step s = .next s) ∧ ∀ ts, s.hostTurns = .core :: ts → step s = .next { s with hostTurns := ts }) ∧
  ∀ (s : State) (h : HostAction) (ts : List HostTurn), s.hostTurns = .act h :: ts → step s = hostAct h { s with hostTurns := ts }

/-- R68: the fetch checks in their order, the descriptor's eight words, and the command executed after a legal fetch. -/
def Obligations.FetchChecksInOrder : Prop :=
  ∀ s : State, s.seq = .running → s.hostTurns = [] →
    (s.cp.toNat % 4 ≠ 0 → step s = .next (s.errorStep .pAlign s.cp)) ∧
    (s.cp.toNat % 4 = 0 → s.params.dmemSize < s.cp.toNat + 32 → step s = .next (s.errorStep .pRange s.cp)) ∧
    (s.cp.toNat % 4 = 0 → s.cp.toNat + 32 ≤ s.params.dmemSize → (descriptorAt s.dmem s.cp.toNat).legal = false →
      step s = .next (s.errorStep .pBadop (descriptorAt s.dmem s.cp.toNat).w0)) ∧
    (s.cp.toNat % 4 = 0 → s.cp.toNat + 32 ≤ s.params.dmemSize → (descriptorAt s.dmem s.cp.toNat).legal = true →
      ∃ i, decodeDescriptor (descriptorAt s.dmem s.cp.toNat) = .ok i ∧ step s = exec i s)

/-- R53: the fetch reads the descriptor's 32 bytes of DMEM and no others. -/
def Obligations.FetchReadsOnlyTheDescriptor : Prop :=
  ∀ (s : State) (m : Memory), (∀ a, InBytes a s.cp.toNat 32 → m.read a = s.dmem.read a) →
    ({ s with dmem := m } : State).fetch = s.fetch

/-- R69: from a state of the invariant every command either retires or takes the error step; there is no third outcome. -/
def Obligations.CommandRetiresOrStops : Prop :=
  ∀ (i : Instr) (s : State), s.Inv → s.seq = .running →
    ∃ t, exec i s = .next t ∧
      ((t.cp = s.cp + 32 ∧ t.cmdCnt = s.cmdCnt + 1 ∧ t.err = s.err ∧ t.seq = if i = .endChain then .done else .running) ∨
        (t.cp = s.cp ∧ t.cmdCnt = s.cmdCnt ∧ ∃ e info, t.seq = .error e.cls ∧ t.err = ⟨some e, info, s.cp⟩))

/-- R130: an error stops the chain, records its class, code, information word and address, and changes nothing else; only a
`HUF_DECODE` that has passed its programmer checks has written its own state (R114). -/
def Obligations.ErrorsArePrecise : Prop :=
  (∀ (s : State) (e : ErrCode) (info : Word),
      s.errorStep e info = { s with seq := .error e.cls, err := ⟨some e, info, s.cp⟩ }) ∧
    ∀ (i : Instr) (s t : State) (c : ErrClass), s.dmem.wf = true → s.seq = .running → exec i s = .next t → t.seq = .error c →
      ∃ e info, t.seq = .error e.cls ∧ t.err = ⟨some e, info, s.cp⟩ ∧ t.cp = s.cp ∧ t.cmdCnt = s.cmdCnt ∧ t.res = s.res ∧
        (t = s.errorStep e info ∨
          ∃ src len dst nout, i = .hufDecode src len dst nout ∧ HufChecked s src len dst nout ∧
            t = { s with
              seq := t.seq, err := t.err, valid := { s.valid with hufv := false }, pack := t.pack, dec := t.dec, dmem := t.dmem,
              freeCtr := t.freeCtr } ∧
            ∀ a, ¬ InBytes a dst.toNat (2 * nout.toNat) → t.dmem.read a = s.dmem.read a)

/-- The model's own stop (log 13): no command is refused, and a command faults only as a `BR_READ` or a `BW_WRITE` on a stream that is
not inside DMEM, which the invariant rules out. -/
def Obligations.OnlyStrayStreamsFault : Prop :=
  (∀ (i : Instr) (s : State) (r : Refusal), exec i s ≠ .refused r) ∧
  (∀ (i : Instr) (s : State) (r : Fault), exec i s = .fault r →
    (∃ k dst, i = .brRead k dst ∧ r = .streamOutsideDmem s.reader.base ∧
      ¬ s.inRange s.reader.base.toNat (ceil8 s.reader.n.toNat)) ∨
    ∃ k src srclen, i = .bwWrite k src srclen ∧ r = .streamOutsideDmem s.writer.base ∧
      ¬ s.inRange s.writer.base.toNat (ceil8 s.writer.cap.toNat)) ∧
  ∀ (i : Instr) (s : State) (r : Fault), s.Inv → exec i s ≠ .fault r

/-- R70, which the spec derives from R68, R69 and R44: every chain stops within `DMEM_SIZE / 32 + 1` steps. -/
def Obligations.EveryChainStops : Prop :=
  ∀ s : State, s.Inv → s.seq = .running → s.hostTurns = [] →
    ∃ k t, k ≤ s.params.dmemSize / 32 + 1 ∧ Sys2Proof.core.run k s = .next t ∧ State.seq t ≠ .running

/-! ## The host -/

/-- R65, R66, R67: what a write of `CTRL` does, in the order `SRST`, `IE`, `CLR`, `GO`, the last two only on a stopped core. -/
def Obligations.CtrlWriteActsInOrder : Prop :=
  ∀ (s : State) (v : Word),
    (v.getLsbD 3 = true → hostAct (.regWrite 0x04 4 v) s = .next s.softReset) ∧
    (v.getLsbD 3 = false → s.busy = true → hostAct (.regWrite 0x04 4 v) s = .next { s with ie := v.getLsbD 1 }) ∧
    (v.getLsbD 3 = false → s.busy = false → v.getLsbD 2 = false → v.getLsbD 0 = false →
      hostAct (.regWrite 0x04 4 v) s = .next { s with ie := v.getLsbD 1 }) ∧
    (v.getLsbD 3 = false → s.busy = false → v.getLsbD 2 = true → v.getLsbD 0 = false →
      hostAct (.regWrite 0x04 4 v) s = .next { s with ie := v.getLsbD 1, seq := .idle, err := ⟨none, 0, 0⟩ }) ∧
    (v.getLsbD 3 = false → s.busy = false → v.getLsbD 0 = true →
      hostAct (.regWrite 0x04 4 v) s =
        .next { s with ie := v.getLsbD 1, seq := .running, err := ⟨none, 0, 0⟩, cmdCnt := 0, hostRaced := false })

/-- R140: a soft reset, in any state, puts every register, flag and field back to its reset value and keeps DMEM. -/
def Obligations.SoftResetKeepsDmem : Prop :=
  ∀ (s : State) (v : Word), v.getLsbD 3 = true →
    ∃ t, hostAct (.regWrite 0x04 4 v) s = .next t ∧ t.dmem = s.dmem ∧ t.seq = .idle ∧ t.irq = false ∧
      t.valid = ⟨false, false, false, false⟩ ∧ ∀ offset, t.register offset = (State.resetWith s.params).register offset

/-- R36: the value of every register after reset, for every value of the parameters, and the core idle. The model's own: DMEM lists
nothing, so that it reads 0 (log 3); the idle core's step leaves the state as it is (log 5); `State.reset` has the parameters of
Config (log 1, log 2). -/
def Obligations.ResetRegisterValues : Prop :=
  ∀ p : Params,
    (∀ offset, (State.resetWith p).register offset = if offset = 0 then p.implId else if offset = 0x54 then u32 p.dmemSize else 0) ∧
      (State.resetWith p).seq = .idle ∧ (State.resetWith p).irq = false ∧
      (State.resetWith p).valid = ⟨false, false, false, false⟩ ∧ (State.resetWith p).dmem = [] ∧ step (State.resetWith p) = .next (State.resetWith p) ∧
      State.reset = State.resetWith Config.params

/-- R19, R20, R47, R55: the register block as the host sees it: what each offset reads, that a read changes nothing in the core,
which writes are ignored, and the block's place in the host's map where it does not collide with the DMEM port (log 14). -/
def Obligations.RegisterBlockAccesses : Prop :=
  ∀ (s : State) (offset : Nat) (v : Word), offset % 4 = 0 → offset < 256 →
    hostAct (.regRead offset 4) s = .next { s with hostData := s.register offset } ∧
    (0x58 ≤ offset → s.register offset = 0) ∧
    (offset ≠ 0x04 → offset ≠ 0x0C → hostAct (.regWrite offset 4 v) s = .next s) ∧
    (s.busy = true → hostAct (.regWrite 0x0C 4 v) s = .next s) ∧
    (s.busy = false → hostAct (.regWrite 0x0C 4 v) s = .next { s with cp := v }) ∧
    ((s.params.regHostBase + 256 ≤ s.params.dmemHostBase ∨ s.params.dmemHostBase + s.params.dmemSize ≤ s.params.regHostBase) →
      hostAct (.busRead (s.params.regHostBase + offset) 4) s = .next { s with hostData := s.register offset } ∧
        hostAct (.busWrite (s.params.regHostBase + offset) 4 v) s = hostAct (.regWrite offset 4 v) s) ∧
    [0x00, 0x04, 0x0C, 0x14, 0x18, 0x1C, 0x20, 0x24, 0x28, 0x2C].map s.register =
      [s.params.implId, if s.ie then 2 else 0, s.cp, s.err.info, s.err.cp, s.cmdCnt, s.res.r0, s.res.r1, s.res.r2, s.res.r3] ∧
    [0x38, 0x3C, 0x40, 0x48, 0x4C, 0x50, 0x54].map s.register =
      [s.reader.base, s.reader.n, s.reader.pos, s.writer.base, s.writer.cap, s.writer.pos, u32 s.params.dmemSize] ∧
    (s.register 0x30).toNat = s.lutMax.toNat ∧
    (s.register 0x34).toNat =
      s.valid.bmv.toNat + 2 * s.valid.lutv.toNat + 4 * s.valid.lutk.toNat + 8 * s.valid.hufv.toNat ∧
    (s.register 0x44).toNat = s.reader.ovr.toNat

/-- R23, R127, R132: the bits of `STATUS`, which also say that at most one of `BUSY`, `DONE` and `ERR` is 1, that `ECLASS` is the
error's class, and that `IRQ` is the level `IE & (DONE | ERR)`. -/
def Obligations.StatusBits : Prop :=
  ∀ s : State,
    ((s.register 0x08).getLsbD 0 = true ↔ s.seq = .running) ∧
    ((s.register 0x08).getLsbD 1 = true ↔ s.seq = .done) ∧
    ((s.register 0x08).getLsbD 2 = true ↔ ∃ c, s.seq = .error c) ∧
    ((s.register 0x08).getLsbD 3 = true ↔ s.seq = .error .programmer) ∧
    ((s.register 0x08).getLsbD 4 = true ↔ s.ie = true ∧ (s.seq = .done ∨ ∃ c, s.seq = .error c)) ∧
    ∀ n, 5 ≤ n → (s.register 0x08).getLsbD n = false

/-- R24, R127, R128: `ERRCODE` reads 0 for no error, else the error's number, which is that of the table of R128 and tells the errors
apart; its range is that of the error's class. -/
def Obligations.ErrorCodesTellErrorsApart : Prop :=
  (∀ s : State, s.err.code = none → s.register 0x10 = 0) ∧
  (∀ (s : State) (e : ErrCode), s.err.code = some e → (s.register 0x10).toNat = e.number.toNat ∧ s.register 0x10 ≠ 0) ∧
  [ErrCode.pBadop, .pAlign, .pRange, .pOverlap, .pState, .pValue, .pNegk, .pSrc, .pCap, .pSeek, .pGeom].map (·.number.toNat) =
    [0x01, 0x02, 0x03, 0x04, 0x05, 0x06, 0x07, 0x08, 0x09, 0x0A, 0x0B] ∧
  [ErrCode.fBmBounds, .fHufFrame, .fHufHdr, .fHufTable, .fHufTableRun, .fHufTableLen, .fHufPbits, .fHufCode, .fHufOverlap, .fHufEmpty,
      .fHufLongmiss, .fHufTrunc, .fHufRleNoprev, .fHufToomuch, .fHufNotenough].map (·.number.toNat) =
    [0x40, 0x41, 0x42, 0x43, 0x44, 0x45, 0x46, 0x47, 0x48, 0x49, 0x4A, 0x4B, 0x4C, 0x4D, 0x4E] ∧
  (∀ e e' : ErrCode, e.number = e'.number → e = e') ∧
  ∀ e : ErrCode, (e.cls = .programmer ↔ 0x01 ≤ e.number.toNat ∧ e.number.toNat ≤ 0x0B) ∧
    (e.cls = .format ↔ 0x40 ≤ e.number.toNat ∧ e.number.toNat ≤ 0x4E)

/-- R55, R39, R48: the DMEM port of a stopped core: a write stores its bytes little-endian and no others, a read returns what is
stored. That the bytes are the low ones of a 32-bit value, and that a read has zeros above them, is the model's choice (log 17).
The port stands at its place in the host's map where the two windows are apart (log 14). -/
def Obligations.DmemPortOfAStoppedCore : Prop :=
  (∀ (s : State) (a n : Nat) (v : Word), s.dmem.wf = true → s.busy = false → n = 1 ∨ n = 2 ∨ n = 4 →
    a + n ≤ s.params.dmemSize →
    hostAct (.memRead a n) s = .next { s with hostData := u32 (s.dmem.readLE a n) } ∧
    ∃ m, hostAct (.memWrite a n v) s = .next { s with dmem := m } ∧
      (∀ x, m.read x = if InBytes x a n then v.extractLsb' (8 * (x - a)) 8 else s.dmem.read x) ∧
      m.readLE a n = v.toNat % 256 ^ n) ∧
  ∀ (s : State) (a n : Nat) (v : Word), a < s.params.dmemSize →
    s.params.regHostBase + 256 ≤ s.params.dmemHostBase ∨ s.params.dmemHostBase + s.params.dmemSize ≤ s.params.regHostBase →
    hostAct (.busRead (s.params.dmemHostBase + a) n) s = hostAct (.memRead a n) s ∧
      hostAct (.busWrite (s.params.dmemHostBase + a) n v) s = hostAct (.memWrite a n v) s

/-- R55, U8, U9 as the model has them (log 7, log 8): a host access to DMEM under a running chain returns or leaves free values, in
the bytes it targets and nowhere else, and a write marks the chain. -/
def Obligations.DmemPortOfARunningCore : Prop :=
  ∀ (s : State) (a n : Nat) (v : Word), s.dmem.wf = true → s.busy = true → n = 1 ∨ n = 2 ∨ n = 4 →
    a + n ≤ s.params.dmemSize →
    (∃ w, hostAct (.memRead a n) s = .next { s with hostData := w, freeCtr := s.freeCtr + 1 }) ∧
    ∃ m, hostAct (.memWrite a n v) s = .next { s with dmem := m, hostRaced := true, freeCtr := s.freeCtr + 1 } ∧
      ∀ x, ¬ InBytes x a n → m.read x = s.dmem.read x

/-! ## Whole-machine rules -/

/-- R46, R47, R114: a command stores to the bytes `Stores` names for it and to no others, whether it succeeds or fails, and whether
or not the host has written under the chain (R55; log 8). The bytes of a wavelet command are those of the samples its scales touch
(R123, R124, R125), by the level bound and the odd column and line that the spec adopts from general knowledge (log 16). -/
def Obligations.CommandsStoreOnlyTheirBytes : Prop :=
  ∀ (i : Instr) (s t : State), s.dmem.wf = true → exec i s = .next t →
    ∀ a, ¬ Stores i s a → t.dmem.read a = s.dmem.read a

/-- R27 to R34: which commands write `LUTMAX`, the tables, the flags of `VALID`, the BitReader and the BitWriter; that no command
clears `BMV` or `LUTV`; and that no command changes the parameters, `IE` or the model's turns. -/
def Obligations.StateHasItsOwnWriters : Prop :=
  ∀ (i : Instr) (s t : State), exec i s = .next t →
    t.params = s.params ∧ t.ie = s.ie ∧ t.hostTurns = s.hostTurns ∧
    (i ≠ .lutFwd → i ≠ .lutRev → t.lutMax = s.lutMax ∧ t.lut = s.lut ∧ t.valid.lutv = s.valid.lutv ∧ t.valid.lutk = s.valid.lutk) ∧
    ((∀ src len dst nout, i ≠ .hufDecode src len dst nout) →
      t.pack = s.pack ∧ t.dec = s.dec ∧ t.valid.hufv = s.valid.hufv) ∧
    (i ≠ .bmClear → (∀ src min max, i ≠ .bmLoad src min max) → t.valid.bmv = s.valid.bmv) ∧
    ((∀ v, i ≠ .bmSet v) → (∀ v, i ≠ .bmUnset v) → (∀ base count, i ≠ .bmScan base count) → i ≠ .bmClear →
      (∀ src min max, i ≠ .bmLoad src min max) → t.bitmap = s.bitmap) ∧
    (s.valid.bmv = true → t.valid.bmv = true) ∧ (s.valid.lutv = true → t.valid.lutv = true) ∧
    (t.reader ≠ s.reader → (∃ base nbits, i = .brInit base nbits) ∨ (∃ k dst, i = .brRead k dst) ∨ (∃ p, i = .brSeek p) ∨ i = .brAlign) ∧
    (t.writer ≠ s.writer → (∃ base capbits, i = .bwInit base capbits) ∨ (∃ k src srclen, i = .bwWrite k src srclen) ∨ i = .bwAlign)

/-- R26: the result registers are written only by the commands that name them, only when they complete without error, and neither
`GO` nor `CLR` changes them. -/
def Obligations.ResultRegistersHaveTheirWriters : Prop :=
  (∀ (i : Instr) (s t : State), exec i s = .next t →
    (resultRegs i < 1 → t.res.r0 = s.res.r0) ∧ (resultRegs i < 2 → t.res.r1 = s.res.r1) ∧
    (resultRegs i < 3 → t.res.r2 = s.res.r2) ∧ (resultRegs i < 4 → t.res.r3 = s.res.r3) ∧
    (s.seq = .running → (∃ c, t.seq = .error c) → t.res = s.res)) ∧
  ∀ (s : State) (v : Word), v.getLsbD 3 = false →
    ∃ t, hostAct (.regWrite 0x04 4 v) s = .next t ∧ t.res = s.res

/-- Every step keeps the machine's invariant: DMEM canonical and inside `DMEM_SIZE` (R37), the cursors within their streams and the
streams within DMEM (R33, R34), the error registers in agreement with the sequencer (R23, R24). -/
def Obligations.StepKeepsTheInvariant : Prop :=
  ∀ s s' : State, s.Inv → step s = .next s' → s'.Inv

/-- Every step keeps the tables' invariant: canonical tables, and while `HUFV` is 1 the pack invariant of R31 and the entry forms of
R32. -/
def Obligations.StepKeepsTheTables : Prop :=
  ∀ s s' : State, s.TablesOk → step s = .next s' → s'.TablesOk

/-- The two invariants hold after reset, for every legal value of the parameters. -/
def Obligations.ResetMeetsTheInvariants : Prop :=
  ∀ p : Params, p.Valid → (State.resetWith p).Inv ∧ (State.resetWith p).TablesOk

/-! ## The encoding -/

/-- R56, R57, R59, R62: decoding an encoded well-formed command gives it back, every operand at every value, with the bytes after
its descriptor. -/
def Obligations.DecodeOfEncode : Prop :=
  ∀ (i : Instr) (rest : List Byte), i.wellFormed = true → decode (encode i ++ rest) = .ok (i, rest)

/-- R60: exactly the descriptors that meet none of the four conditions are commands, and a chain that reaches another one ends with
`P_BADOP` and its control word. -/
def Obligations.ExactlyLegalDescriptorsDecode : Prop :=
  (∀ d : Descriptor,
    (∃ i, decodeDescriptor d = .ok i) ↔
      ¬ (d.opc ∉ definedOpcodes ∨ d.rsv ≠ 0 ∨ (d.wm ≠ 0 ∧ d.opc ≠ 0x40 ∧ d.opc ≠ 0x41) ∨ (d.wm = 3 ∧ (d.opc = 0x40 ∨ d.opc = 0x41)))) ∧
  (∀ n : Nat, n < 256 → (n ∉ definedOpcodes ↔
    (0x02 ≤ n ∧ n ≤ 0x0F) ∨ (0x15 ≤ n ∧ n ≤ 0x17) ∨ (0x1D ≤ n ∧ n ≤ 0x1F) ∨ (0x2C ≤ n ∧ n ≤ 0x2F) ∨ (0x33 ≤ n ∧ n ≤ 0x3F) ∨
      (0x42 ≤ n ∧ n ≤ 0xFF))) ∧
  ∀ s : State, s.seq = .running → s.hostTurns = [] → s.cp.toNat % 4 = 0 → s.cp.toNat + 32 ≤ s.params.dmemSize →
    (∀ i, decodeDescriptor (descriptorAt s.dmem s.cp.toNat) ≠ .ok i) →
      step s = .next (s.errorStep .pBadop (descriptorAt s.dmem s.cp.toNat).w0)

/-- R58, R59: a decoded command is well formed, its encoding has the descriptor's control word, and its operands are the descriptor's
first words, as many as the command uses; the other words are ignored. -/
def Obligations.DecodeTakesTheUsedWords : Prop :=
  ∀ (d : Descriptor) (i : Instr), decodeDescriptor d = .ok i →
    i.wellFormed = true ∧ (encodeDescriptor i).w0 = d.w0 ∧
    (1 ≤ operandWords i → (encodeDescriptor i).a = d.a) ∧ (2 ≤ operandWords i → (encodeDescriptor i).b = d.b) ∧
    (3 ≤ operandWords i → (encodeDescriptor i).c = d.c) ∧ (4 ≤ operandWords i → (encodeDescriptor i).d = d.d) ∧
    (5 ≤ operandWords i → (encodeDescriptor i).e = d.e) ∧
    ∀ d' : Descriptor, d'.w0 = d.w0 → (1 ≤ operandWords i → d'.a = d.a) → (2 ≤ operandWords i → d'.b = d.b) →
      (3 ≤ operandWords i → d'.c = d.c) → (4 ≤ operandWords i → d'.d = d.d) → (5 ≤ operandWords i → d'.e = d.e) →
      decodeDescriptor d' = .ok i

/-- R56, R57, R59: words written out from the encoding tables decode to the commands they stand for (bits numbered as the opcode
table numbers them); the bytes of the example of R62 too. -/
def Obligations.SampleWordsDecode : Prop :=
  decodeTableWord 32 0x00000001 = some .endChain ∧
  decodeTableWord 96 0x00000010_00000100_00000010 = some (.brInit 0x100 16) ∧
  decodeTableWord 128 0x00000001_00000010_00000006_00000019 = some (.bwWrite 6 0x10 1) ∧
  decodeTableWord 64 0x0000FFFF_00000021 = some (.bmSet 0xFFFF) ∧
  decodeTableWord 96 0x00000004_00000400_0000002A = some (.lutApply 0x400 4) ∧
  decodeTableWord 192 0x00000002_00000001_00000002_00000003_00000400_00000240 = some (.wavFwd .auto 0x400 3 2 1 2) ∧
  decode ([0x30, 0, 0, 0, 0, 1, 0, 0, 0x39, 0, 0, 0, 0, 4, 0, 0, 0x0C, 0, 0, 0] ++ List.replicate 12 0) =
    .ok (.hufDecode 0x100 57 0x400 12, [])

/-! ## The bit I/O engine -/

/-- R75: `BR_INIT`. -/
def Obligations.BrInitMakesAReader : Prop :=
  ∀ (base nbits : Word) (s : State),
    (s.inRange base.toNat (ceil8 nbits.toNat) →
      exec (.brInit base nbits) s = .next ({ s with reader := ⟨base, nbits, 0, false⟩ } : State).retire) ∧
    (¬ s.inRange base.toNat (ceil8 nbits.toNat) → exec (.brInit base nbits) s = .next (s.errorStep .pRange base))

/-- R76: `BR_READ`: its three errors in their order, and its effect: the bits it writes, every other byte, the cursor, `OVR` and
`RES0`, and nothing else. -/
def Obligations.BrReadTakesBits : Prop :=
  ∀ (k dst : Word) (s : State),
    (k.toInt < 0 → exec (.brRead k dst) s = .next (s.errorStep .pNegk k)) ∧
    (0 ≤ k.toInt → ¬ s.inRange dst.toNat (ceil8 k.toNat) → exec (.brRead k dst) s = .next (s.errorStep .pRange dst)) ∧
    (0 ≤ k.toInt → s.inRange dst.toNat (ceil8 k.toNat) →
      Overlap dst.toNat (ceil8 k.toNat) s.reader.base.toNat (ceil8 s.reader.n.toNat) →
      exec (.brRead k dst) s = .next (s.errorStep .pOverlap dst)) ∧
    (0 ≤ k.toInt → s.inRange dst.toNat (ceil8 k.toNat) →
      ¬ Overlap dst.toNat (ceil8 k.toNat) s.reader.base.toNat (ceil8 s.reader.n.toNat) →
      s.ReaderOk → s.dmem.wf = true → s.hostRaced = false →
      ∃ (m : Memory) (r : BitReader),
        exec (.brRead k dst) s =
          .next ({ s with
            dmem := m, reader := r, res := { s.res with r0 := u32 (min k.toNat (s.reader.n.toNat - s.reader.pos.toNat)) } } : State).retire ∧
        (∀ q, q < 8 * ceil8 k.toNat → m.streamBit dst.toNat q =
          (decide (q < min k.toNat (s.reader.n.toNat - s.reader.pos.toNat)) &&
            s.dmem.streamBit s.reader.base.toNat (s.reader.pos.toNat + q))) ∧
        (∀ a, ¬ InBytes a dst.toNat (ceil8 k.toNat) → m.read a = s.dmem.read a) ∧
        r.base = s.reader.base ∧ r.n = s.reader.n ∧ r.pos.toNat = min (s.reader.pos.toNat + k.toNat) s.reader.n.toNat ∧
        r.ovr = (s.reader.ovr || decide (s.reader.n.toNat - s.reader.pos.toNat < k.toNat)))

/-- R77, R78, R79: `BR_SEEK`, `BR_REMAIN` and `BR_ALIGN`. -/
def Obligations.BrCursorCommands : Prop :=
  ∀ (s : State) (i : Word),
    (s.reader.n.toNat < i.toNat → exec (.brSeek i) s = .next (s.errorStep .pSeek i)) ∧
    (i.toNat ≤ s.reader.n.toNat → exec (.brSeek i) s = .next ({ s with reader := { s.reader with pos := i } } : State).retire) ∧
    (s.ReaderOk → ∃ w : Word, w.toNat = s.reader.n.toNat - s.reader.pos.toNat ∧
      exec .brRemain s = .next ({ s with res := { s.res with r0 := w } } : State).retire) ∧
    ∃ w p : Word, w.toNat = ceil8 s.reader.pos.toNat ∧ p.toNat = min (8 * ceil8 s.reader.pos.toNat) s.reader.n.toNat ∧
      exec .brAlign s =
        .next ({ s with reader := { s.reader with pos := p }, res := { s.res with r0 := w } } : State).retire

/-- R81: `BW_INIT`. -/
def Obligations.BwInitMakesAnEmptyWriter : Prop :=
  ∀ (base capbits : Word) (s : State), s.dmem.wf = true → s.hostRaced = false →
    (s.inRange base.toNat (ceil8 capbits.toNat) →
      ∃ m, exec (.bwInit base capbits) s = .next ({ s with dmem := m, writer := ⟨base, capbits, 0⟩ } : State).retire ∧
        ∀ a, m.read a = if InBytes a base.toNat (ceil8 capbits.toNat) then 0 else s.dmem.read a) ∧
    (¬ s.inRange base.toNat (ceil8 capbits.toNat) → exec (.bwInit base capbits) s = .next (s.errorStep .pRange base))

/-- R82: `BW_WRITE`: its five errors in their order, and its effect: exactly the `k` bits at the cursor, and the cursor. -/
def Obligations.BwWritePutsBits : Prop :=
  ∀ (k src srclen : Word) (s : State),
    (k.toInt < 0 → exec (.bwWrite k src srclen) s = .next (s.errorStep .pNegk k)) ∧
    (0 ≤ k.toInt → 8 * srclen.toNat < k.toNat → exec (.bwWrite k src srclen) s = .next (s.errorStep .pSrc k)) ∧
    (0 ≤ k.toInt → k.toNat ≤ 8 * srclen.toNat → ¬ s.inRange src.toNat srclen.toNat →
      exec (.bwWrite k src srclen) s = .next (s.errorStep .pRange src)) ∧
    (0 ≤ k.toInt → k.toNat ≤ 8 * srclen.toNat → s.inRange src.toNat srclen.toNat →
      s.writer.cap.toNat < s.writer.pos.toNat + k.toNat → exec (.bwWrite k src srclen) s = .next (s.errorStep .pCap k)) ∧
    (0 ≤ k.toInt → k.toNat ≤ 8 * srclen.toNat → s.inRange src.toNat srclen.toNat →
      s.writer.pos.toNat + k.toNat ≤ s.writer.cap.toNat →
      Overlap src.toNat (ceil8 k.toNat) s.writer.base.toNat (ceil8 s.writer.cap.toNat) →
      exec (.bwWrite k src srclen) s = .next (s.errorStep .pOverlap s.writer.base)) ∧
    (0 ≤ k.toInt → k.toNat ≤ 8 * srclen.toNat → s.inRange src.toNat srclen.toNat →
      s.writer.pos.toNat + k.toNat ≤ s.writer.cap.toNat →
      ¬ Overlap src.toNat (ceil8 k.toNat) s.writer.base.toNat (ceil8 s.writer.cap.toNat) →
      s.WriterOk → s.dmem.wf = true → s.hostRaced = false →
      ∃ m, exec (.bwWrite k src srclen) s =
          .next ({ s with dmem := m, writer := { s.writer with pos := s.writer.pos + k } } : State).retire ∧
        (∀ q, m.streamBit s.writer.base.toNat q =
          if s.writer.pos.toNat ≤ q ∧ q < s.writer.pos.toNat + k.toNat then s.dmem.streamBit src.toNat (q - s.writer.pos.toNat)
          else s.dmem.streamBit s.writer.base.toNat q) ∧
        ∀ a, ¬ InBytes a s.writer.base.toNat (ceil8 s.writer.cap.toNat) → m.read a = s.dmem.read a)

/-- R83, R84, R85: `BW_INDEX`, `BW_REMAIN` and `BW_ALIGN`. -/
def Obligations.BwCursorCommands : Prop :=
  ∀ s : State,
    exec .bwIndex s = .next ({ s with res := { s.res with r0 := s.writer.pos } } : State).retire ∧
    (s.WriterOk → ∃ w : Word, w.toNat = s.writer.cap.toNat - s.writer.pos.toNat ∧
      exec .bwRemain s = .next ({ s with res := { s.res with r0 := w } } : State).retire) ∧
    ∃ w p : Word, w.toNat = ceil8 s.writer.pos.toNat ∧ p.toNat = min (8 * ceil8 s.writer.pos.toNat) s.writer.cap.toNat ∧
      exec .bwAlign s =
        .next ({ s with writer := { s.writer with pos := p }, res := { s.res with r0 := w } } : State).retire

/-- R87, which the spec derives from R75, R76, R81 and R82: chunks written and read back in the same grouping come back, left-aligned
with zeros behind, and each read gives `RES0 = k`. The sources and the destinations lie in DMEM outside the writer's bytes, and the
destinations are apart from each other. -/
def Obligations.BitStreamsRoundTrip : Prop :=
  ∀ (s : State) (w cap : Word) (cs : List Chunk), s.Inv → s.hostRaced = false → s.inRange w.toNat (ceil8 cap.toNat) →
    (cs.map fun c => c.k.toNat).sum ≤ cap.toNat →
    (∀ c ∈ cs, 0 ≤ c.k.toInt ∧ s.inRange c.src.toNat (ceil8 c.k.toNat) ∧ s.inRange c.dst.toNat (ceil8 c.k.toNat) ∧
      ¬ Overlap c.src.toNat (ceil8 c.k.toNat) w.toNat (ceil8 cap.toNat) ∧
      ¬ Overlap c.dst.toNat (ceil8 c.k.toNat) w.toNat (ceil8 cap.toNat)) →
    cs.Pairwise (fun c c' => ¬ Overlap c.dst.toNat (ceil8 c.k.toNat) c'.dst.toNat (ceil8 c'.k.toNat)) →
    ∀ n, n ≤ cs.length →
      ∃ t, execAll (writeChain w cap cs ++ readChain w cap (cs.take n)) s = .next t ∧
        (∀ c ∈ (cs.take n).getLast?, t.res.r0 = c.k) ∧
        ∀ c ∈ cs.take n, ∀ q, q < 8 * ceil8 c.k.toNat →
          t.dmem.streamBit c.dst.toNat q = (decide (q < c.k.toNat) && s.dmem.streamBit c.src.toNat q)

/-! ## The bitmap and the LUT -/

/-- R89, R90, R91, R92: `BM_CLEAR`, `BM_SET`, `BM_UNSET` and `BM_HAS`. -/
def Obligations.BmBitCommands : Prop :=
  ∀ (s : State) (v : Word),
    (∃ bm, exec .bmClear s = .next ({ s with bitmap := bm, valid := { s.valid with bmv := true } } : State).retire ∧
      ∀ i, i < 8192 → bitmapByte bm i = 0) ∧
    (0xFFFF < v.toNat → exec (.bmSet v) s = .next (s.errorStep .pValue v) ∧ exec (.bmUnset v) s = .next (s.errorStep .pValue v) ∧
      exec (.bmHas v) s = .next (s.errorStep .pValue v)) ∧
    (v.toNat ≤ 0xFFFF → s.valid.bmv = false → exec (.bmSet v) s = .next (s.errorStep .pState 0) ∧
      exec (.bmUnset v) s = .next (s.errorStep .pState 0) ∧ exec (.bmHas v) s = .next (s.errorStep .pState 0)) ∧
    (v.toNat ≤ 0xFFFF → s.valid.bmv = true →
      (∃ bm, exec (.bmSet v) s = .next ({ s with bitmap := bm } : State).retire ∧
        ∀ u, u < 65536 → bitmapHas bm u = (decide (u = v.toNat) || bitmapHas s.bitmap u)) ∧
      (∃ bm, exec (.bmUnset v) s = .next ({ s with bitmap := bm } : State).retire ∧
        ∀ u, u < 65536 → bitmapHas bm u = (!decide (u = v.toNat) && bitmapHas s.bitmap u)) ∧
      exec (.bmHas v) s =
        .next ({ s with res := { s.res with r0 := if bitmapHas s.bitmap v.toNat then 1 else 0 } } : State).retire)

/-- R93: `BM_SCAN`. -/
def Obligations.BmScanSetsObservedValues : Prop :=
  ∀ (s : State) (base count : Word),
    (base.toNat % 2 ≠ 0 → exec (.bmScan base count) s = .next (s.errorStep .pAlign base)) ∧
    (base.toNat % 2 = 0 → ¬ s.inRange base.toNat (2 * count.toNat) → exec (.bmScan base count) s = .next (s.errorStep .pRange base)) ∧
    (base.toNat % 2 = 0 → s.inRange base.toNat (2 * count.toNat) → s.valid.bmv = false →
      exec (.bmScan base count) s = .next (s.errorStep .pState 0)) ∧
    (base.toNat % 2 = 0 → s.inRange base.toNat (2 * count.toNat) → s.valid.bmv = true →
      ∃ bm, exec (.bmScan base count) s = .next ({ s with bitmap := bm } : State).retire ∧
        ∀ u, u < 65536 → (bitmapHas bm u = true ↔
          bitmapHas s.bitmap u = true ∨ ∃ i, i < count.toNat ∧ (s.dmem.sample (base.toNat + 2 * i)).toNat = u))

/-- R94: `BM_BOUNDS`. -/
def Obligations.BmBoundsFindsTheEnds : Prop :=
  ∀ s : State,
    (s.valid.bmv = false → exec .bmBounds s = .next (s.errorStep .pState 0)) ∧
    (s.valid.bmv = true → (∀ i, i < 8192 → bitmapByte s.bitmap i = 0) →
      exec .bmBounds s = .next ({ s with res := ⟨0, 0, 1, s.res.r3⟩ } : State).retire) ∧
    (s.valid.bmv = true → (∃ i, i < 8192 ∧ bitmapByte s.bitmap i ≠ 0) →
      ∃ lo hi, lo < 8192 ∧ hi < 8192 ∧ bitmapByte s.bitmap lo ≠ 0 ∧ bitmapByte s.bitmap hi ≠ 0 ∧
        (∀ i, i < 8192 → bitmapByte s.bitmap i ≠ 0 → lo ≤ i ∧ i ≤ hi) ∧
        exec .bmBounds s = .next ({ s with res := ⟨u32 lo, u32 hi, 0, s.res.r3⟩ } : State).retire)

/-- R95: `BM_LOAD`. -/
def Obligations.BmLoadCopiesTheSlice : Prop :=
  ∀ (s : State) (src min max : Word),
    (max.toNat < min.toNat ∨ 8191 < max.toNat → exec (.bmLoad src min max) s = .next (s.errorStep .fBmBounds min)) ∧
    (min.toNat ≤ max.toNat → max.toNat ≤ 8191 → ¬ s.inRange src.toNat (max.toNat - min.toNat + 1) →
      exec (.bmLoad src min max) s = .next (s.errorStep .pRange src)) ∧
    (min.toNat ≤ max.toNat → max.toNat ≤ 8191 → s.inRange src.toNat (max.toNat - min.toNat + 1) →
      ∃ bm, exec (.bmLoad src min max) s =
          .next ({ s with
            bitmap := bm, valid := { s.valid with bmv := true }, res := { s.res with r0 := u32 (max.toNat - min.toNat + 1) } } : State).retire ∧
        ∀ i, i < 8192 → bitmapByte bm i =
          if min.toNat ≤ i ∧ i ≤ max.toNat then s.dmem.read (src.toNat + (i - min.toNat)) else 0)

/-- R96: `BM_STORE`. -/
def Obligations.BmStoreCopiesTheSlice : Prop :=
  ∀ (s : State) (dst min max : Word),
    (max.toNat < min.toNat ∨ 8191 < max.toNat → exec (.bmStore dst min max) s = .next (s.errorStep .pValue min)) ∧
    (min.toNat ≤ max.toNat → max.toNat ≤ 8191 → ¬ s.inRange dst.toNat (max.toNat - min.toNat + 1) →
      exec (.bmStore dst min max) s = .next (s.errorStep .pRange dst)) ∧
    (min.toNat ≤ max.toNat → max.toNat ≤ 8191 → s.inRange dst.toNat (max.toNat - min.toNat + 1) → s.valid.bmv = false →
      exec (.bmStore dst min max) s = .next (s.errorStep .pState 0)) ∧
    (min.toNat ≤ max.toNat → max.toNat ≤ 8191 → s.inRange dst.toNat (max.toNat - min.toNat + 1) → s.valid.bmv = true →
      s.dmem.wf = true → s.hostRaced = false →
      ∃ m, exec (.bmStore dst min max) s =
          .next ({ s with dmem := m, res := { s.res with r0 := u32 (max.toNat - min.toNat + 1) } } : State).retire ∧
        ∀ a, m.read a =
          if InBytes a dst.toNat (max.toNat - min.toNat + 1) then bitmapByte s.bitmap (min.toNat + (a - dst.toNat))
          else s.dmem.read a)

/-- R97: `LUT_FWD`: a live value's entry is its rank, every other entry is 0, and `LUTMAX` is the number of live values minus 1. -/
def Obligations.LutFwdRanksLiveValues : Prop :=
  ∀ s : State,
    (s.valid.bmv = false → exec .lutFwd s = .next (s.errorStep .pState 0)) ∧
    (s.valid.bmv = true →
      ∃ (t : LutRam) (k : Sample), k.toNat = rank s.bitmap 65536 - 1 ∧
        exec .lutFwd s =
          .next ({ s with
            lut := t, lutMax := k, valid := { s.valid with lutv := true, lutk := false },
            res := { s.res with r0 := k.setWidth 32 } } : State).retire ∧
        ∀ v, v < 65536 → (t.get lutBits v).toNat = if live s.bitmap v then rank s.bitmap v else 0)

/-- R98: `LUT_REV`: the entry of a rank is the live value of that rank, every entry past the last rank is 0. -/
def Obligations.LutRevListsLiveValues : Prop :=
  ∀ s : State,
    (s.valid.bmv = false → exec .lutRev s = .next (s.errorStep .pState 0)) ∧
    (s.valid.bmv = true →
      ∃ (t : LutRam) (k : Sample), k.toNat = rank s.bitmap 65536 - 1 ∧
        exec .lutRev s =
          .next ({ s with
            lut := t, lutMax := k, valid := { s.valid with lutv := true, lutk := true },
            res := { s.res with r0 := k.setWidth 32 } } : State).retire ∧
        (∀ v, v < 65536 → live s.bitmap v = true → (t.get lutBits (rank s.bitmap v)).toNat = v) ∧
        ∀ j, rank s.bitmap 65536 ≤ j → j < 65536 → t.get lutBits j = 0)

/-- R101, which the spec derives from R89, R91, R93, R97 and R98: the bitmap round trip, the LUT inverse, the LUT's monotonicity and
its maximum, on the chain `BM_CLEAR; BM_SCAN; BM_UNSET 0` followed by either LUT command. -/
def Obligations.BitmapAndLutLaws : Prop :=
  ∀ (s : State) (base count : Word), base.toNat % 2 = 0 → s.inRange base.toNat (2 * count.toNat) →
    ∃ t f r, execAll [.bmClear, .bmScan base count, .bmUnset 0] s = .next t ∧ exec .lutFwd t = .next f ∧ exec .lutRev t = .next r ∧
      (∀ v, v < 65536 → (bitmapHas t.bitmap v = true ↔
        v ≠ 0 ∧ ∃ i, i < count.toNat ∧ (s.dmem.sample (base.toNat + 2 * i)).toNat = v)) ∧
      (∀ v, v < 65536 → live t.bitmap v = true → (r.lut.get lutBits (f.lut.get lutBits v).toNat).toNat = v) ∧
      (∀ u v, u < v → v < 65536 → live t.bitmap u = true → live t.bitmap v = true →
        (f.lut.get lutBits u).toNat < (f.lut.get lutBits v).toNat) ∧
      (∀ v, v < 65536 → (f.lut.get lutBits v).toNat ≤ f.lutMax.toNat) ∧ f.lutMax = r.lutMax

/-- R99, R100: `LUT_APPLY` and `LUT_READ`. -/
def Obligations.LutApplyAndRead : Prop :=
  (∀ (s : State) (base count : Word),
    (base.toNat % 2 ≠ 0 → exec (.lutApply base count) s = .next (s.errorStep .pAlign base)) ∧
    (base.toNat % 2 = 0 → ¬ s.inRange base.toNat (2 * count.toNat) → exec (.lutApply base count) s = .next (s.errorStep .pRange base)) ∧
    (base.toNat % 2 = 0 → s.inRange base.toNat (2 * count.toNat) → s.valid.lutv = false →
      exec (.lutApply base count) s = .next (s.errorStep .pState 1)) ∧
    (base.toNat % 2 = 0 → s.inRange base.toNat (2 * count.toNat) → s.valid.lutv = true → s.dmem.wf = true → s.hostRaced = false →
      ∃ m, exec (.lutApply base count) s = .next ({ s with dmem := m } : State).retire ∧
        (∀ i, i < count.toNat →
          m.sample (base.toNat + 2 * i) = s.lut.get lutBits (s.dmem.sample (base.toNat + 2 * i)).toNat) ∧
        ∀ a, ¬ InBytes a base.toNat (2 * count.toNat) → m.read a = s.dmem.read a)) ∧
  ∀ (s : State) (i : Word),
    (0xFFFF < i.toNat → exec (.lutRead i) s = .next (s.errorStep .pValue i)) ∧
    (i.toNat ≤ 0xFFFF → s.valid.lutv = false → exec (.lutRead i) s = .next (s.errorStep .pState 1)) ∧
    (i.toNat ≤ 0xFFFF → s.valid.lutv = true →
      ∃ w : Word, w.toNat = (s.lut.get lutBits i.toNat).toNat ∧
        exec (.lutRead i) s = .next ({ s with res := { s.res with r0 := w } } : State).retire)

/-! ## The Huffman decoder -/

/-- R107: the programmer checks of `HUF_DECODE` in their order; each leaves everything but the error registers as it was. -/
def Obligations.HufProgrammerChecks : Prop :=
  ∀ (s : State) (src len dst nout : Word),
    (dst.toNat % 2 ≠ 0 → exec (.hufDecode src len dst nout) s = .next (s.errorStep .pAlign dst)) ∧
    (dst.toNat % 2 = 0 → ¬ s.inRange src.toNat len.toNat →
      exec (.hufDecode src len dst nout) s = .next (s.errorStep .pRange src)) ∧
    (dst.toNat % 2 = 0 → s.inRange src.toNat len.toNat → ¬ s.inRange dst.toNat (2 * nout.toNat) →
      exec (.hufDecode src len dst nout) s = .next (s.errorStep .pRange dst)) ∧
    (dst.toNat % 2 = 0 → s.inRange src.toNat len.toNat → s.inRange dst.toNat (2 * nout.toNat) →
      Overlap src.toNat len.toNat dst.toNat (2 * nout.toNat) →
      exec (.hufDecode src len dst nout) s = .next (s.errorStep .pOverlap dst))

/-- R108: the frame and header checks in their order, each with its error and information word; and R106: once they have passed, an
error of the table's unpacking (`HufTableUnpacks`) or of the decoding table's building (`HufShortCodesArePrefixFree`) is the
command's error. -/
def Obligations.HufHeaderChecks : Prop :=
  (∀ (s : State) (src len dst nout : Word) (dMin dMax tableLength payloadBits : Nat), HufChecked s src len dst nout →
    dMin = s.dmem.readLE src.toNat 4 → dMax = s.dmem.readLE (src.toNat + 4) 4 →
    tableLength = s.dmem.readLE (src.toNat + 8) 4 → payloadBits = s.dmem.readLE (src.toNat + 12) 4 →
    ∃ t, exec (.hufDecode src len dst nout) s = .next t ∧
      (len.toNat < 20 → t.seq = .error .format ∧ t.err = ⟨some .fHufFrame, len, s.cp⟩) ∧
      (20 ≤ len.toNat → dMax < dMin ∨ 65536 < dMax → t.seq = .error .format ∧ t.err = ⟨some .fHufHdr, u32 dMax, s.cp⟩) ∧
      (20 ≤ len.toNat → dMin ≤ dMax → dMax ≤ 65536 → len.toNat - 20 < tableLength →
        t.seq = .error .format ∧ t.err = ⟨some .fHufTableLen, u32 tableLength, s.cp⟩) ∧
      (20 ≤ len.toNat → dMin ≤ dMax → dMax ≤ 65536 → tableLength ≤ len.toNat - 20 → 8 * (len.toNat - 20 - tableLength) < payloadBits →
        t.seq = .error .format ∧ t.err = ⟨some .fHufPbits, u32 payloadBits, s.cp⟩)) ∧
  ∀ (s : State) (src len dst nout : Word) (h : HufHeader) (e : ErrCode) (info : Word), HufChecked s src len dst nout →
    HufFramed s.dmem src.toNat len.toNat h →
    hufUnpack s.dmem src.toNat h = .error (e, info) ∨
      (∃ ls, hufUnpack s.dmem src.toNat h = .ok ls ∧ hufBuild (hufPacks ls) ls (.leaf .empty) = .error (e, info)) →
    ∃ t, exec (.hufDecode src len dst nout) s = .next t ∧ t.seq = .error e.cls ∧ t.err = ⟨some e, info, s.cp⟩

/-- R114: a `HUF_DECODE` that raises after its programmer checks leaves `HUFV = 0`, and changes besides the error registers only
`PACK`, `DEC` and the destination samples, which hold free values (log 9). -/
def Obligations.HufFailureIsContained : Prop :=
  ∀ (s t : State) (src len dst nout : Word) (c : ErrClass), HufChecked s src len dst nout → s.dmem.wf = true → s.seq = .running →
    exec (.hufDecode src len dst nout) s = .next t → t.seq = .error c →
    c = .format ∧ t.valid.hufv = false ∧
      t = { s with
        seq := t.seq, err := t.err, valid := { s.valid with hufv := false }, pack := t.pack, dec := t.dec, dmem := t.dmem,
        freeCtr := s.freeCtr + 1 } ∧
      (∃ e info, t.err = ⟨some e, info, s.cp⟩ ∧ e.cls = .format) ∧
      ∀ a, ¬ InBytes a dst.toNat (2 * nout.toNat) → t.dmem.read a = s.dmem.read a

/-- R106, R113: a `HUF_DECODE` whose block decodes retires: exactly `nout` samples at `dst` and no other byte, the block's tables,
`HUFV`, and the four header words in the result registers. -/
def Obligations.HufSuccessWritesTheSamples : Prop :=
  ∀ (s : State) (src len dst nout : Word) (b : HufBlock), HufChecked s src len dst nout → s.dmem.wf = true → s.hostRaced = false →
    hufDecodeBlock s.dmem src.toNat len.toNat nout.toNat = .ok b →
    b.samples.length = nout.toNat ∧
    ∃ m, exec (.hufDecode src len dst nout) s =
        .next ({ s with
          dmem := m, pack := b.packs, dec := b.dec, valid := { s.valid with hufv := true },
          res := ⟨u32 (s.dmem.readLE src.toNat 4), u32 (s.dmem.readLE (src.toNat + 4) 4), u32 (s.dmem.readLE (src.toNat + 8) 4),
            u32 (s.dmem.readLE (src.toNat + 12) 4)⟩ } : State).retire ∧
      (∀ i, i < nout.toNat → m.sample (dst.toNat + 2 * i) = b.samples.getD i 0) ∧
      ∀ a, ¬ InBytes a dst.toNat (2 * nout.toNat) → m.read a = s.dmem.read a

/-- R104, R109: a table that stands in DMEM as the items of R104, covers exactly `dMin .. dMax` and fills `tableLength` bytes unpacks
to the lengths of its items; one that fills fewer bytes is refused. A table that ends before it has covered `dMax` is refused with
the position of the read that failed, and a zero run that passes `dMax` with its first symbol. -/
def Obligations.HufTableUnpacks : Prop :=
  (∀ (m : Memory) (src : Nat) (h : HufHeader) (items : List TableItem), h.dMin ≤ h.dMax → (∀ it ∈ items, it.Ok) →
    tableCovers items = h.dMax + 1 - h.dMin → StreamIs m (src + 20) 0 (items.flatMap TableItem.bits) →
    (ceil8 (items.flatMap TableItem.bits).length = h.tableLength → hufUnpack m src h = .ok (tableLengths items h.dMin)) ∧
    (ceil8 (items.flatMap TableItem.bits).length < h.tableLength →
      hufUnpack m src h = .error (.fHufTableLen, u32 h.tableLength))) ∧
  ∀ (m : Memory) (src : Nat) (h : HufHeader) (items : List TableItem) (q : Nat), h.dMin ≤ h.dMax → (∀ it ∈ items, it.Ok) →
    tableCovers items < h.dMax + 1 - h.dMin → StreamIs m (src + 20) 0 (items.flatMap TableItem.bits) →
    q = (items.flatMap TableItem.bits).length → q ≤ 8 * h.tableLength →
    (8 * h.tableLength < q + 6 → hufUnpack m src h = .error (.fHufTable, u32 q)) ∧
    (q + 6 ≤ 8 * h.tableLength → 8 * h.tableLength < q + 14 → StreamIs m (src + 20) q (bitsOf 6 63) →
      hufUnpack m src h = .error (.fHufTable, u32 (q + 6))) ∧
    ∀ it : TableItem, it.Ok → 1 < it.covers → StreamIs m (src + 20) q it.bits → q + it.bits.length ≤ 8 * h.tableLength →
      h.dMax + 1 - h.dMin < tableCovers items + it.covers →
      hufUnpack m src h = .error (.fHufTableRun, u32 (h.dMin + tableCovers items))

/-- R110: the canonical codes: the first code of each length by the loop from 58 down, then one more for each earlier symbol of the
same length; an absent symbol's pack is 0. -/
def Obligations.HufCodesAreCanonical : Prop :=
  ∀ ls : List (Nat × Nat), (ls.map (·.1)).Pairwise (· < ·) → (∀ sl ∈ ls, sl.1 ≤ 65536 ∧ 1 ≤ sl.2 ∧ sl.2 ≤ 58) →
    hufStart ls 58 = 0 ∧ (∀ l, 1 ≤ l → l < 58 → hufStart ls l = (hufStart ls (l + 1) + ls.countP fun sl => sl.2 == l + 1) / 2) ∧
    (∀ sl ∈ ls, packLen (packAt (hufPacks ls) sl.1) = sl.2 ∧
      packCode (packAt (hufPacks ls) sl.1) = hufStart ls sl.2 + ls.countP (fun sl' => decide (sl'.1 < sl.1) && sl'.2 == sl.2) ∧
      packCode (packAt (hufPacks ls) sl.1) < 2 ^ 18) ∧
    ∀ s, s ≤ 65536 → (∀ l, (s, l) ∉ ls) → packAt (hufPacks ls) s = 0

/-- R117's first sentence, which the spec derives from R111: when the decoding table has been built, no code of length at most 14 is
a prefix of another symbol's code. And R111's refusals: of the symbols in order, the first whose code does not fit its length, or
clashes with that of an earlier one, is refused and named; one that does neither is entered. -/
def Obligations.HufShortCodesArePrefixFree : Prop :=
  (∀ (packs : PackRam) (ls : List (Nat × Nat)) (t : DecRam), (ls.map (·.1)).Pairwise (· < ·) → (∀ sl ∈ ls, 1 ≤ sl.2) →
    hufBuild packs ls (.leaf .empty) = .ok t →
    ∀ x ∈ ls, ∀ y ∈ ls, x.1 ≠ y.1 → x.2 ≤ 14 → x.2 ≤ y.2 →
      packCode (packAt packs y.1) >>> (y.2 - x.2) ≠ packCode (packAt packs x.1)) ∧
  ∀ (packs : PackRam) (earlier later : List (Nat × Nat)) (x : Nat × Nat) (t : DecRam), (∀ y ∈ earlier, 1 ≤ y.2) → 1 ≤ x.2 →
    hufBuild packs earlier (.leaf .empty) = .ok t →
    (packCode (packAt packs x.1) >>> x.2 ≠ 0 →
      hufBuild packs (earlier ++ x :: later) (.leaf .empty) = .error (.fHufCode, u32 x.1)) ∧
    (packCode (packAt packs x.1) >>> x.2 = 0 → (∃ y ∈ earlier, Clash packs y x) →
      hufBuild packs (earlier ++ x :: later) (.leaf .empty) = .error (.fHufOverlap, u32 x.1)) ∧
    (packCode (packAt packs x.1) >>> x.2 = 0 → (∀ y ∈ earlier, ¬ Clash packs y x) →
      ∃ t', hufBuild packs (earlier ++ [x]) (.leaf .empty) = .ok t')

/-- R105, R112, R113, R117 (the Huffman round trip, which the spec derives): a framed block whose table and payload stand in DMEM as
items decodes to the samples its payload items stand for, with codes of 1 to 58 bits; a code of more than 14 bits stands for its
symbol when it is the first of its list that matches and fits. A payload of no bits decodes to no samples. -/
def Obligations.HufRoundTrip : Prop :=
  ∀ (s : State) (src len dst nout : Word) (h : HufHeader) (table : List TableItem) (ls : List (Nat × Nat))
    (payload : List PayloadItem) (t : DecRam),
    HufChecked s src len dst nout → s.dmem.wf = true → s.hostRaced = false → HufFramed s.dmem src.toNat len.toNat h →
    HufTabled s.dmem src.toNat h table → ls = tableLengths table h.dMin →
    hufBuild (hufPacks ls) ls (.leaf .empty) = .ok t →
    PayloadBegins s.dmem (src.toNat + 20 + h.tableLength) h.payloadBits (hufPacks ls) ls h.dMax payload →
    (payload.flatMap (PayloadItem.bits (hufPacks ls) h.dMax)).length = h.payloadBits →
    (payloadSamples payload []).length = nout.toNat →
    ∃ u, exec (.hufDecode src len dst nout) s = .next u ∧ u.seq = s.seq ∧ u.valid.hufv = true ∧
      u.res = ⟨u32 h.dMin, u32 h.dMax, u32 h.tableLength, u32 h.payloadBits⟩ ∧
      ∀ i, i < nout.toNat → u.dmem.sample (dst.toNat + 2 * i) = (payloadSamples payload []).getD i 0

/-- R112, R113: what stops a decode after the items `items`, which end at bit `p` of the payload and give `out`: the payload's end
before `nout` samples; an index that no code begins; a code that is cut; a list of long codes of which none matches and fits; and,
for the symbol `x` whose code is read at `p`, an escape without its 8 bits, without a sample to repeat, or with more samples than
`nout`, and a literal after the last sample. Each has its information word. -/
def Obligations.HufPayloadErrors : Prop :=
  ∀ (s : State) (src len dst nout : Word) (h : HufHeader) (table : List TableItem) (ls : List (Nat × Nat))
    (items : List PayloadItem) (t : DecRam) (pb p : Nat) (out : List Sample) (packs : PackRam),
    HufChecked s src len dst nout → HufFramed s.dmem src.toNat len.toNat h → HufTabled s.dmem src.toNat h table →
    ls = tableLengths table h.dMin → packs = hufPacks ls → hufBuild packs ls (.leaf .empty) = .ok t →
    pb = src.toNat + 20 + h.tableLength → PayloadBegins s.dmem pb h.payloadBits packs ls h.dMax items →
    p = (items.flatMap (PayloadItem.bits packs h.dMax)).length → out = payloadSamples items [] → out.length ≤ nout.toNat →
    ∃ u, exec (.hufDecode src len dst nout) s = .next u ∧
      (p = h.payloadBits → out.length < nout.toNat →
        u.seq = .error .format ∧ u.err = ⟨some .fHufNotenough, u32 out.length, s.cp⟩) ∧
      (p < h.payloadBits → (∀ x ∈ ls, ¬ CodeIndexed s.dmem pb h.payloadBits packs p x) →
        u.seq = .error .format ∧ u.err = ⟨some .fHufEmpty, u32 p, s.cp⟩) ∧
      (p < h.payloadBits → (∃ x ∈ ls, x.2 ≤ 14 ∧ CodeIndexed s.dmem pb h.payloadBits packs p x ∧ h.payloadBits < p + x.2) →
        u.seq = .error .format ∧ u.err = ⟨some .fHufTrunc, u32 p, s.cp⟩) ∧
      (p < h.payloadBits → (∃ x ∈ ls, 14 < x.2 ∧ CodeIndexed s.dmem pb h.payloadBits packs p x) →
        (∀ x ∈ ls, 14 < x.2 → ¬ CodeAt s.dmem pb h.payloadBits packs p x) →
        u.seq = .error .format ∧ u.err = ⟨some .fHufLongmiss, u32 p, s.cp⟩) ∧
      ∀ x ∈ ls, CodeAt s.dmem pb h.payloadBits packs p x →
        (14 < x.2 → NoEarlierLongCode s.dmem pb h.payloadBits packs ls p x.1) →
        (x.1 = h.dMax → h.payloadBits < p + x.2 + 8 →
          u.seq = .error .format ∧ u.err = ⟨some .fHufTrunc, u32 (p + x.2), s.cp⟩) ∧
        (x.1 = h.dMax → p + x.2 + 8 ≤ h.payloadBits → out = [] →
          u.seq = .error .format ∧ u.err = ⟨some .fHufRleNoprev, u32 (p + x.2 + 8), s.cp⟩) ∧
        (x.1 = h.dMax → p + x.2 + 8 ≤ h.payloadBits → out ≠ [] → nout.toNat < out.length + s.dmem.streamBits pb (p + x.2) 8 →
          u.seq = .error .format ∧ u.err = ⟨some .fHufToomuch, u32 (p + x.2 + 8), s.cp⟩) ∧
        (x.1 ≠ h.dMax → out.length = nout.toNat →
          u.seq = .error .format ∧ u.err = ⟨some .fHufToomuch, u32 (p + x.2), s.cp⟩)

/-- R115, R116: `HUF_PACK_READ` and `HUF_DEC_READ`. -/
def Obligations.HufReadbacks : Prop :=
  (∀ (s : State) (sym : Word),
    (65536 < sym.toNat → exec (.hufPackRead sym) s = .next (s.errorStep .pValue sym)) ∧
    (sym.toNat ≤ 65536 → s.valid.hufv = false → exec (.hufPackRead sym) s = .next (s.errorStep .pState 3)) ∧
    (sym.toNat ≤ 65536 → s.valid.hufv = true →
      ∃ r : Results, exec (.hufPackRead sym) s = .next ({ s with res := r } : State).retire ∧
        (packAt s.pack sym.toNat).toNat = r.r0.toNat + 2 ^ 32 * r.r1.toNat ∧
        r.r2.toNat = packLen (packAt s.pack sym.toNat) ∧ r.r3.toNat = packCode (packAt s.pack sym.toNat) % 2 ^ 32)) ∧
  ∀ (s : State) (i j : Word),
    (16383 < i.toNat → exec (.hufDecRead i j) s = .next (s.errorStep .pValue i)) ∧
    (i.toNat ≤ 16383 → s.valid.hufv = false → exec (.hufDecRead i j) s = .next (s.errorStep .pState 3)) ∧
    (i.toNat ≤ 16383 → s.valid.hufv = true →
      ∃ k n v, exec (.hufDecRead i j) s = .next ({ s with res := ⟨k, n, v, s.res.r3⟩ } : State).retire ∧
        (s.dec.get decBits i.toNat = .empty → k = 0 ∧ n = 0 ∧ v = 0xFFFFFFFF) ∧
        (∀ l sy, s.dec.get decBits i.toNat = .short l sy → k = 1 ∧ n = u32 l ∧ v = u32 sy) ∧
        ∀ lits, s.dec.get decBits i.toNat = .long lits → k = 2 ∧ n = u32 lits.length ∧
          (∀ d, lits[j.toNat]? = some d → v = u32 d) ∧ (lits.length ≤ j.toNat → v = 0xFFFFFFFF))

/-! ## The wavelet unit -/

/-- R119: the checks of both wavelet commands, in their order; a plane with a side below 2 passes with no check made. A command that
passes them stores to no byte but those of the samples its scales touch (R123, R124, R125), by the level bound and the odd column
and line that the spec adopts from general knowledge (log 16). -/
def Obligations.WavChecksInOrder : Prop :=
  ∀ (s : State) (wm : WavMode) (base nx ny ox oy : Word) (i : Instr), wm.wellFormed = true →
    i = .wavFwd wm base nx ny ox oy ∨ i = .wavInv wm base nx ny ox oy →
    (min nx.toNat ny.toNat < 2 → exec i s = .next s.retire) ∧
    (2 ≤ min nx.toNat ny.toNat → base.toNat % 2 ≠ 0 → exec i s = .next (s.errorStep .pAlign base)) ∧
    (2 ≤ min nx.toNat ny.toNat → base.toNat % 2 = 0 → ¬ (planeOf base nx ny ox oy).Geometry →
      exec i s = .next (s.errorStep .pGeom 0)) ∧
    (2 ≤ min nx.toNat ny.toNat → base.toNat % 2 = 0 → (planeOf base nx ny ox oy).Geometry →
      ¬ s.inRange base.toNat (2 * ((nx.toNat - 1) * ox.toNat + (ny.toNat - 1) * oy.toNat) + 2) →
      exec i s = .next (s.errorStep .pRange base)) ∧
    (2 ≤ min nx.toNat ny.toNat → base.toNat % 2 = 0 → (planeOf base nx ny ox oy).Geometry →
      s.inRange base.toNat (2 * ((nx.toNat - 1) * ox.toNat + (ny.toNat - 1) * oy.toNat) + 2) → wm = .auto → s.valid.lutv = false →
      exec i s = .next (s.errorStep .pState 1)) ∧
    (2 ≤ min nx.toNat ny.toNat → base.toNat % 2 = 0 → (planeOf base nx ny ox oy).Geometry →
      s.inRange base.toNat (2 * ((nx.toNat - 1) * ox.toNat + (ny.toNat - 1) * oy.toNat) + 2) →
      (wm = .auto → s.valid.lutv = true) → s.dmem.wf = true → s.hostRaced = false →
      ∃ m, exec i s = .next ({ s with dmem := m } : State).retire ∧
        ∀ a, ¬ (planeOf base nx ny ox oy).WritesByte a → m.read a = s.dmem.read a)

/-- R120, R121, R122, R124, R125 on a 2x2 plane: the four samples a wavelet command leaves there, by the variant `WM` and `LUTMAX`
choose. The w16 formulas are those the spec adopts from general knowledge (log 16). -/
def Obligations.WavTwoByTwoPlane : Prop :=
  ∀ (s : State) (wm : WavMode) (base ox oy : Word) (is16 : Bool) (a b c d : Sample), wm.wellFormed = true →
    (is16 = true ↔ wm = .w16 ∨ (wm = .auto ∧ 16384 ≤ s.lutMax.toNat)) → (wm = .auto → s.valid.lutv = true) →
    base.toNat % 2 = 0 → (planeOf base 2 2 ox oy).Geometry → s.inRange base.toNat (planeOf base 2 2 ox oy).span →
    s.dmem.wf = true → s.hostRaced = false →
    a = (planeOf base 2 2 ox oy).get s.dmem 0 0 → b = (planeOf base 2 2 ox oy).get s.dmem 1 0 →
    c = (planeOf base 2 2 ox oy).get s.dmem 0 1 → d = (planeOf base 2 2 ox oy).get s.dmem 1 1 →
    (∃ m, exec (.wavFwd wm base 2 2 ox oy) s = .next ({ s with dmem := m } : State).retire ∧
      let enc := if is16 then enc16 else enc14
      (planeOf base 2 2 ox oy).get m 0 0 = (enc (enc a b).1 (enc c d).1).1 ∧
      (planeOf base 2 2 ox oy).get m 1 0 = (enc (enc a b).2 (enc c d).2).1 ∧
      (planeOf base 2 2 ox oy).get m 0 1 = (enc (enc a b).1 (enc c d).1).2 ∧
      (planeOf base 2 2 ox oy).get m 1 1 = (enc (enc a b).2 (enc c d).2).2) ∧
    ∃ m, exec (.wavInv wm base 2 2 ox oy) s = .next ({ s with dmem := m } : State).retire ∧
      let dec := if is16 then dec16 else dec14
      (planeOf base 2 2 ox oy).get m 0 0 = (dec (dec a c).1 (dec b d).1).1 ∧
      (planeOf base 2 2 ox oy).get m 1 0 = (dec (dec a c).1 (dec b d).1).2 ∧
      (planeOf base 2 2 ox oy).get m 0 1 = (dec (dec a c).2 (dec b d).2).1 ∧
      (planeOf base 2 2 ox oy).get m 1 1 = (dec (dec a c).2 (dec b d).2).2

/-- R120, R123: the scales are the powers of two `p` with `2*p <= min(nx, ny)`; the forward command runs them ascending and the
inverse command descending, each with the pair operation of the variant. The bound is the one the spec adopts from general
knowledge (log 16). -/
def Obligations.WavRunsItsScales : Prop :=
  (∀ (nx ny : Word) (p : Nat), p ∈ wavLevels nx.toNat ny.toNat ↔ (∃ j, p = 2 ^ j) ∧ 2 * p ≤ min nx.toNat ny.toNat) ∧
  (∀ nx ny : Nat, (wavLevels nx ny).Pairwise (· < ·)) ∧
  ∀ (s : State) (wm : WavMode) (base nx ny ox oy : Word) (is16 : Bool) (pl : Plane), wm.wellFormed = true →
    (is16 = true ↔ wm = .w16 ∨ (wm = .auto ∧ 16384 ≤ s.lutMax.toNat)) → (wm = .auto → s.valid.lutv = true) →
    pl = planeOf base nx ny ox oy → 2 ≤ min nx.toNat ny.toNat → base.toNat % 2 = 0 → pl.Geometry → s.inRange base.toNat pl.span →
    s.hostRaced = false →
    exec (.wavFwd wm base nx ny ox oy) s =
      .next ({ s with
        dmem := (wavLevels pl.nx pl.ny).foldl
          (fun m p => wavScale (if is16 then enc16 else enc14) (wavFwdBlock (if is16 then enc16 else enc14) pl p) pl p m)
          s.dmem } : State).retire ∧
    exec (.wavInv wm base nx ny ox oy) s =
      .next ({ s with
        dmem := (wavLevels pl.nx pl.ny).reverse.foldl
          (fun m p => wavScale (if is16 then dec16 else dec14) (wavInvBlock (if is16 then dec16 else dec14) pl p) pl p m)
          s.dmem } : State).retire

/-- R124 and R125 at one scale, whatever the pair operation `f`: every block, every pair of the odd column and every pair of the odd
line is the image of the samples before the scale, since they touch disjoint samples; every sample in none of them is untouched,
such as the corner of the odd column and line, and a sample at a coordinate that is no multiple of the scale. The odd column and line are those the spec adopts
from general knowledge (log 16). -/
def Obligations.WavScaleActsOnDisjointSamples : Prop :=
  ∀ (f : Sample → Sample → Sample × Sample) (pl : Plane) (m m' : Memory) (p : Nat) (forward : Bool), m.wf = true → pl.Geometry →
    p ∈ wavLevels pl.nx pl.ny →
    m' = (if forward then wavScale f (wavFwdBlock f pl p) pl p m else wavScale f (wavInvBlock f pl p) pl p m) →
    (∀ xb yb a b c d, xb % (2 * p) = 0 → yb % (2 * p) = 0 → xb + 2 * p ≤ pl.nx → yb + 2 * p ≤ pl.ny →
      a = pl.get m xb yb → b = pl.get m (xb + p) yb → c = pl.get m xb (yb + p) → d = pl.get m (xb + p) (yb + p) →
      (forward = true →
        pl.get m' xb yb = (f (f a b).1 (f c d).1).1 ∧ pl.get m' (xb + p) yb = (f (f a b).2 (f c d).2).1 ∧
        pl.get m' xb (yb + p) = (f (f a b).1 (f c d).1).2 ∧ pl.get m' (xb + p) (yb + p) = (f (f a b).2 (f c d).2).2) ∧
      (forward = false →
        pl.get m' xb yb = (f (f a c).1 (f b d).1).1 ∧ pl.get m' (xb + p) yb = (f (f a c).1 (f b d).1).2 ∧
        pl.get m' xb (yb + p) = (f (f a c).2 (f b d).2).1 ∧ pl.get m' (xb + p) (yb + p) = (f (f a c).2 (f b d).2).2)) ∧
    (∀ xr yb, xr = pl.nx / (2 * p) * (2 * p) → pl.nx &&& p ≠ 0 → yb % (2 * p) = 0 → yb + 2 * p ≤ pl.ny →
      pl.get m' xr yb = (f (pl.get m xr yb) (pl.get m xr (yb + p))).1 ∧
      pl.get m' xr (yb + p) = (f (pl.get m xr yb) (pl.get m xr (yb + p))).2) ∧
    (∀ xb yr, yr = pl.ny / (2 * p) * (2 * p) → pl.ny &&& p ≠ 0 → xb % (2 * p) = 0 → xb + 2 * p ≤ pl.nx →
      pl.get m' xb yr = (f (pl.get m xb yr) (pl.get m (xb + p) yr)).1 ∧
      pl.get m' (xb + p) yr = (f (pl.get m xb yr) (pl.get m (xb + p) yr)).2) ∧
    (pl.nx &&& p ≠ 0 → pl.ny &&& p ≠ 0 →
      pl.get m' (pl.nx / (2 * p) * (2 * p)) (pl.ny / (2 * p) * (2 * p)) =
        pl.get m (pl.nx / (2 * p) * (2 * p)) (pl.ny / (2 * p) * (2 * p))) ∧
    (∀ x y, x < pl.nx → y < pl.ny → x % p ≠ 0 ∨ y % p ≠ 0 → pl.get m' x y = pl.get m x y) ∧
    ∀ x y, x < pl.nx → y < pl.ny →
      (∀ xb yb, xb % (2 * p) = 0 → yb % (2 * p) = 0 → xb + 2 * p ≤ pl.nx → yb + 2 * p ≤ pl.ny →
        ¬ ((x = xb ∨ x = xb + p) ∧ (y = yb ∨ y = yb + p))) →
      (∀ yb, pl.nx &&& p ≠ 0 → yb % (2 * p) = 0 → yb + 2 * p ≤ pl.ny →
        ¬ (x = pl.nx / (2 * p) * (2 * p) ∧ (y = yb ∨ y = yb + p))) →
      (∀ xb, pl.ny &&& p ≠ 0 → xb % (2 * p) = 0 → xb + 2 * p ≤ pl.nx →
        ¬ ((x = xb ∨ x = xb + p) ∧ y = pl.ny / (2 * p) * (2 * p))) →
      pl.get m' x y = pl.get m x y

/-- R121, R122: `dec16` inverts `enc16` on all pairs, and `dec14` inverts `enc14` on every pair whose signed difference fits in 16
bits, which every pair of samples below 2^14 is. The w16 formulas are those the spec adopts from general knowledge (log 16). -/
def Obligations.PairOperationsInvert : Prop :=
  (∀ a b : Sample, dec16 (enc16 a b).1 (enc16 a b).2 = (a, b)) ∧
    (∀ a b : Sample, -32768 ≤ a.toInt - b.toInt → a.toInt - b.toInt ≤ 32767 → dec14 (enc14 a b).1 (enc14 a b).2 = (a, b)) ∧
    ∀ a b : Sample, a.toNat < 16384 → b.toNat < 16384 → dec14 (enc14 a b).1 (enc14 a b).2 = (a, b)

/-- R126 (a), which the spec derives from R122, R124 and R125: with w16, chosen or automatic, the inverse command after the forward
command restores DMEM exactly, whatever the plane holds. -/
def Obligations.WaveletRoundTripW16 : Prop :=
  ∀ (s : State) (wm : WavMode) (base nx ny ox oy : Word), s.dmem.wf = true → s.hostRaced = false →
    wm = .w16 ∨ (wm = .auto ∧ s.valid.lutv = true ∧ 16384 ≤ s.lutMax.toNat) → base.toNat % 2 = 0 →
    (planeOf base nx ny ox oy).Geometry → s.inRange base.toNat (planeOf base nx ny ox oy).span →
    execAll [.wavFwd wm base nx ny ox oy, .wavInv wm base nx ny ox oy] s = .next s.retire.retire

/-- R126 (b), which the spec derives from R121, R124 and R125: with w14, chosen or automatic, the inverse command after the forward
command restores DMEM exactly when every sample of the plane is below 2^14. -/
def Obligations.WaveletRoundTripW14 : Prop :=
  ∀ (s : State) (wm : WavMode) (base nx ny ox oy : Word), s.dmem.wf = true → s.hostRaced = false →
    wm = .w14 ∨ (wm = .auto ∧ s.valid.lutv = true ∧ s.lutMax.toNat < 16384) → base.toNat % 2 = 0 →
    (planeOf base nx ny ox oy).Geometry → s.inRange base.toNat (planeOf base nx ny ox oy).span →
    (∀ x y, x < nx.toNat → y < ny.toNat → ((planeOf base nx ny ox oy).get s.dmem x y).toNat < 16384) →
    execAll [.wavFwd wm base nx ny ox oy, .wavInv wm base nx ny ox oy] s = .next s.retire.retire
end

