-- ==== Sys2Proof/Laws/Memory.lean ====
section
/-!
SUPPORT. The laws of DMEM: reading after writing, the canonical form, and what each of the larger writes leaves in each byte.
-/

namespace Sys2Proof.Machine

/-! The canonical form, one cell at a time. -/

theorem wf_cons_iff (k : Nat) (x : Byte) (m : Memory) :
    Memory.wf ((k, x) :: m) = true ↔ x ≠ Memory.unlisted ∧ Memory.wf m = true ∧ ∀ c ∈ m.head?, k < c.1 := by
  cases m with
  | nil => simp [Memory.wf]
  | cons c m => obtain ⟨k', x'⟩ := c; simp [Memory.wf]; tauto

theorem read_below_head {k : Nat} {x : Byte} {m : Memory} (h : Memory.wf ((k, x) :: m) = true) {a : Nat} (ha : a ≤ k) :
    m.read a = Memory.unlisted := by
  rw [wf_cons_iff] at h
  cases m with
  | nil => rfl
  | cons c m =>
    obtain ⟨k', x'⟩ := c
    have hk : k < k' := h.2.2 (k', x') (by simp)
    simp [Memory.read, show a ≠ k' by omega, show a < k' by omega]

theorem read_consCell {a : Nat} {m : Memory} (h : ∀ c ∈ m.head?, a < c.1) (b : Byte) (a' : Nat) :
    (Memory.cons a b m).read a' = if a' = a then b else m.read a' := by
  have hlow : ∀ y, y ≤ a → m.read y = Memory.unlisted := by
    intro y hy
    cases m with
    | nil => rfl
    | cons c m =>
      obtain ⟨k', x'⟩ := c
      have hk : a < k' := h (k', x') (by simp)
      simp [Memory.read, show y ≠ k' by omega, show y < k' by omega]
  unfold Memory.cons
  split
  · split
    · simp_all
    · rfl
  · simp only [Memory.read]
    split
    · rfl
    · split
      · exact (hlow a' (by omega)).symm
      · rfl

/-- Reading after writing one byte (R12). -/
theorem read_write {m : Memory} (h : m.wf = true) (a : Nat) (b : Byte) (a' : Nat) :
    (m.write a b).read a' = if a' = a then b else m.read a' := by
  induction m with
  | nil => rw [Memory.write, read_consCell (by simp)]
  | cons c m ih =>
    obtain ⟨k, x⟩ := c
    have hw := (wf_cons_iff k x m).1 h
    rw [Memory.write]
    split
    · rename_i hak
      subst hak
      rw [read_consCell hw.2.2]
      split
      · rfl
      · rename_i hne
        rw [Memory.read, if_neg hne]
        split
        · exact read_below_head h (by omega)
        · rfl
    · split
      · rw [read_consCell (by simpa using ‹a < k›)]
      · rw [Memory.read, Memory.read, ih hw.2.1]
        split
        · rw [if_neg (by omega)]
        · split
          · rw [if_neg (by omega)]
          · rfl

theorem read_write_same {m : Memory} (h : m.wf = true) (a : Nat) (b : Byte) : (m.write a b).read a = b := by
  simp [read_write h]

theorem read_write_other {m : Memory} (h : m.wf = true) {a a' : Nat} (ha : a' ≠ a) (b : Byte) :
    (m.write a b).read a' = m.read a' := by
  simp [read_write h, ha]

theorem head_write {m : Memory} {a k : Nat} (b : Byte) (ha : k < a) (h : m.wf = true) (hk : ∀ c ∈ m.head?, k < c.1) :
    ∀ c ∈ (m.write a b).head?, k < c.1 := by
  cases m with
  | nil =>
    unfold Memory.write Memory.cons
    split <;> simp
    exact ha
  | cons c m =>
    obtain ⟨k', x'⟩ := c
    have hk' : k < k' := hk (k', x') (by simp)
    have hw := (wf_cons_iff k' x' m).1 h
    unfold Memory.write Memory.cons
    split
    · split
      · intro c hc
        have := hw.2.2 c hc
        omega
      · simp; exact ha
    · split
      · split
        · simpa using hk'
        · simp; exact ha
      · simpa using hk'

/-- Writing a byte keeps the canonical form. -/
theorem wf_write {m : Memory} (h : m.wf = true) (a : Nat) (b : Byte) : (m.write a b).wf = true := by
  induction m with
  | nil =>
    unfold Memory.write Memory.cons
    split
    · rfl
    · simpa [Memory.wf] using ‹_›
  | cons c m ih =>
    obtain ⟨k, x⟩ := c
    have hw := (wf_cons_iff k x m).1 h
    rw [Memory.write]
    split
    · rename_i hak
      subst hak
      unfold Memory.cons
      split
      · exact hw.2.1
      · exact (wf_cons_iff _ _ _).2 ⟨‹_›, hw.2.1, hw.2.2⟩
    · split
      · unfold Memory.cons
        split
        · exact h
        · exact (wf_cons_iff _ _ _).2 ⟨‹_›, h, by simpa using ‹a < k›⟩
      · exact (wf_cons_iff _ _ _).2 ⟨hw.1, ih hw.2.1, head_write b (by omega) hw.2.1 hw.2.2⟩

/-- Writing below `n` lists no address at or above `n`. -/
theorem below_write {m : Memory} {n : Nat} (h : m.below n = true) {a : Nat} (ha : a < n) (b : Byte) :
    (m.write a b).below n = true := by
  simp only [Memory.below, List.all_eq_true, decide_eq_true_eq] at h ⊢
  induction m with
  | nil =>
    unfold Memory.write Memory.cons
    split <;> simp
    exact ha
  | cons c m ih =>
    obtain ⟨k, x⟩ := c
    have hm : ∀ c ∈ m, c.1 < n := fun c hc => h c (by simp [hc])
    have hk : k < n := h (k, x) (by simp)
    rw [Memory.write]
    intro c hc
    split at hc
    · unfold Memory.cons at hc
      split at hc
      · exact hm c hc
      · rcases List.mem_cons.1 hc with rfl | hc
        · exact ha
        · exact hm c hc
    · split at hc
      · unfold Memory.cons at hc
        split at hc
        · exact h c hc
        · rcases List.mem_cons.1 hc with rfl | hc
          · exact ha
          · exact h c hc
      · rcases List.mem_cons.1 hc with rfl | hc
        · exact hk
        · exact ih hm c hc

/-- Equal memories are equal data: canonical memories that read alike are equal. -/
theorem memory_ext {m m' : Memory} (h : m.wf = true) (h' : m'.wf = true) (hr : ∀ a, m.read a = m'.read a) : m = m' := by
  induction m generalizing m' with
  | nil =>
    cases m' with
    | nil => rfl
    | cons c m' =>
      obtain ⟨k, x⟩ := c
      have hw := (wf_cons_iff k x m').1 h'
      have := hr k
      simp [Memory.read] at this
      exact absurd this.symm hw.1
  | cons c m ih =>
    obtain ⟨k, x⟩ := c
    have hw := (wf_cons_iff k x m).1 h
    cases m' with
    | nil =>
      have := hr k
      simp [Memory.read] at this
      exact absurd this hw.1
    | cons c' m' =>
      obtain ⟨k', x'⟩ := c'
      have hw' := (wf_cons_iff k' x' m').1 h'
      have hkk : k = k' := by
        by_contra hne
        rcases Nat.lt_or_gt_of_ne hne with hlt | hgt
        · have := hr k
          simp [Memory.read, hlt, hne] at this
          exact hw.1 this
        · have := hr k'
          simp [Memory.read, hgt, Ne.symm hne] at this
          exact hw'.1 this.symm
      subst hkk
      have hxx : x = x' := by simpa [Memory.read] using hr k
      subst hxx
      rw [ih hw.2.1 hw'.2.1]
      intro a
      by_cases hle : a ≤ k
      · rw [read_below_head h hle, read_below_head h' hle]
      · have := hr a
        simpa [Memory.read, show a ≠ k by omega, show ¬ a < k by omega] using this

/-! A run of bytes. -/

theorem writeBytes_zero (m : Memory) (a : Nat) (f : Nat → Byte) : m.writeBytes a 0 f = m := rfl

theorem writeBytes_succ (m : Memory) (a n : Nat) (f : Nat → Byte) :
    m.writeBytes a (n + 1) f = (m.writeBytes a n f).write (a + n) (f n) := by
  simp [Memory.writeBytes, List.range_succ]

theorem wf_writeBytes {m : Memory} (h : m.wf = true) (a n : Nat) (f : Nat → Byte) : (m.writeBytes a n f).wf = true := by
  induction n with
  | zero => exact h
  | succ n ih => rw [writeBytes_succ]; exact wf_write ih _ _

theorem below_writeBytes {m : Memory} {k : Nat} (h : m.below k = true) {a n : Nat} (f : Nat → Byte) (ha : n = 0 ∨ a + n ≤ k) :
    (m.writeBytes a n f).below k = true := by
  induction n with
  | zero => exact h
  | succ n ih => rw [writeBytes_succ]; exact below_write (ih (by omega)) (by omega) _

/-- What a run of bytes leaves at every address. -/
theorem read_writeBytes {m : Memory} (h : m.wf = true) (a n : Nat) (f : Nat → Byte) (x : Nat) :
    (m.writeBytes a n f).read x = if a ≤ x ∧ x < a + n then f (x - a) else m.read x := by
  induction n with
  | zero => rw [writeBytes_zero, if_neg (by omega)]
  | succ n ih =>
    rw [writeBytes_succ, read_write (wf_writeBytes h a n f), ih]
    by_cases hx : x = a + n
    · subst hx
      simp
    · rw [if_neg hx]
      by_cases hr : a ≤ x ∧ x < a + n
      · rw [if_pos hr, if_pos (by omega)]
      · rw [if_neg hr, if_neg (by omega)]

theorem wf_freeRange {m : Memory} (h : m.wf = true) (ctr a n : Nat) : (m.freeRange ctr a n).wf = true :=
  wf_writeBytes h _ _ _

theorem below_freeRange {m : Memory} {k : Nat} (h : m.below k = true) (ctr : Nat) {a n : Nat} (ha : n = 0 ∨ a + n ≤ k) :
    (m.freeRange ctr a n).below k = true :=
  below_writeBytes h _ ha

/-- Free values stand in the range only. -/
theorem read_freeRange {m : Memory} (h : m.wf = true) (ctr a n x : Nat) :
    (m.freeRange ctr a n).read x = if a ≤ x ∧ x < a + n then Config.freeByte ctr x else m.read x := by
  rw [Memory.freeRange, read_writeBytes h]
  split
  · rw [show a + (x - a) = x by omega]
  · rfl

theorem wf_freeRanges {m : Memory} (h : m.wf = true) (ctr : Nat) (ws : List (Nat × Nat)) : (m.freeRanges ctr ws).wf = true := by
  induction ws generalizing m with
  | nil => exact h
  | cons w ws ih => exact ih (wf_freeRange h ctr w.1 w.2)

theorem below_freeRanges {m : Memory} {k : Nat} (h : m.below k = true) (ctr : Nat) {ws : List (Nat × Nat)}
    (hw : ∀ w ∈ ws, w.2 = 0 ∨ w.1 + w.2 ≤ k) : (m.freeRanges ctr ws).below k = true := by
  induction ws generalizing m with
  | nil => exact h
  | cons w ws ih =>
    exact ih (below_freeRange h ctr (hw w (by simp))) fun w' hw' => hw w' (by simp [hw'])

theorem read_freeRanges {m : Memory} (h : m.wf = true) (ctr : Nat) {ws : List (Nat × Nat)} {x : Nat}
    (hx : ∀ w ∈ ws, ¬ InBytes x w.1 w.2) : (m.freeRanges ctr ws).read x = m.read x := by
  induction ws generalizing m with
  | nil => rfl
  | cons w ws ih =>
    have h0 := hx w (by simp)
    rw [show m.freeRanges ctr (w :: ws) = (m.freeRange ctr w.1 w.2).freeRanges ctr ws from rfl,
      ih (wf_freeRange h ctr w.1 w.2) fun w' hw' => hx w' (by simp [hw']), read_freeRange h, if_neg h0]

/-! Little-endian words and samples. -/

theorem wf_writeLE {m : Memory} (h : m.wf = true) (a n v : Nat) : (m.writeLE a n v).wf = true := by
  induction n generalizing m a v with
  | zero => exact h
  | succ n ih => exact ih (wf_write h _ _) _ _

theorem below_writeLE {m : Memory} {k : Nat} (h : m.below k = true) {a n : Nat} (v : Nat) (ha : n = 0 ∨ a + n ≤ k) :
    (m.writeLE a n v).below k = true := by
  induction n generalizing m a v with
  | zero => exact h
  | succ n ih => exact ih (below_write h (by omega) _) _ (by omega)

/-- What a little-endian write leaves at every address (R12, R39). -/
theorem read_writeLE {m : Memory} (h : m.wf = true) (a n v x : Nat) :
    (m.writeLE a n v).read x = if InBytes x a n then BitVec.ofNat 8 (v / 256 ^ (x - a)) else m.read x := by
  induction n generalizing m a v with
  | zero => rw [if_neg (by omega)]; rfl
  | succ n ih =>
    rw [Memory.writeLE, ih (wf_write h _ _), read_write h]
    by_cases hx : x = a
    · subst hx
      rw [if_neg (by omega), if_pos rfl, if_pos (by omega)]
      simp
    · rw [if_neg hx]
      by_cases hr : InBytes x (a + 1) n
      · rw [if_pos hr, if_pos (by omega), Nat.div_div_eq_div_mul, show x - a = (x - (a + 1)) + 1 by omega, Nat.pow_succ,
          Nat.mul_comm]
      · rw [if_neg hr, if_neg (by omega)]

theorem readLE_congr {m m' : Memory} {a n : Nat} (h : ∀ x, InBytes x a n → m.read x = m'.read x) : m.readLE a n = m'.readLE a n := by
  induction n generalizing a with
  | zero => rfl
  | succ n ih =>
    rw [Memory.readLE, Memory.readLE, h a (by omega), ih fun x hx => h x (by omega)]

theorem readLE_writeLE {m : Memory} (h : m.wf = true) (a n v : Nat) : (m.writeLE a n v).readLE a n = v % 256 ^ n := by
  induction n generalizing m a v with
  | zero => simp [Memory.readLE, Nat.mod_one]
  | succ n ih =>
    rw [Memory.readLE, Memory.writeLE, ih (wf_write h _ _), read_writeLE (wf_write h _ _), if_neg (by omega), read_write_same h,
      BitVec.toNat_ofNat, Nat.pow_succ' (n := n), Nat.mod_mul (a := 256)]

theorem wf_setSample {m : Memory} (h : m.wf = true) (a : Nat) (v : Sample) : (m.setSample a v).wf = true := wf_writeLE h _ _ _

theorem below_setSample {m : Memory} {k : Nat} (h : m.below k = true) {a : Nat} (v : Sample) (ha : a + 2 ≤ k) :
    (m.setSample a v).below k = true :=
  below_writeLE h _ (Or.inr ha)

theorem read_setSample_other {m : Memory} (h : m.wf = true) {a x : Nat} (v : Sample) (hx : ¬ InBytes x a 2) :
    (m.setSample a v).read x = m.read x := by
  rw [Memory.setSample, read_writeLE h, if_neg hx]

@[simp] theorem sample_setSample_same {m : Memory} (h : m.wf = true) (a : Nat) (v : Sample) : (m.setSample a v).sample a = v := by
  rw [Memory.sample, Memory.setSample, readLE_writeLE h]
  apply BitVec.eq_of_toNat_eq
  have := v.isLt
  rw [BitVec.toNat_ofNat]
  omega

theorem sample_congr {m m' : Memory} {a : Nat} (h : ∀ x, InBytes x a 2 → m.read x = m'.read x) : m.sample a = m'.sample a := by
  rw [Memory.sample, Memory.sample, readLE_congr h]

theorem sample_setSample_other {m : Memory} (h : m.wf = true) {a a' : Nat} (v : Sample) (ha : a' + 2 ≤ a ∨ a + 2 ≤ a') :
    (m.setSample a v).sample a' = m.sample a' :=
  sample_congr fun x hx => read_setSample_other h v (by omega)

theorem wf_writeSamples {m : Memory} (h : m.wf = true) (a : Nat) (vs : List Sample) : (m.writeSamples a vs).wf = true := by
  induction vs generalizing m a with
  | nil => exact h
  | cons v vs ih => exact ih (wf_setSample h a v) (a + 2)

theorem below_writeSamples {m : Memory} {k : Nat} (h : m.below k = true) {a : Nat} {vs : List Sample}
    (ha : vs = [] ∨ a + 2 * vs.length ≤ k) : (m.writeSamples a vs).below k = true := by
  induction vs generalizing m a with
  | nil => exact h
  | cons v vs ih =>
    have hl : a + 2 * (vs.length + 1) ≤ k := by simpa using ha
    exact ih (below_setSample h v (by omega)) (by by_cases hv : vs = [] <;> [exact Or.inl hv; exact Or.inr (by omega)])

theorem read_writeSamples_other {m : Memory} (h : m.wf = true) {a x : Nat} {vs : List Sample} (hx : ¬ InBytes x a (2 * vs.length)) :
    (m.writeSamples a vs).read x = m.read x := by
  induction vs generalizing m a with
  | nil => rfl
  | cons v vs ih =>
    simp only [List.length_cons] at hx
    rw [Memory.writeSamples, ih (wf_setSample h a v) (by omega), read_setSample_other h v (by omega)]

/-- The samples written are the samples read. -/
theorem sample_writeSamples {m : Memory} (h : m.wf = true) (a : Nat) (vs : List Sample) (i : Nat) (hi : i < vs.length) :
    (m.writeSamples a vs).sample (a + 2 * i) = vs[i] := by
  induction vs generalizing m a i with
  | nil => simp at hi
  | cons v vs ih =>
    rw [Memory.writeSamples]
    cases i with
    | zero =>
      rw [sample_congr (m' := m.setSample a v) fun x hx => read_writeSamples_other (wf_setSample h a v) (by omega)]
      exact sample_setSample_same h a v
    | succ i =>
      have := ih (wf_setSample h a v) (a + 2) i (by simpa using hi)
      rw [show a + 2 * (i + 1) = a + 2 + 2 * i by omega, this]
      rfl

/-! Stream bits. -/

theorem getLsbD_setByteBit (x : Byte) {j : Nat} (hj : j < 8) (b : Bool) (i : Nat) :
    (setByteBit x j b).getLsbD i = if i = j then b else x.getLsbD i := by
  unfold setByteBit
  by_cases hi : i < 8
  · by_cases hij : i = j
    · subst hij
      cases b <;> simp [hi]
    · have hne : (1#8 <<< j).getLsbD i = false := by
        simp [BitVec.getLsbD_shiftLeft]
        omega
      cases b <;> simp only [Bool.false_eq_true, if_false, if_true, BitVec.getLsbD_or, BitVec.getLsbD_and, BitVec.getLsbD_not, hne,
        hij, hi, decide_true, Bool.not_false, Bool.and_true, Bool.or_false]
  · have h1 : ∀ y : Byte, y.getLsbD i = false := fun y => BitVec.getLsbD_of_ge y i (by omega)
    rw [h1, h1, if_neg (by omega)]

theorem wf_setStreamBit {m : Memory} (h : m.wf = true) (base i : Nat) (b : Bool) : (m.setStreamBit base i b).wf = true :=
  wf_write h _ _

/-- What setting one stream bit leaves in every stream bit of the same stream (R13). -/
theorem streamBit_setStreamBit {m : Memory} (h : m.wf = true) (base i : Nat) (b : Bool) (q : Nat) :
    (m.setStreamBit base i b).streamBit base q = if q = i then b else m.streamBit base q := by
  unfold Memory.setStreamBit Memory.streamBit
  rw [read_write h]
  by_cases hb : base + q / 8 = base + i / 8
  · rw [if_pos hb, getLsbD_setByteBit _ (by omega)]
    by_cases hq : q = i
    · subst hq; simp
    · rw [if_neg (by omega), if_neg hq, hb]
  · rw [if_neg hb, if_neg (by rintro rfl; exact hb rfl)]

theorem streamBit_congr {m m' : Memory} {base q : Nat} (h : m.read (base + q / 8) = m'.read (base + q / 8)) :
    m.streamBit base q = m'.streamBit base q := by
  rw [Memory.streamBit, Memory.streamBit, h]

theorem streamBits_lt (m : Memory) (base i n : Nat) : m.streamBits base i n < 2 ^ n := by
  induction n with
  | zero => simp [Memory.streamBits]
  | succ n ih =>
    rw [Memory.streamBits, Nat.pow_succ]
    have := Bool.toNat_lt (m.streamBit base (i + n))
    omega

end Sys2Proof.Machine
end

