-- ==== Sys2Proof/Laws/State.lean ====
section
/-!
SUPPORT. What each shared operation leaves in each field of State, one lemma a field, so that no proof unfolds a record update.
-/

namespace Sys2Proof.Machine

@[simp] theorem errorStep_params (s : State) (e : ErrCode) (info : Word) : (s.errorStep e info).params = s.params := rfl
@[simp] theorem errorStep_cp (s : State) (e : ErrCode) (info : Word) : (s.errorStep e info).cp = s.cp := rfl
@[simp] theorem errorStep_ie (s : State) (e : ErrCode) (info : Word) : (s.errorStep e info).ie = s.ie := rfl
@[simp] theorem errorStep_seq (s : State) (e : ErrCode) (info : Word) : (s.errorStep e info).seq = .error e.cls := rfl
@[simp] theorem errorStep_err (s : State) (e : ErrCode) (info : Word) : (s.errorStep e info).err = ⟨some e, info, s.cp⟩ := rfl
@[simp] theorem errorStep_cmdCnt (s : State) (e : ErrCode) (info : Word) : (s.errorStep e info).cmdCnt = s.cmdCnt := rfl
@[simp] theorem errorStep_res (s : State) (e : ErrCode) (info : Word) : (s.errorStep e info).res = s.res := rfl
@[simp] theorem errorStep_lutMax (s : State) (e : ErrCode) (info : Word) : (s.errorStep e info).lutMax = s.lutMax := rfl
@[simp] theorem errorStep_valid (s : State) (e : ErrCode) (info : Word) : (s.errorStep e info).valid = s.valid := rfl
@[simp] theorem errorStep_reader (s : State) (e : ErrCode) (info : Word) : (s.errorStep e info).reader = s.reader := rfl
@[simp] theorem errorStep_writer (s : State) (e : ErrCode) (info : Word) : (s.errorStep e info).writer = s.writer := rfl
@[simp] theorem errorStep_bitmap (s : State) (e : ErrCode) (info : Word) : (s.errorStep e info).bitmap = s.bitmap := rfl
@[simp] theorem errorStep_lut (s : State) (e : ErrCode) (info : Word) : (s.errorStep e info).lut = s.lut := rfl
@[simp] theorem errorStep_pack (s : State) (e : ErrCode) (info : Word) : (s.errorStep e info).pack = s.pack := rfl
@[simp] theorem errorStep_dec (s : State) (e : ErrCode) (info : Word) : (s.errorStep e info).dec = s.dec := rfl
@[simp] theorem errorStep_dmem (s : State) (e : ErrCode) (info : Word) : (s.errorStep e info).dmem = s.dmem := rfl
@[simp] theorem errorStep_hostTurns (s : State) (e : ErrCode) (info : Word) : (s.errorStep e info).hostTurns = s.hostTurns := rfl
@[simp] theorem errorStep_hostData (s : State) (e : ErrCode) (info : Word) : (s.errorStep e info).hostData = s.hostData := rfl
@[simp] theorem errorStep_hostRaced (s : State) (e : ErrCode) (info : Word) : (s.errorStep e info).hostRaced = s.hostRaced := rfl
@[simp] theorem errorStep_freeCtr (s : State) (e : ErrCode) (info : Word) : (s.errorStep e info).freeCtr = s.freeCtr := rfl

@[simp] theorem clear_params (s : State) : (s.clear).params = s.params := rfl
@[simp] theorem clear_cp (s : State) : (s.clear).cp = s.cp := rfl
@[simp] theorem clear_ie (s : State) : (s.clear).ie = s.ie := rfl
@[simp] theorem clear_seq (s : State) : (s.clear).seq = .idle := rfl
@[simp] theorem clear_err (s : State) : (s.clear).err = ⟨none, 0, 0⟩ := rfl
@[simp] theorem clear_cmdCnt (s : State) : (s.clear).cmdCnt = s.cmdCnt := rfl
@[simp] theorem clear_res (s : State) : (s.clear).res = s.res := rfl
@[simp] theorem clear_lutMax (s : State) : (s.clear).lutMax = s.lutMax := rfl
@[simp] theorem clear_valid (s : State) : (s.clear).valid = s.valid := rfl
@[simp] theorem clear_reader (s : State) : (s.clear).reader = s.reader := rfl
@[simp] theorem clear_writer (s : State) : (s.clear).writer = s.writer := rfl
@[simp] theorem clear_bitmap (s : State) : (s.clear).bitmap = s.bitmap := rfl
@[simp] theorem clear_lut (s : State) : (s.clear).lut = s.lut := rfl
@[simp] theorem clear_pack (s : State) : (s.clear).pack = s.pack := rfl
@[simp] theorem clear_dec (s : State) : (s.clear).dec = s.dec := rfl
@[simp] theorem clear_dmem (s : State) : (s.clear).dmem = s.dmem := rfl
@[simp] theorem clear_hostTurns (s : State) : (s.clear).hostTurns = s.hostTurns := rfl
@[simp] theorem clear_hostData (s : State) : (s.clear).hostData = s.hostData := rfl
@[simp] theorem clear_hostRaced (s : State) : (s.clear).hostRaced = s.hostRaced := rfl
@[simp] theorem clear_freeCtr (s : State) : (s.clear).freeCtr = s.freeCtr := rfl

@[simp] theorem startChain_params (s : State) : (s.startChain).params = s.params := rfl
@[simp] theorem startChain_cp (s : State) : (s.startChain).cp = s.cp := rfl
@[simp] theorem startChain_ie (s : State) : (s.startChain).ie = s.ie := rfl
@[simp] theorem startChain_seq (s : State) : (s.startChain).seq = .running := rfl
@[simp] theorem startChain_err (s : State) : (s.startChain).err = ⟨none, 0, 0⟩ := rfl
@[simp] theorem startChain_cmdCnt (s : State) : (s.startChain).cmdCnt = 0 := rfl
@[simp] theorem startChain_res (s : State) : (s.startChain).res = s.res := rfl
@[simp] theorem startChain_lutMax (s : State) : (s.startChain).lutMax = s.lutMax := rfl
@[simp] theorem startChain_valid (s : State) : (s.startChain).valid = s.valid := rfl
@[simp] theorem startChain_reader (s : State) : (s.startChain).reader = s.reader := rfl
@[simp] theorem startChain_writer (s : State) : (s.startChain).writer = s.writer := rfl
@[simp] theorem startChain_bitmap (s : State) : (s.startChain).bitmap = s.bitmap := rfl
@[simp] theorem startChain_lut (s : State) : (s.startChain).lut = s.lut := rfl
@[simp] theorem startChain_pack (s : State) : (s.startChain).pack = s.pack := rfl
@[simp] theorem startChain_dec (s : State) : (s.startChain).dec = s.dec := rfl
@[simp] theorem startChain_dmem (s : State) : (s.startChain).dmem = s.dmem := rfl
@[simp] theorem startChain_hostTurns (s : State) : (s.startChain).hostTurns = s.hostTurns := rfl
@[simp] theorem startChain_hostData (s : State) : (s.startChain).hostData = s.hostData := rfl
@[simp] theorem startChain_hostRaced (s : State) : (s.startChain).hostRaced = false := rfl
@[simp] theorem startChain_freeCtr (s : State) : (s.startChain).freeCtr = s.freeCtr := rfl

@[simp] theorem retire_params (s : State) : (s.retire).params = s.params := rfl
@[simp] theorem retire_cp (s : State) : (s.retire).cp = s.cp + 32 := rfl
@[simp] theorem retire_ie (s : State) : (s.retire).ie = s.ie := rfl
@[simp] theorem retire_seq (s : State) : (s.retire).seq = s.seq := rfl
@[simp] theorem retire_err (s : State) : (s.retire).err = s.err := rfl
@[simp] theorem retire_cmdCnt (s : State) : (s.retire).cmdCnt = s.cmdCnt + 1 := rfl
@[simp] theorem retire_res (s : State) : (s.retire).res = s.res := rfl
@[simp] theorem retire_lutMax (s : State) : (s.retire).lutMax = s.lutMax := rfl
@[simp] theorem retire_valid (s : State) : (s.retire).valid = s.valid := rfl
@[simp] theorem retire_reader (s : State) : (s.retire).reader = s.reader := rfl
@[simp] theorem retire_writer (s : State) : (s.retire).writer = s.writer := rfl
@[simp] theorem retire_bitmap (s : State) : (s.retire).bitmap = s.bitmap := rfl
@[simp] theorem retire_lut (s : State) : (s.retire).lut = s.lut := rfl
@[simp] theorem retire_pack (s : State) : (s.retire).pack = s.pack := rfl
@[simp] theorem retire_dec (s : State) : (s.retire).dec = s.dec := rfl
@[simp] theorem retire_dmem (s : State) : (s.retire).dmem = s.dmem := rfl
@[simp] theorem retire_hostTurns (s : State) : (s.retire).hostTurns = s.hostTurns := rfl
@[simp] theorem retire_hostData (s : State) : (s.retire).hostData = s.hostData := rfl
@[simp] theorem retire_hostRaced (s : State) : (s.retire).hostRaced = s.hostRaced := rfl
@[simp] theorem retire_freeCtr (s : State) : (s.retire).freeCtr = s.freeCtr := rfl

@[simp] theorem setRes0_params (s : State) (v : Word) : (s.setRes0 v).params = s.params := rfl
@[simp] theorem setRes0_cp (s : State) (v : Word) : (s.setRes0 v).cp = s.cp := rfl
@[simp] theorem setRes0_ie (s : State) (v : Word) : (s.setRes0 v).ie = s.ie := rfl
@[simp] theorem setRes0_seq (s : State) (v : Word) : (s.setRes0 v).seq = s.seq := rfl
@[simp] theorem setRes0_err (s : State) (v : Word) : (s.setRes0 v).err = s.err := rfl
@[simp] theorem setRes0_cmdCnt (s : State) (v : Word) : (s.setRes0 v).cmdCnt = s.cmdCnt := rfl
@[simp] theorem setRes0_res (s : State) (v : Word) : (s.setRes0 v).res = { s.res with r0 := v } := rfl
@[simp] theorem setRes0_lutMax (s : State) (v : Word) : (s.setRes0 v).lutMax = s.lutMax := rfl
@[simp] theorem setRes0_valid (s : State) (v : Word) : (s.setRes0 v).valid = s.valid := rfl
@[simp] theorem setRes0_reader (s : State) (v : Word) : (s.setRes0 v).reader = s.reader := rfl
@[simp] theorem setRes0_writer (s : State) (v : Word) : (s.setRes0 v).writer = s.writer := rfl
@[simp] theorem setRes0_bitmap (s : State) (v : Word) : (s.setRes0 v).bitmap = s.bitmap := rfl
@[simp] theorem setRes0_lut (s : State) (v : Word) : (s.setRes0 v).lut = s.lut := rfl
@[simp] theorem setRes0_pack (s : State) (v : Word) : (s.setRes0 v).pack = s.pack := rfl
@[simp] theorem setRes0_dec (s : State) (v : Word) : (s.setRes0 v).dec = s.dec := rfl
@[simp] theorem setRes0_dmem (s : State) (v : Word) : (s.setRes0 v).dmem = s.dmem := rfl
@[simp] theorem setRes0_hostTurns (s : State) (v : Word) : (s.setRes0 v).hostTurns = s.hostTurns := rfl
@[simp] theorem setRes0_hostData (s : State) (v : Word) : (s.setRes0 v).hostData = s.hostData := rfl
@[simp] theorem setRes0_hostRaced (s : State) (v : Word) : (s.setRes0 v).hostRaced = s.hostRaced := rfl
@[simp] theorem setRes0_freeCtr (s : State) (v : Word) : (s.setRes0 v).freeCtr = s.freeCtr := rfl

@[simp] theorem setLut_params (s : State) (t : LutRam) (kind : Bool) : (s.setLut t kind).params = s.params := rfl
@[simp] theorem setLut_cp (s : State) (t : LutRam) (kind : Bool) : (s.setLut t kind).cp = s.cp := rfl
@[simp] theorem setLut_ie (s : State) (t : LutRam) (kind : Bool) : (s.setLut t kind).ie = s.ie := rfl
@[simp] theorem setLut_seq (s : State) (t : LutRam) (kind : Bool) : (s.setLut t kind).seq = s.seq := rfl
@[simp] theorem setLut_err (s : State) (t : LutRam) (kind : Bool) : (s.setLut t kind).err = s.err := rfl
@[simp] theorem setLut_cmdCnt (s : State) (t : LutRam) (kind : Bool) : (s.setLut t kind).cmdCnt = s.cmdCnt := rfl
@[simp] theorem setLut_res (s : State) (t : LutRam) (kind : Bool) : (s.setLut t kind).res = { s.res with r0 := u32 (lutMaximum s.bitmap) } := rfl
@[simp] theorem setLut_lutMax (s : State) (t : LutRam) (kind : Bool) : (s.setLut t kind).lutMax = BitVec.ofNat 16 (lutMaximum s.bitmap) := rfl
@[simp] theorem setLut_valid (s : State) (t : LutRam) (kind : Bool) : (s.setLut t kind).valid = { s.valid with lutv := true, lutk := kind } := rfl
@[simp] theorem setLut_reader (s : State) (t : LutRam) (kind : Bool) : (s.setLut t kind).reader = s.reader := rfl
@[simp] theorem setLut_writer (s : State) (t : LutRam) (kind : Bool) : (s.setLut t kind).writer = s.writer := rfl
@[simp] theorem setLut_bitmap (s : State) (t : LutRam) (kind : Bool) : (s.setLut t kind).bitmap = s.bitmap := rfl
@[simp] theorem setLut_lut (s : State) (t : LutRam) (kind : Bool) : (s.setLut t kind).lut = t := rfl
@[simp] theorem setLut_pack (s : State) (t : LutRam) (kind : Bool) : (s.setLut t kind).pack = s.pack := rfl
@[simp] theorem setLut_dec (s : State) (t : LutRam) (kind : Bool) : (s.setLut t kind).dec = s.dec := rfl
@[simp] theorem setLut_dmem (s : State) (t : LutRam) (kind : Bool) : (s.setLut t kind).dmem = s.dmem := rfl
@[simp] theorem setLut_hostTurns (s : State) (t : LutRam) (kind : Bool) : (s.setLut t kind).hostTurns = s.hostTurns := rfl
@[simp] theorem setLut_hostData (s : State) (t : LutRam) (kind : Bool) : (s.setLut t kind).hostData = s.hostData := rfl
@[simp] theorem setLut_hostRaced (s : State) (t : LutRam) (kind : Bool) : (s.setLut t kind).hostRaced = s.hostRaced := rfl
@[simp] theorem setLut_freeCtr (s : State) (t : LutRam) (kind : Bool) : (s.setLut t kind).freeCtr = s.freeCtr := rfl

@[simp] theorem hufFail_params (s : State) (dst nout : Nat) (e : ErrCode) (info : Word) : (s.hufFail dst nout e info).params = s.params := rfl
@[simp] theorem hufFail_cp (s : State) (dst nout : Nat) (e : ErrCode) (info : Word) : (s.hufFail dst nout e info).cp = s.cp := rfl
@[simp] theorem hufFail_ie (s : State) (dst nout : Nat) (e : ErrCode) (info : Word) : (s.hufFail dst nout e info).ie = s.ie := rfl
@[simp] theorem hufFail_seq (s : State) (dst nout : Nat) (e : ErrCode) (info : Word) : (s.hufFail dst nout e info).seq = .error e.cls := rfl
@[simp] theorem hufFail_err (s : State) (dst nout : Nat) (e : ErrCode) (info : Word) : (s.hufFail dst nout e info).err = ⟨some e, info, s.cp⟩ := rfl
@[simp] theorem hufFail_cmdCnt (s : State) (dst nout : Nat) (e : ErrCode) (info : Word) : (s.hufFail dst nout e info).cmdCnt = s.cmdCnt := rfl
@[simp] theorem hufFail_res (s : State) (dst nout : Nat) (e : ErrCode) (info : Word) : (s.hufFail dst nout e info).res = s.res := rfl
@[simp] theorem hufFail_lutMax (s : State) (dst nout : Nat) (e : ErrCode) (info : Word) : (s.hufFail dst nout e info).lutMax = s.lutMax := rfl
@[simp] theorem hufFail_valid (s : State) (dst nout : Nat) (e : ErrCode) (info : Word) : (s.hufFail dst nout e info).valid = { s.valid with hufv := false } := rfl
@[simp] theorem hufFail_reader (s : State) (dst nout : Nat) (e : ErrCode) (info : Word) : (s.hufFail dst nout e info).reader = s.reader := rfl
@[simp] theorem hufFail_writer (s : State) (dst nout : Nat) (e : ErrCode) (info : Word) : (s.hufFail dst nout e info).writer = s.writer := rfl
@[simp] theorem hufFail_bitmap (s : State) (dst nout : Nat) (e : ErrCode) (info : Word) : (s.hufFail dst nout e info).bitmap = s.bitmap := rfl
@[simp] theorem hufFail_lut (s : State) (dst nout : Nat) (e : ErrCode) (info : Word) : (s.hufFail dst nout e info).lut = s.lut := rfl
@[simp] theorem hufFail_pack (s : State) (dst nout : Nat) (e : ErrCode) (info : Word) : (s.hufFail dst nout e info).pack = Config.freePack s.freeCtr := rfl
@[simp] theorem hufFail_dec (s : State) (dst nout : Nat) (e : ErrCode) (info : Word) : (s.hufFail dst nout e info).dec = Config.freeDec s.freeCtr := rfl
@[simp] theorem hufFail_dmem (s : State) (dst nout : Nat) (e : ErrCode) (info : Word) : (s.hufFail dst nout e info).dmem = s.dmem.freeRange s.freeCtr dst (2 * nout) := rfl
@[simp] theorem hufFail_hostTurns (s : State) (dst nout : Nat) (e : ErrCode) (info : Word) : (s.hufFail dst nout e info).hostTurns = s.hostTurns := rfl
@[simp] theorem hufFail_hostData (s : State) (dst nout : Nat) (e : ErrCode) (info : Word) : (s.hufFail dst nout e info).hostData = s.hostData := rfl
@[simp] theorem hufFail_hostRaced (s : State) (dst nout : Nat) (e : ErrCode) (info : Word) : (s.hufFail dst nout e info).hostRaced = s.hostRaced := rfl
@[simp] theorem hufFail_freeCtr (s : State) (dst nout : Nat) (e : ErrCode) (info : Word) : (s.hufFail dst nout e info).freeCtr = s.freeCtr + 1 := rfl

@[simp] theorem softReset_params (s : State) : (s.softReset).params = s.params := rfl
@[simp] theorem softReset_cp (s : State) : (s.softReset).cp = (State.resetWith s.params).cp := rfl
@[simp] theorem softReset_ie (s : State) : (s.softReset).ie = (State.resetWith s.params).ie := rfl
@[simp] theorem softReset_seq (s : State) : (s.softReset).seq = (State.resetWith s.params).seq := rfl
@[simp] theorem softReset_err (s : State) : (s.softReset).err = (State.resetWith s.params).err := rfl
@[simp] theorem softReset_cmdCnt (s : State) : (s.softReset).cmdCnt = (State.resetWith s.params).cmdCnt := rfl
@[simp] theorem softReset_res (s : State) : (s.softReset).res = (State.resetWith s.params).res := rfl
@[simp] theorem softReset_lutMax (s : State) : (s.softReset).lutMax = (State.resetWith s.params).lutMax := rfl
@[simp] theorem softReset_valid (s : State) : (s.softReset).valid = (State.resetWith s.params).valid := rfl
@[simp] theorem softReset_reader (s : State) : (s.softReset).reader = (State.resetWith s.params).reader := rfl
@[simp] theorem softReset_writer (s : State) : (s.softReset).writer = (State.resetWith s.params).writer := rfl
@[simp] theorem softReset_bitmap (s : State) : (s.softReset).bitmap = (State.resetWith s.params).bitmap := rfl
@[simp] theorem softReset_lut (s : State) : (s.softReset).lut = (State.resetWith s.params).lut := rfl
@[simp] theorem softReset_pack (s : State) : (s.softReset).pack = (State.resetWith s.params).pack := rfl
@[simp] theorem softReset_dec (s : State) : (s.softReset).dec = (State.resetWith s.params).dec := rfl
@[simp] theorem softReset_dmem (s : State) : (s.softReset).dmem = s.dmem := rfl
@[simp] theorem softReset_hostTurns (s : State) : (s.softReset).hostTurns = s.hostTurns := rfl
@[simp] theorem softReset_hostData (s : State) : (s.softReset).hostData = s.hostData := rfl
@[simp] theorem softReset_hostRaced (s : State) : (s.softReset).hostRaced = (State.resetWith s.params).hostRaced := rfl
@[simp] theorem softReset_freeCtr (s : State) : (s.softReset).freeCtr = s.freeCtr := rfl

@[simp] theorem commit_params (s : State) (m : Memory) (ws : List (Nat × Nat)) : (s.commit m ws).params = s.params := by unfold State.commit; split <;> rfl
@[simp] theorem commit_cp (s : State) (m : Memory) (ws : List (Nat × Nat)) : (s.commit m ws).cp = s.cp := by unfold State.commit; split <;> rfl
@[simp] theorem commit_ie (s : State) (m : Memory) (ws : List (Nat × Nat)) : (s.commit m ws).ie = s.ie := by unfold State.commit; split <;> rfl
@[simp] theorem commit_seq (s : State) (m : Memory) (ws : List (Nat × Nat)) : (s.commit m ws).seq = s.seq := by unfold State.commit; split <;> rfl
@[simp] theorem commit_err (s : State) (m : Memory) (ws : List (Nat × Nat)) : (s.commit m ws).err = s.err := by unfold State.commit; split <;> rfl
@[simp] theorem commit_cmdCnt (s : State) (m : Memory) (ws : List (Nat × Nat)) : (s.commit m ws).cmdCnt = s.cmdCnt := by unfold State.commit; split <;> rfl
@[simp] theorem commit_res (s : State) (m : Memory) (ws : List (Nat × Nat)) : (s.commit m ws).res = s.res := by unfold State.commit; split <;> rfl
@[simp] theorem commit_lutMax (s : State) (m : Memory) (ws : List (Nat × Nat)) : (s.commit m ws).lutMax = s.lutMax := by unfold State.commit; split <;> rfl
@[simp] theorem commit_valid (s : State) (m : Memory) (ws : List (Nat × Nat)) : (s.commit m ws).valid = s.valid := by unfold State.commit; split <;> rfl
@[simp] theorem commit_reader (s : State) (m : Memory) (ws : List (Nat × Nat)) : (s.commit m ws).reader = s.reader := by unfold State.commit; split <;> rfl
@[simp] theorem commit_writer (s : State) (m : Memory) (ws : List (Nat × Nat)) : (s.commit m ws).writer = s.writer := by unfold State.commit; split <;> rfl
@[simp] theorem commit_bitmap (s : State) (m : Memory) (ws : List (Nat × Nat)) : (s.commit m ws).bitmap = s.bitmap := by unfold State.commit; split <;> rfl
@[simp] theorem commit_lut (s : State) (m : Memory) (ws : List (Nat × Nat)) : (s.commit m ws).lut = s.lut := by unfold State.commit; split <;> rfl
@[simp] theorem commit_pack (s : State) (m : Memory) (ws : List (Nat × Nat)) : (s.commit m ws).pack = s.pack := by unfold State.commit; split <;> rfl
@[simp] theorem commit_dec (s : State) (m : Memory) (ws : List (Nat × Nat)) : (s.commit m ws).dec = s.dec := by unfold State.commit; split <;> rfl
@[simp] theorem commit_dmem (s : State) (m : Memory) (ws : List (Nat × Nat)) :
    (s.commit m ws).dmem = if s.hostRaced then m.freeRanges s.freeCtr ws else m := by unfold State.commit; split <;> rfl
@[simp] theorem commit_hostTurns (s : State) (m : Memory) (ws : List (Nat × Nat)) : (s.commit m ws).hostTurns = s.hostTurns := by unfold State.commit; split <;> rfl
@[simp] theorem commit_hostData (s : State) (m : Memory) (ws : List (Nat × Nat)) : (s.commit m ws).hostData = s.hostData := by unfold State.commit; split <;> rfl
@[simp] theorem commit_hostRaced (s : State) (m : Memory) (ws : List (Nat × Nat)) : (s.commit m ws).hostRaced = s.hostRaced := by unfold State.commit; split <;> rfl
@[simp] theorem commit_freeCtr (s : State) (m : Memory) (ws : List (Nat × Nat)) :
    (s.commit m ws).freeCtr = if s.hostRaced then s.freeCtr + 1 else s.freeCtr := by unfold State.commit; split <;> rfl

@[simp] theorem hufDone_params (s : State) (dst nout : Nat) (b : HufBlock) : (s.hufDone dst nout b).params = s.params := commit_params s _ _
@[simp] theorem hufDone_cp (s : State) (dst nout : Nat) (b : HufBlock) : (s.hufDone dst nout b).cp = s.cp := commit_cp s _ _
@[simp] theorem hufDone_ie (s : State) (dst nout : Nat) (b : HufBlock) : (s.hufDone dst nout b).ie = s.ie := commit_ie s _ _
@[simp] theorem hufDone_seq (s : State) (dst nout : Nat) (b : HufBlock) : (s.hufDone dst nout b).seq = s.seq := commit_seq s _ _
@[simp] theorem hufDone_err (s : State) (dst nout : Nat) (b : HufBlock) : (s.hufDone dst nout b).err = s.err := commit_err s _ _
@[simp] theorem hufDone_cmdCnt (s : State) (dst nout : Nat) (b : HufBlock) : (s.hufDone dst nout b).cmdCnt = s.cmdCnt := commit_cmdCnt s _ _
@[simp] theorem hufDone_res (s : State) (dst nout : Nat) (b : HufBlock) :
    (s.hufDone dst nout b).res = ⟨u32 b.header.dMin, u32 b.header.dMax, u32 b.header.tableLength, u32 b.header.payloadBits⟩ := rfl
@[simp] theorem hufDone_lutMax (s : State) (dst nout : Nat) (b : HufBlock) : (s.hufDone dst nout b).lutMax = s.lutMax := commit_lutMax s _ _
@[simp] theorem hufDone_valid (s : State) (dst nout : Nat) (b : HufBlock) : (s.hufDone dst nout b).valid = { s.valid with hufv := true } := rfl
@[simp] theorem hufDone_reader (s : State) (dst nout : Nat) (b : HufBlock) : (s.hufDone dst nout b).reader = s.reader := commit_reader s _ _
@[simp] theorem hufDone_writer (s : State) (dst nout : Nat) (b : HufBlock) : (s.hufDone dst nout b).writer = s.writer := commit_writer s _ _
@[simp] theorem hufDone_bitmap (s : State) (dst nout : Nat) (b : HufBlock) : (s.hufDone dst nout b).bitmap = s.bitmap := commit_bitmap s _ _
@[simp] theorem hufDone_lut (s : State) (dst nout : Nat) (b : HufBlock) : (s.hufDone dst nout b).lut = s.lut := commit_lut s _ _
@[simp] theorem hufDone_pack (s : State) (dst nout : Nat) (b : HufBlock) : (s.hufDone dst nout b).pack = b.packs := rfl
@[simp] theorem hufDone_dec (s : State) (dst nout : Nat) (b : HufBlock) : (s.hufDone dst nout b).dec = b.dec := rfl
@[simp] theorem hufDone_dmem (s : State) (dst nout : Nat) (b : HufBlock) :
    (s.hufDone dst nout b).dmem = (s.commit (s.dmem.writeSamples dst b.samples) [(dst, 2 * nout)]).dmem := rfl
@[simp] theorem hufDone_hostTurns (s : State) (dst nout : Nat) (b : HufBlock) : (s.hufDone dst nout b).hostTurns = s.hostTurns := commit_hostTurns s _ _
@[simp] theorem hufDone_hostData (s : State) (dst nout : Nat) (b : HufBlock) : (s.hufDone dst nout b).hostData = s.hostData := commit_hostData s _ _
@[simp] theorem hufDone_hostRaced (s : State) (dst nout : Nat) (b : HufBlock) : (s.hufDone dst nout b).hostRaced = s.hostRaced := commit_hostRaced s _ _
@[simp] theorem hufDone_freeCtr (s : State) (dst nout : Nat) (b : HufBlock) :
    (s.hufDone dst nout b).freeCtr = (s.commit (s.dmem.writeSamples dst b.samples) [(dst, 2 * nout)]).freeCtr := rfl

end Sys2Proof.Machine
end

