-- ==== Sys2Proof/Laws/Ops.lean ====
section
/-!
SUPPORT. What each shared operation does, said once: the error step, the commit of a command's writes, the sample-buffer check, the
fetch and the placing of a descriptor.
-/

namespace Sys2Proof.Machine

@[simp] theorem raise_eq (e : ErrCode) (info : Word) (s : State) : raise e info s = .next (s.errorStep e info) := rfl

/-! The commit (log 8). -/

/-- With no host write under the chain, a commit stores the command's DMEM and does nothing else. -/
theorem commit_clean {s : State} (h : s.hostRaced = false) (m : Memory) (ws : List (Nat × Nat)) :
    s.commit m ws = { s with dmem := m } := by
  rw [State.commit, h]
  rfl

theorem wf_commit (s : State) {m : Memory} (hm : m.wf = true) (ws : List (Nat × Nat)) :
    (s.commit m ws).dmem.wf = true := by
  rw [commit_dmem]
  split
  · exact wf_freeRanges hm _ _
  · exact hm

theorem below_commit {s : State} {k : Nat} {m : Memory} (hm : m.below k = true) {ws : List (Nat × Nat)}
    (hw : ∀ w ∈ ws, w.2 = 0 ∨ w.1 + w.2 ≤ k) : (s.commit m ws).dmem.below k = true := by
  rw [commit_dmem]
  split
  · exact below_freeRanges hm _ hw
  · exact hm

/-- A commit leaves every byte outside its ranges as the command's DMEM has it. -/
theorem read_commit_other {s : State} {m : Memory} (hm : m.wf = true) {ws : List (Nat × Nat)} {x : Nat}
    (hx : ∀ w ∈ ws, ¬ InBytes x w.1 w.2) : (s.commit m ws).dmem.read x = m.read x := by
  rw [commit_dmem]
  split
  · exact read_freeRanges hm _ hx
  · rfl

/-! The sample-buffer check (42_bitmap_lut.md). -/

theorem checkSamples_none (s : State) (base count : Nat) :
    checkSamples s base count = none ↔ base % 2 = 0 ∧ s.inRange base (2 * count) := by
  unfold checkSamples
  by_cases h1 : base % 2 = 0 <;> by_cases h2 : s.inRange base (2 * count) <;> simp [h1, h2]

/-- What the check raises when it raises. -/
theorem checkSamples_some {s : State} {base count : Nat} {r : Raise} (h : checkSamples s base count = some r) :
    (base % 2 ≠ 0 ∧ r = (.pAlign, u32 base)) ∨ (base % 2 = 0 ∧ ¬ s.inRange base (2 * count) ∧ r = (.pRange, u32 base)) := by
  unfold checkSamples at h
  split at h
  · exact Or.inl ⟨‹_›, (Option.some.inj h).symm⟩
  · split at h
    · exact Or.inr ⟨by omega, ‹_›, (Option.some.inj h).symm⟩
    · cases h

/-! The fetch (R68). -/

theorem length_fetchBytes (m : Memory) (a : Nat) : (fetchBytes m a).length = 32 := by
  simp [fetchBytes]

/-- A fetch that decodes, and its three failures, in the order of R68. -/
theorem fetch_of_decode {s : State} (ha : s.cp.toNat % 4 = 0) (hr : s.cp.toNat + 32 ≤ s.params.dmemSize) {i : Instr}
    {rest : List Byte} (hd : decode (fetchBytes s.dmem s.cp.toNat) = .ok (i, rest)) : s.fetch = .ok i := by
  rw [State.fetch, if_neg (by omega), if_neg (by omega), hd]

theorem fetch_unaligned {s : State} (ha : s.cp.toNat % 4 ≠ 0) : s.fetch = .error (.pAlign, s.cp) := by
  rw [State.fetch, if_pos ha]

theorem fetch_outside {s : State} (ha : s.cp.toNat % 4 = 0) (hr : s.params.dmemSize < s.cp.toNat + 32) :
    s.fetch = .error (.pRange, s.cp) := by
  rw [State.fetch, if_neg (by omega), if_pos hr]

theorem fetch_illegal {s : State} (ha : s.cp.toNat % 4 = 0) (hr : s.cp.toNat + 32 ≤ s.params.dmemSize) {e : DecodeError}
    (hd : decode (fetchBytes s.dmem s.cp.toNat) = .error e) : s.fetch = .error (.pBadop, u32 (s.dmem.readLE s.cp.toNat 4)) := by
  rw [State.fetch, if_neg (by omega), if_neg (by omega), hd]

theorem writeList_eq_writeBytes {m : Memory} (h : m.wf = true) (a : Nat) (bs : List Byte) (x : Nat) :
    (m.writeList a bs).read x = if InBytes x a bs.length then bs.getD (x - a) 0 else m.read x := by
  induction bs generalizing m a with
  | nil => rw [if_neg (by simp)]; rfl
  | cons b bs ih =>
    rw [Memory.writeList, ih (wf_write h _ _), read_write h, List.length_cons]
    by_cases hx : x = a
    · subst hx
      rw [if_neg (by omega), if_pos rfl, if_pos (by omega), Nat.sub_self]
      rfl
    · rw [if_neg hx]
      by_cases hr : InBytes x (a + 1) bs.length
      · rw [if_pos hr, if_pos (by omega), show x - a = (x - (a + 1)) + 1 by omega]
        rfl
      · rw [if_neg hr, if_neg (by omega)]

/-- A descriptor placed at `a` is the descriptor fetched there. -/
theorem fetchBytes_writeList {m : Memory} (h : m.wf = true) (a : Nat) (bs : List Byte) (hl : bs.length = 32) :
    fetchBytes (m.writeList a bs) a = bs := by
  apply List.ext_getElem
  · rw [length_fetchBytes, hl]
  · intro i h1 h2
    simp only [fetchBytes, List.getElem_map, List.getElem_range]
    rw [writeList_eq_writeBytes h, if_pos (by omega), Nat.add_sub_cancel_left]
    exact List.getD_eq_getElem _ _ h2

end Sys2Proof.Machine
end

