-- ==== Sys2Proof/Laws/BitIO.lean ====
section
/-!
SUPPORT. The laws of the bit I/O engine's operations: the bytes a read writes and the bits a write writes.
-/

namespace Sys2Proof.Machine

/-- Bit `7 - j` of output byte `i` of a read is stream bit `pos + 8*i + j`, or 0 from the `t`-th bit on (R76). -/
theorem getLsbD_readByte (m : Memory) (base pos t i : Nat) {j : Nat} (hj : j < 8) :
    (readByte m base pos t i).getLsbD (7 - j) = (decide (8 * i + j < t) && m.streamBit base (pos + (8 * i + j))) := by
  have key : ∀ n, n ≤ 8 → ((List.range n).foldl
      (fun b j => if 8 * i + j < t ∧ m.streamBit base (pos + (8 * i + j)) then b ||| (1#8 <<< (7 - j)) else b) (0 : Byte)).getLsbD
        (7 - j) = (decide (j < n) && (decide (8 * i + j < t) && m.streamBit base (pos + (8 * i + j)))) := by
    intro n hn
    induction n with
    | zero => simp
    | succ n ih =>
      rw [List.range_succ, List.foldl_append, List.foldl_cons, List.foldl_nil]
      have hs : ((1#8 <<< (7 - n)).getLsbD (7 - j)) = decide (j = n) := by
        rw [BitVec.getLsbD_shiftLeft, BitVec.getLsbD_one]
        by_cases h : j = n <;> simp [h] <;> omega
      have hih := ih (by omega)
      by_cases hc : 8 * i + n < t ∧ m.streamBit base (pos + (8 * i + n)) = true
      · rw [if_pos hc, BitVec.getLsbD_or, hih, hs]
        by_cases h : j = n
        · subst h
          simp [hc]
        · simp [h, show j < n + 1 ↔ j < n by omega]
      · rw [if_neg hc, hih]
        by_cases h : j = n
        · subst h
          have : (decide (8 * i + j < t) && m.streamBit base (pos + (8 * i + j))) = false := by
            rw [Bool.and_eq_false_iff]
            by_cases ht : 8 * i + j < t
            · right
              simpa [ht] using hc
            · left
              simp [ht]
          rw [this]
          simp
        · simp [show j < n + 1 ↔ j < n by omega]
  have := key 8 (by omega)
  rwa [decide_eq_true (by omega : j < 8), Bool.true_and] at this

theorem writeBits_succ (m : Memory) (base pos src k : Nat) :
    writeBits m base pos src (k + 1) =
      (writeBits m base pos src k).setStreamBit base (pos + k) ((writeBits m base pos src k).streamBit src k) := by
  simp [writeBits, List.range_succ]

theorem wf_writeBits {m : Memory} (h : m.wf = true) (base pos src k : Nat) : (writeBits m base pos src k).wf = true := by
  induction k with
  | zero => exact h
  | succ k ih => rw [writeBits_succ]; exact wf_setStreamBit ih _ _ _

/-- The bytes of a write of bits. -/
theorem inBytes_writeBitsRange (base pos k x : Nat) :
    InBytes x (writeBitsRange base pos k).1 (writeBitsRange base pos k).2 ↔
      0 < k ∧ base + pos / 8 ≤ x ∧ x < base + (pos + k + 7) / 8 := by
  simp only [writeBitsRange, ceil8]
  split <;> omega

/-- A write of bits touches no byte outside its range. -/
theorem read_writeBits_other {m : Memory} (h : m.wf = true) (base pos src k : Nat) {x : Nat}
    (hx : ¬ InBytes x (writeBitsRange base pos k).1 (writeBitsRange base pos k).2) :
    (writeBits m base pos src k).read x = m.read x := by
  induction k with
  | zero => rfl
  | succ k ih =>
    rw [inBytes_writeBitsRange] at hx ih
    rw [writeBits_succ, Memory.setStreamBit, read_write (wf_writeBits h _ _ _ _), if_neg (by omega)]
    exact ih (by omega)

theorem below_writeBits {m : Memory} {n : Nat} (h : m.below n = true) (base pos src k : Nat)
    (hk : k = 0 ∨ base + ceil8 (pos + k) ≤ n) : (writeBits m base pos src k).below n = true := by
  simp only [ceil8] at hk
  induction k with
  | zero => exact h
  | succ k ih =>
    rw [writeBits_succ]
    exact below_write (ih (by omega)) (by omega) _

/-- What a write of bits leaves in every bit of the stream it writes, when the source lies elsewhere (R82). -/
theorem streamBit_writeBits {m : Memory} (h : m.wf = true) (base pos src k : Nat)
    (hs : ∀ j < k, ¬ InBytes (src + j / 8) (writeBitsRange base pos k).1 (writeBitsRange base pos k).2) (q : Nat) :
    (writeBits m base pos src k).streamBit base q =
      if pos ≤ q ∧ q < pos + k then m.streamBit src (q - pos) else m.streamBit base q := by
  have key : ∀ n, n ≤ k → (writeBits m base pos src n).streamBit base q =
      if pos ≤ q ∧ q < pos + n then m.streamBit src (q - pos) else m.streamBit base q := by
    intro n hn
    induction n with
    | zero => rw [if_neg (by omega)]; rfl
    | succ n ih =>
      have hsrc : (writeBits m base pos src n).streamBit src n = m.streamBit src n := by
        have hne := hs n (by omega)
        rw [inBytes_writeBitsRange] at hne
        refine streamBit_congr (read_writeBits_other h _ _ _ _ ?_)
        rw [inBytes_writeBitsRange]
        omega
      rw [writeBits_succ, streamBit_setStreamBit (wf_writeBits h _ _ _ _), hsrc, ih (by omega)]
      by_cases hq : q = pos + n
      · rw [if_pos hq, if_pos (by omega), hq, Nat.add_sub_cancel_left]
      · rw [if_neg hq]
        by_cases hr : pos ≤ q ∧ q < pos + n
        · rw [if_pos hr, if_pos (by omega)]
        · rw [if_neg hr, if_neg (by omega)]
  exact key k (Nat.le_refl k)

/-- The cursor after a read stays within the stream (R33). -/
theorem advance_ok {r : BitReader} (h : r.pos.toNat ≤ r.n.toNat) (k : Nat) :
    (r.advance k).pos.toNat = min (r.pos.toNat + k) r.n.toNat := by
  have := r.n.isLt
  simp only [BitReader.advance, BitVec.toNat_add, BitVec.toNat_ofNat]
  omega

/-- The operand `k`: none when it is negative, else its value (R58). -/
theorem operandK_none (w : Word) : operandK w = none ↔ w.toInt < 0 := by
  unfold operandK
  split <;> simp_all

theorem operandK_some {w : Word} {k : Nat} (h : operandK w = some k) : k = w.toNat ∧ k < 2 ^ 31 := by
  unfold operandK at h
  split at h
  · cases h
  · cases h
    refine ⟨rfl, ?_⟩
    have hlt := w.isLt
    have hi := BitVec.toInt_eq_toNat_cond w
    split at hi <;> omega

end Sys2Proof.Machine
end

