-- ==== Sys2Proof/Laws/Tables.lean ====
section
/-!
SUPPORT. The laws of the internal tables: reading after writing an entry or a block of entries, the canonical form, what the
listing of indices lists, and from them what the bitmap's functions compute.
-/

namespace Sys2Proof.Machine

variable {α : Type}

/-! Reading. -/

@[simp] theorem get_leaf (a : α) (d i : Nat) : (Tab.leaf a).get d i = a := rfl

theorem get_succ (t : Tab α) (d i : Nat) : t.get (d + 1) i = if i.testBit d then t.right.get d i else t.left.get d i := by
  cases t with
  | leaf a => simp [Tab.left, Tab.right]
  | node l r => rfl

theorem left_join [DecidableEq α] (l r : Tab α) : (Tab.join l r).left = l := by
  cases l with
  | node l1 l2 => rfl
  | leaf a =>
    cases r with
    | node r1 r2 => rfl
    | leaf b => by_cases h : a = b <;> simp [Tab.join, Tab.left, h]

theorem right_join [DecidableEq α] (l r : Tab α) : (Tab.join l r).right = r := by
  cases l with
  | node l1 l2 => rfl
  | leaf a =>
    cases r with
    | node r1 r2 => rfl
    | leaf b => by_cases h : a = b <;> simp [Tab.join, Tab.right, h]

theorem get_join [DecidableEq α] (l r : Tab α) (d i : Nat) :
    (Tab.join l r).get (d + 1) i = if i.testBit d then r.get d i else l.get d i := by
  rw [get_succ, left_join, right_join]

theorem mod_two_pow_succ_eq (x y n : Nat) :
    x % 2 ^ (n + 1) = y % 2 ^ (n + 1) ↔ x.testBit n = y.testBit n ∧ x % 2 ^ n = y % 2 ^ n := by
  have key : ∀ z : Nat, z % 2 ^ (n + 1) = z % 2 ^ n + 2 ^ n * (z.testBit n).toNat := fun z => by
    rw [Nat.pow_succ, Nat.mod_mul, Nat.toNat_testBit]
  have hx := Nat.mod_lt x (Nat.two_pow_pos n)
  have hy := Nat.mod_lt y (Nat.two_pow_pos n)
  rw [key, key]
  cases x.testBit n <;> cases y.testBit n <;> simp <;> omega

/-- What writing a block of entries leaves in each entry. -/
theorem get_setBlock [DecidableEq α] (n : Nat) (t : Tab α) (c : Nat) (a : α) (k i : Nat) :
    (Tab.setBlock n t c a).get (n + k) i = if i / 2 ^ k % 2 ^ n = c % 2 ^ n then a else t.get (n + k) i := by
  induction n generalizing t with
  | zero => simp [Tab.setBlock, Nat.mod_one]
  | succ n ih =>
    have hb : (i / 2 ^ k).testBit n = i.testBit (n + k) := by
      rw [Nat.testBit_div_two_pow, Nat.add_comm]
    have hm := mod_two_pow_succ_eq (i / 2 ^ k) c n
    rw [hb] at hm
    rw [show n + 1 + k = (n + k) + 1 by omega, Tab.setBlock]
    by_cases hc : c.testBit n = true
    · rw [if_pos hc, get_join, ih, get_succ t]
      by_cases hi : i.testBit (n + k) = true <;> simp [hi, hc, hm]
    · rw [if_neg hc, get_join, ih, get_succ t]
      by_cases hi : i.testBit (n + k) = true <;> simp [hi, hc, hm]

/-- Reading after writing an entry. -/
theorem get_set [DecidableEq α] (t : Tab α) {d i j : Nat} (hi : i < 2 ^ d) (hj : j < 2 ^ d) (a : α) :
    (t.set d i a).get d j = if j = i then a else t.get d j := by
  have h := get_setBlock d t i a 0 j
  simp only [Nat.add_zero, Nat.pow_zero, Nat.div_one, Nat.mod_eq_of_lt hi, Nat.mod_eq_of_lt hj] at h
  exact h

theorem get_set_same [DecidableEq α] (t : Tab α) {d i : Nat} (hi : i < 2 ^ d) (a : α) : (t.set d i a).get d i = a := by
  rw [get_set t hi hi, if_pos rfl]

theorem get_set_other [DecidableEq α] (t : Tab α) {d i j : Nat} (hi : i < 2 ^ d) (hj : j < 2 ^ d) (hij : j ≠ i) (a : α) :
    (t.set d i a).get d j = t.get d j := by
  rw [get_set t hi hj, if_neg hij]

/-! The canonical form. -/

@[simp] theorem wf_leaf [DecidableEq α] (d : Nat) (a : α) : Tab.wf d (.leaf a) = true := by
  cases d <;> rfl

theorem wf_left [DecidableEq α] {d : Nat} {t : Tab α} (h : Tab.wf (d + 1) t = true) : Tab.wf d t.left = true := by
  cases t with
  | leaf a => exact wf_leaf d a
  | node l r => simp [Tab.wf] at h; exact h.1.1

theorem wf_right [DecidableEq α] {d : Nat} {t : Tab α} (h : Tab.wf (d + 1) t = true) : Tab.wf d t.right = true := by
  cases t with
  | leaf a => exact wf_leaf d a
  | node l r => simp [Tab.wf] at h; exact h.1.2

theorem wf_join [DecidableEq α] {d : Nat} {l r : Tab α} (hl : Tab.wf d l = true) (hr : Tab.wf d r = true) :
    Tab.wf (d + 1) (Tab.join l r) = true := by
  cases l with
  | leaf a =>
    cases r with
    | leaf b =>
      by_cases hab : a = b
      · simp [Tab.join, hab]
      · simp [Tab.join, hab, Tab.wf]
    | node r1 r2 => simp [Tab.join, Tab.wf, hr]
  | node l1 l2 => simp [Tab.join, Tab.wf, hl, hr]

/-- Writing a block of entries keeps the canonical form. -/
theorem wf_setBlock [DecidableEq α] (n k : Nat) {t : Tab α} (h : Tab.wf (n + k) t = true) (c : Nat) (a : α) :
    Tab.wf (n + k) (Tab.setBlock n t c a) = true := by
  induction n generalizing t with
  | zero => simp [Tab.setBlock]
  | succ n ih =>
    rw [show n + 1 + k = (n + k) + 1 by omega] at h ⊢
    rw [Tab.setBlock]
    split
    · exact wf_join (wf_left h) (ih (wf_right h))
    · exact wf_join (ih (wf_left h)) (wf_right h)

theorem wf_set [DecidableEq α] {d : Nat} {t : Tab α} (h : Tab.wf d t = true) (i : Nat) (a : α) :
    Tab.wf d (t.set d i a) = true :=
  wf_setBlock d 0 h i a

theorem join_left_right [DecidableEq α] {d : Nat} {t : Tab α} (h : Tab.wf (d + 1) t = true) : Tab.join t.left t.right = t := by
  cases t with
  | leaf a => simp [Tab.left, Tab.right, Tab.join]
  | node l r => simp [Tab.wf] at h; exact h.2

theorem leaf_of_wf_zero [DecidableEq α] {t : Tab α} (h : Tab.wf 0 t = true) : ∃ a, t = .leaf a := by
  cases t with
  | leaf a => exact ⟨a, rfl⟩
  | node l r => simp [Tab.wf] at h

/-- Only the low `d` bits of an index count. -/
theorem get_congr [DecidableEq α] {d : Nat} {t : Tab α} (h : Tab.wf d t = true) {i j : Nat} (hij : i % 2 ^ d = j % 2 ^ d) :
    t.get d i = t.get d j := by
  induction d generalizing t with
  | zero =>
    obtain ⟨a, rfl⟩ := leaf_of_wf_zero h
    rfl
  | succ d ih =>
    obtain ⟨hb, hl⟩ := (mod_two_pow_succ_eq i j d).1 hij
    rw [get_succ, get_succ, hb, ih (wf_right h) hl, ih (wf_left h) hl]

theorem testBit_two_pow_add {d i : Nat} (hi : i < 2 ^ d) : (2 ^ d + i).testBit d = true := by
  rw [Nat.testBit_two_pow_add_eq, Nat.testBit_lt_two_pow hi]
  rfl

theorem get_right [DecidableEq α] {d : Nat} {t : Tab α} (h : Tab.wf (d + 1) t = true) {i : Nat} (hi : i < 2 ^ d) :
    t.right.get d i = t.get (d + 1) (2 ^ d + i) := by
  rw [get_succ, testBit_two_pow_add hi, if_pos rfl]
  exact get_congr (wf_right h) (by simp)

theorem get_left {d : Nat} (t : Tab α) {i : Nat} (hi : i < 2 ^ d) : t.left.get d i = t.get (d + 1) i := by
  rw [get_succ, Nat.testBit_lt_two_pow hi]
  rfl

/-- Tables in the canonical form that read the same are the same. -/
theorem table_ext [DecidableEq α] {d : Nat} {t t' : Tab α} (h : Tab.wf d t = true) (h' : Tab.wf d t' = true)
    (hg : ∀ i < 2 ^ d, t.get d i = t'.get d i) : t = t' := by
  induction d generalizing t t' with
  | zero =>
    obtain ⟨a, rfl⟩ := leaf_of_wf_zero h
    obtain ⟨b, rfl⟩ := leaf_of_wf_zero h'
    exact congrArg Tab.leaf (hg 0 (by simp))
  | succ d ih =>
    have hp : 2 ^ (d + 1) = 2 ^ d + 2 ^ d := by omega
    rw [← join_left_right h, ← join_left_right h',
      ih (wf_left h) (wf_left h') fun i hi => by rw [get_left t hi, get_left t' hi, hg i (by omega)],
      ih (wf_right h) (wf_right h') fun i hi => by rw [get_right h hi, get_right h' hi, hg _ (by omega)]]

/-! What holds of all the entries, of a block of them, and the listing of indices. -/

theorem all_iff [DecidableEq α] (p : α → Bool) {d : Nat} {t : Tab α} (h : Tab.wf d t = true) :
    t.all p = true ↔ ∀ i, p (t.get d i) = true := by
  induction d generalizing t with
  | zero =>
    obtain ⟨a, rfl⟩ := leaf_of_wf_zero h
    simp [Tab.all]
  | succ d ih =>
    have ha : t.all p = (t.left.all p && t.right.all p) := by
      cases t with
      | leaf a => simp [Tab.all, Tab.left, Tab.right]
      | node l r => rfl
    rw [ha, Bool.and_eq_true, ih (wf_left h), ih (wf_right h)]
    constructor
    · intro hp i
      rw [get_succ]
      split
      · exact hp.2 i
      · exact hp.1 i
    · intro hp
      constructor
      · intro i
        have := hp (i % 2 ^ d)
        rw [get_succ, Nat.testBit_lt_two_pow (Nat.mod_lt _ (Nat.two_pow_pos d))] at this
        rwa [get_congr (wf_left h) (show i % 2 ^ d = i % 2 ^ d % 2 ^ d by simp)]
      · intro i
        have hi := Nat.mod_lt i (Nat.two_pow_pos d)
        have := hp (2 ^ d + i % 2 ^ d)
        rw [← get_right h hi] at this
        rwa [get_congr (wf_right h) (show i % 2 ^ d = i % 2 ^ d % 2 ^ d by simp)]

theorem allBlock_iff [DecidableEq α] (p : α → Bool) (n k : Nat) {t : Tab α} (h : Tab.wf (n + k) t = true) (c : Nat) :
    Tab.allBlock p n t c = true ↔ ∀ i, i / 2 ^ k % 2 ^ n = c % 2 ^ n → p (t.get (n + k) i) = true := by
  induction n generalizing t with
  | zero =>
    rw [Tab.allBlock, all_iff p h]
    simp [Nat.mod_one]
  | succ n ih =>
    rw [show n + 1 + k = (n + k) + 1 by omega] at h ⊢
    have hb : ∀ i : Nat, (i / 2 ^ k).testBit n = i.testBit (n + k) := fun i => by
      rw [Nat.testBit_div_two_pow, Nat.add_comm]
    have hw : Tab.wf (n + k) (if c.testBit n then t.right else t.left) = true := by
      split
      · exact wf_right h
      · exact wf_left h
    rw [Tab.allBlock, ih hw]
    constructor
    · intro hp i hi
      have hm := (mod_two_pow_succ_eq (i / 2 ^ k) c n).1 hi
      rw [hb] at hm
      have := hp i hm.2
      rw [get_succ]
      cases hc : c.testBit n <;> simp_all
    · intro hp i hi
      have hlt := Nat.mod_lt i (Nat.two_pow_pos (n + k))
      have hmod : (i % 2 ^ (n + k)) / 2 ^ k % 2 ^ n = c % 2 ^ n := by
        rw [← hi, Nat.add_comm n k, Nat.pow_add, Nat.mod_mul_right_div_self, Nat.mod_mod]
      cases hc : c.testBit n
      · simp only [hc, Bool.false_eq_true, if_false] at hw ⊢
        have := hp (i % 2 ^ (n + k)) ((mod_two_pow_succ_eq _ _ _).2
          ⟨by rw [hb, Nat.testBit_lt_two_pow hlt, hc], hmod⟩)
        rw [get_succ, Nat.testBit_lt_two_pow hlt] at this
        rwa [get_congr hw (show i % 2 ^ (n + k) = i % 2 ^ (n + k) % 2 ^ (n + k) by simp)]
      · simp only [hc, if_true] at hw ⊢
        have hdiv : (2 ^ (n + k) + i % 2 ^ (n + k)) / 2 ^ k = 2 ^ n + i % 2 ^ (n + k) / 2 ^ k := by
          rw [Nat.pow_add, Nat.mul_comm, Nat.add_comm, Nat.add_mul_div_left _ _ (Nat.two_pow_pos k), Nat.add_comm]
        have := hp (2 ^ (n + k) + i % 2 ^ (n + k)) ((mod_two_pow_succ_eq _ _ _).2
          ⟨by rw [hb, testBit_two_pow_add hlt, hc], by rw [hdiv, Nat.add_mod_left, hmod]⟩)
        rw [← get_right h hlt] at this
        rwa [get_congr hw (show i % 2 ^ (n + k) = i % 2 ^ (n + k) % 2 ^ (n + k) by simp)]

/-- Looking at equal halves once lists the same indices as looking at every entry. -/
theorem indices_eq_filter (p : α → Bool) (t : Tab α) (d base : Nat) (hbase : base % 2 ^ d = 0) :
    t.indices p d base = ((List.range (2 ^ d)).map (base + ·)).filter fun x => p (t.get d x) := by
  induction t generalizing d base with
  | leaf a => cases h : p a <;> simp [Tab.indices, h]
  | node l r ihl ihr =>
    cases d with
    | zero => cases h : p ((Tab.node l r).get 0 base) <;> simp [Tab.indices, h]
    | succ d =>
      obtain ⟨k, hk⟩ := Nat.dvd_of_mod_eq_zero hbase
      have hp : 2 ^ (d + 1) = 2 ^ d * 2 := Nat.pow_succ 2 d
      have h1 : base % 2 ^ d = 0 := by rw [hk, hp, Nat.mul_assoc, Nat.mul_mod_right]
      have htb : ∀ i < 2 ^ (d + 1), (base + i).testBit d = i.testBit d := fun i hi => by
        rw [hk, Nat.testBit_two_pow_mul_add _ hi, if_pos (by omega)]
      rw [Tab.indices, ihl d base h1, ihr d (base + 2 ^ d) (by rw [Nat.add_mod_right, h1]), hp, Nat.mul_two, List.range_add,
        List.map_append, List.filter_append, List.map_map]
      congr 1
      · refine List.filter_congr fun x hx => ?_
        obtain ⟨i, hi, rfl⟩ := List.mem_map.1 hx
        rw [List.mem_range] at hi
        rw [get_succ, htb i (by omega), Nat.testBit_lt_two_pow hi]
        rfl
      · rw [show ((base + ·) ∘ fun x => 2 ^ d + x) = (base + 2 ^ d + ·) from funext fun x => (Nat.add_assoc _ _ _).symm]
        refine List.filter_congr fun x hx => ?_
        obtain ⟨i, hi, rfl⟩ := List.mem_map.1 hx
        rw [List.mem_range] at hi
        rw [get_succ, Nat.add_assoc, htb (2 ^ d + i) (by omega), testBit_two_pow_add hi]
        rfl

/-! The sizes of the tables. -/

@[simp] theorem two_pow_bitmapBits : 2 ^ bitmapBits = 8192 := rfl
@[simp] theorem two_pow_lutBits : 2 ^ lutBits = 65536 := rfl
@[simp] theorem two_pow_packBits : 2 ^ packBits = 131072 := rfl
@[simp] theorem two_pow_decBits : 2 ^ decBits = 16384 := rfl

/-! The bitmap. -/

theorem nonzeroBytes_eq_filter (bm : BitmapRam) :
    nonzeroBytes bm = (List.range 8192).filter fun i => bitmapByte bm i != 0 := by
  rw [nonzeroBytes, indices_eq_filter _ _ _ _ (Nat.zero_mod _), two_pow_bitmapBits]
  simp only [Nat.zero_add, List.map_id']

theorem mem_nonzeroBytes (bm : BitmapRam) (i : Nat) : i ∈ nonzeroBytes bm ↔ i < 8192 ∧ bitmapByte bm i ≠ 0 := by
  simp [nonzeroBytes_eq_filter]

theorem nonzeroBytes_sorted (bm : BitmapRam) : (nonzeroBytes bm).Pairwise (· < ·) := by
  rw [nonzeroBytes_eq_filter]
  exact List.Pairwise.filter _ List.pairwise_lt_range

/-- What setting or clearing a value's bit leaves in the bit of every value (R90, R91). -/
theorem bitmapHas_bitmapPut (bm : BitmapRam) {v w : Nat} (hv : v < 65536) (hw : w < 65536) (b : Bool) :
    bitmapHas (bitmapPut bm v b) w = if w = v then b else bitmapHas bm w := by
  unfold bitmapHas bitmapPut bitmapByte
  rw [get_set _ (by simp; omega) (by simp; omega)]
  by_cases hb : w / 8 = v / 8
  · rw [if_pos hb, getLsbD_setByteBit _ (by omega), hb]
    by_cases hwv : w = v
    · rw [if_pos hwv, if_pos (by omega)]
    · rw [if_neg hwv, if_neg (by omega)]
  · rw [if_neg hb, if_neg (by omega)]

theorem wf_bitmapPut {bm : BitmapRam} (h : bm.wf bitmapBits = true) (v : Nat) (b : Bool) :
    (bitmapPut bm v b).wf bitmapBits = true :=
  wf_set h _ _

theorem wf_foldl_set [DecidableEq α] {β : Type} {d : Nat} (f : β → Nat) (g : β → α) (l : List β) {t : Tab α}
    (h : Tab.wf d t = true) : Tab.wf d (l.foldl (fun t b => t.set d (f b) (g b)) t) = true := by
  induction l generalizing t with
  | nil => exact h
  | cons b l ih => exact ih (wf_set h _ _)

theorem wf_bitmapScan (m : Memory) (base count : Nat) {bm : BitmapRam} (h : bm.wf bitmapBits = true) :
    (bitmapScan m base count bm).wf bitmapBits = true := by
  unfold bitmapScan
  generalize List.range count = l
  induction l generalizing bm with
  | nil => exact h
  | cons i l ih => exact ih (wf_bitmapPut h _ _)

/-- What a scan leaves in the bit of every value (R93). -/
theorem bitmapHas_bitmapScan (m : Memory) (base count : Nat) (bm : BitmapRam) {v : Nat} (hv : v < 65536) :
    bitmapHas (bitmapScan m base count bm) v =
      (bitmapHas bm v || (List.range count).any fun i => (m.sample (base + 2 * i)).toNat == v) := by
  unfold bitmapScan
  generalize List.range count = l
  induction l generalizing bm with
  | nil => simp
  | cons i l ih =>
    rw [List.foldl_cons, ih, bitmapHas_bitmapPut bm (m.sample (base + 2 * i)).isLt hv, List.any_cons]
    by_cases hi : v = (m.sample (base + 2 * i)).toNat
    · simp [hi]
    · simp [hi, show ((m.sample (base + 2 * i)).toNat == v) = false from beq_eq_false_iff_ne.2 (Ne.symm hi)]

theorem wf_bitmapLoad (m : Memory) (src min n : Nat) : (bitmapLoad m src min n).wf bitmapBits = true :=
  wf_foldl_set (d := bitmapBits) (fun i => min + i) (fun i => m.read (src + i)) _ (wf_leaf _ _)

/-- What a load leaves in each byte (R95). -/
theorem bitmapByte_bitmapLoad (m : Memory) (src min n : Nat) (h : min + n ≤ 8192) {i : Nat} (hi : i < 8192) :
    bitmapByte (bitmapLoad m src min n) i = if min ≤ i ∧ i < min + n then m.read (src + (i - min)) else 0 := by
  unfold bitmapLoad bitmapByte
  induction n with
  | zero =>
    rw [if_neg (by omega)]
    rfl
  | succ n ih =>
    rw [List.range_succ, List.foldl_append, List.foldl_cons, List.foldl_nil, get_set _ (by simp; omega) (by simpa using hi),
      ih (by omega)]
    by_cases h1 : i = min + n
    · rw [if_pos h1, if_pos (by omega), h1, Nat.add_sub_cancel_left]
    · rw [if_neg h1]
      by_cases h2 : min ≤ i ∧ i < min + n
      · rw [if_pos h2, if_pos (by omega)]
      · rw [if_neg h2, if_neg (by omega)]

/-! The live values. -/

theorem flatMap_bytes_eq_range (n : Nat) : ((List.range n).flatMap fun i => (List.range 8).map (8 * i + ·)) = List.range (8 * n) := by
  induction n with
  | zero => rfl
  | succ n ih => rw [List.range_succ (n := n), List.flatMap_append, ih, List.flatMap_singleton, Nat.mul_succ, List.range_add (n := 8 * n)]

theorem filter_flatMap_filter {β : Type} (q : α → Bool) (f : α → List β) (r : β → Bool) (l : List α)
    (h : ∀ a ∈ l, q a = false → ∀ b ∈ f a, r b = false) : ((l.filter q).flatMap f).filter r = (l.flatMap f).filter r := by
  induction l with
  | nil => rfl
  | cons a l ih =>
    have ih' := ih fun a' ha' => h a' (List.mem_cons_of_mem _ ha')
    cases hq : q a
    · have hnil : (f a).filter r = [] := List.filter_eq_nil_iff.2 fun b hb => by simp [h a List.mem_cons_self hq b hb]
      rw [List.filter_cons_of_neg (by simp [hq]), ih', List.flatMap_cons, List.filter_append, hnil, List.nil_append]
    · rw [List.filter_cons_of_pos hq, List.flatMap_cons, List.flatMap_cons, List.filter_append, List.filter_append, ih']

/-- The live values are all `v` in 0..65535 with `Live(v)`, ascending (42_bitmap_lut.md). -/
theorem liveValues_eq_filter (bm : BitmapRam) : liveValues bm = (List.range 65536).filter (live bm) := by
  have h1 : (((nonzeroBytes bm).flatMap fun i => (List.range 8).map (8 * i + ·)).filter fun v => v != 0 && bitmapHas bm v) =
      (List.range 65536).filter fun v => v != 0 && bitmapHas bm v := by
    rw [nonzeroBytes_eq_filter, filter_flatMap_filter, flatMap_bytes_eq_range]
    intro i _ hi v hv
    obtain ⟨j, hj, rfl⟩ := List.mem_map.1 hv
    rw [List.mem_range] at hj
    have hz : bitmapByte bm i = 0 := by simpa using hi
    have hd : (8 * i + j) / 8 = i := by omega
    simp only [bitmapHas, hd, hz, BitVec.ofNat_eq_ofNat, BitVec.getLsbD_zero, Bool.and_false]
  have h2 : ∀ m, 0 < m → 0 :: (List.range m).filter (fun v => v != 0 && bitmapHas bm v) = (List.range m).filter (live bm) := by
    intro m hm
    obtain ⟨n, rfl⟩ := Nat.exists_eq_add_of_lt hm
    rw [Nat.zero_add]
    rw [List.range_succ_eq_map, List.filter_cons_of_neg (by simp), List.filter_cons_of_pos (by simp [live])]
    refine congrArg (0 :: ·) (List.filter_congr fun v hv => ?_)
    obtain ⟨w, _, rfl⟩ := List.mem_map.1 hv
    simp [live]
  rw [liveValues, h1]
  exact h2 65536 (by omega)

theorem mem_liveValues (bm : BitmapRam) (v : Nat) : v ∈ liveValues bm ↔ v < 65536 ∧ live bm v = true := by
  simp [liveValues_eq_filter]

theorem liveValues_sorted (bm : BitmapRam) : (liveValues bm).Pairwise (· < ·) := by
  rw [liveValues_eq_filter]
  exact List.Pairwise.filter _ List.pairwise_lt_range

theorem liveValues_length_pos (bm : BitmapRam) : 0 < (liveValues bm).length := by
  simp [liveValues]

theorem liveValues_length_le (bm : BitmapRam) : (liveValues bm).length ≤ 65536 := by
  rw [liveValues_eq_filter]
  exact (List.length_filter_le _ _).trans (by simp)

/-! The LUT. -/

theorem wf_lutForward (bm : BitmapRam) : (lutForward bm).wf lutBits = true :=
  wf_foldl_set (d := lutBits) (fun vk : Nat × Nat => vk.1) (fun vk => BitVec.ofNat 16 vk.2) _ (wf_leaf _ _)

theorem wf_lutReverse (bm : BitmapRam) : (lutReverse bm).wf lutBits = true :=
  wf_foldl_set (d := lutBits) (fun vk : Nat × Nat => vk.2) (fun vk => BitVec.ofNat 16 vk.1) _ (wf_leaf _ _)

/-- Entry `i` after a run of writes to distinct entries. -/
theorem get_foldl_set [DecidableEq α] {β : Type} {d : Nat} (f : β → Nat) (g : β → α) (l : List β) (t : Tab α)
    (hf : ∀ b ∈ l, f b < 2 ^ d) (hn : (l.map f).Nodup) {b : β} (hb : b ∈ l) :
    (l.foldl (fun t b => t.set d (f b) (g b)) t).get d (f b) = g b := by
  induction l generalizing t with
  | nil => simp at hb
  | cons c l ih =>
    rw [List.map_cons, List.nodup_cons] at hn
    rw [List.foldl_cons]
    by_cases hbl : b ∈ l
    · exact ih _ (fun b hb => hf b (List.mem_cons_of_mem _ hb)) hn.2 hbl
    · obtain rfl : b = c := by
        cases List.mem_cons.1 hb with
        | inl h => exact h
        | inr h => exact absurd h hbl
      have key : ∀ (l : List β) (t : Tab α), (∀ b ∈ l, f b < 2 ^ d) → f b ∉ l.map f →
          (l.foldl (fun t b => t.set d (f b) (g b)) t).get d (f b) = t.get d (f b) := by
        intro l
        induction l with
        | nil => intros; rfl
        | cons c l ihl =>
          intro t hf' hnm
          rw [List.map_cons, List.mem_cons, not_or] at hnm
          rw [List.foldl_cons, ihl _ (fun b hb => hf' b (List.mem_cons_of_mem _ hb)) hnm.2,
            get_set_other _ (hf' c List.mem_cons_self) (hf b List.mem_cons_self) hnm.1]
      rw [key l _ (fun b hb => hf b (List.mem_cons_of_mem _ hb)) hn.1, get_set_same _ (hf b List.mem_cons_self)]

/-- An entry that a run of writes does not name. -/
theorem get_foldl_set_other [DecidableEq α] {β : Type} {d : Nat} (f : β → Nat) (g : β → α) (l : List β) (t : Tab α)
    (hf : ∀ b ∈ l, f b < 2 ^ d) {i : Nat} (hi : i < 2 ^ d) (hn : i ∉ l.map f) :
    (l.foldl (fun t b => t.set d (f b) (g b)) t).get d i = t.get d i := by
  induction l generalizing t with
  | nil => rfl
  | cons c l ih =>
    rw [List.map_cons, List.mem_cons, not_or] at hn
    rw [List.foldl_cons, ih _ (fun b hb => hf b (List.mem_cons_of_mem _ hb)) hn.2,
      get_set_other _ (hf c List.mem_cons_self) hi hn.1]

/-- The forward LUT at a live value, given by its place among the live values (R97). -/
theorem lutForward_live (bm : BitmapRam) (k : Nat) (hk : k < (liveValues bm).length) :
    (lutForward bm).get lutBits (liveValues bm)[k] = BitVec.ofNat 16 k := by
  have hm : ((liveValues bm)[k], k) ∈ (liveValues bm).zipIdx := by
    rw [List.mk_mem_zipIdx_iff_getElem?, List.getElem?_eq_getElem hk]
  refine get_foldl_set (d := lutBits) (fun vk : Nat × Nat => vk.1) (fun vk => BitVec.ofNat 16 vk.2) (liveValues bm).zipIdx (.leaf 0)
    ?_ ?_ hm
  · intro b hb
    have := (mem_liveValues bm b.1).1 (List.fst_mem_of_mem_zipIdx hb)
    simpa using this.1
  · rw [List.zipIdx_map_fst]
    exact (liveValues_sorted bm).imp Nat.ne_of_lt

/-- The forward LUT at a value that is not live (R97). -/
theorem lutForward_absent (bm : BitmapRam) {v : Nat} (hv : v < 65536) (hl : live bm v = false) : (lutForward bm).get lutBits v = 0 := by
  refine get_foldl_set_other (d := lutBits) (fun vk : Nat × Nat => vk.1) (fun vk => BitVec.ofNat 16 vk.2) (liveValues bm).zipIdx
    (.leaf 0) ?_ (by simpa using hv) ?_
  · intro b hb
    have := (mem_liveValues bm b.1).1 (List.fst_mem_of_mem_zipIdx hb)
    simpa using this.1
  · rw [List.zipIdx_map_fst, mem_liveValues, hl]
    simp

/-- The reverse LUT at a rank (R98). -/
theorem lutReverse_rank (bm : BitmapRam) (k : Nat) (hk : k < (liveValues bm).length) :
    (lutReverse bm).get lutBits k = BitVec.ofNat 16 (liveValues bm)[k] := by
  have hm : ((liveValues bm)[k], k) ∈ (liveValues bm).zipIdx := by
    rw [List.mk_mem_zipIdx_iff_getElem?, List.getElem?_eq_getElem hk]
  refine get_foldl_set (d := lutBits) (fun vk : Nat × Nat => vk.2) (fun vk => BitVec.ofNat 16 vk.1) (liveValues bm).zipIdx (.leaf 0)
    ?_ ?_ hm
  · intro b hb
    have h1 := List.snd_lt_of_mem_zipIdx hb
    have h2 := liveValues_length_le bm
    simp at h1 ⊢
    omega
  · rw [List.zipIdx_map_snd]
    exact List.nodup_range'

/-- The reverse LUT past the last rank (R98). -/
theorem lutReverse_past (bm : BitmapRam) {k : Nat} (hk : (liveValues bm).length ≤ k) (hk' : k < 65536) :
    (lutReverse bm).get lutBits k = 0 := by
  refine get_foldl_set_other (d := lutBits) (fun vk : Nat × Nat => vk.2) (fun vk => BitVec.ofNat 16 vk.1) (liveValues bm).zipIdx
    (.leaf 0) ?_ (by simpa using hk') ?_
  · intro b hb
    have h1 := List.snd_lt_of_mem_zipIdx hb
    have h2 := liveValues_length_le bm
    simp at h1 ⊢
    omega
  · rw [List.zipIdx_map_snd]
    simp
    omega

end Sys2Proof.Machine
end

