-- ==== Sys2Proof/Laws/Huffman.lean ====
section
/-!
SUPPORT. The laws of the Huffman decoder's phases: how many samples a decode produces, and the forms of its tables.
-/

namespace Sys2Proof.Machine

/-- One item keeps the count equal to the number of samples and at most `nout`. -/
theorem hufItem_count {m : Memory} {pb pbits dMax nout s p : Nat} {o o' : HufOut} {p' : Nat}
    (h : hufItem m pb pbits dMax nout s p o = .ok (o', p')) (hc : o.cnt = o.rev.length) :
    o'.cnt = o'.rev.length ∧ o'.cnt ≤ nout := by
  unfold hufItem at h
  split at h
  · split at h
    · cases h
    · simp only at h
      split at h
      · cases h
      · split at h
        · cases h
        · cases h
          simp_all
          omega
  · split at h
    · cases h
    · cases h
      simp_all

theorem hufPayload_count {m : Memory} {pb pbits dMax nout : Nat} {packs : PackRam} {t : DecRam} {fuel p : Nat} {o o' : HufOut}
    (h : hufPayload m pb pbits dMax nout packs t fuel p o = .ok o') (hc : o.cnt = o.rev.length) (hn : o.cnt ≤ nout) :
    o'.cnt = o'.rev.length ∧ o'.cnt ≤ nout := by
  induction fuel generalizing p o with
  | zero => cases h; exact ⟨hc, hn⟩
  | succ fuel ih =>
    unfold hufPayload at h
    split at h
    · cases h; exact ⟨hc, hn⟩
    · split at h
      · cases h
      · split at h
        · cases h
        · rename_i hitem
          have := hufItem_count hitem hc
          exact ih h this.1 this.2

/-- A decode that succeeds gives exactly `nout` samples (R113). -/
theorem hufDecodeBlock_length {m : Memory} {src len nout : Nat} {b : HufBlock} (h : hufDecodeBlock m src len nout = .ok b) :
    b.samples.length = nout := by
  unfold hufDecodeBlock at h
  split at h
  · cases h
  · split at h
    · cases h
    · simp only at h
      split at h
      · cases h
      · split at h
        · cases h
        · rename_i hp
          have hc := hufPayload_count hp rfl (Nat.zero_le _)
          split at h
          · cases h
          · cases h
            simp
            omega

theorem wf_hufAssign (ls : List (Nat × Nat)) (start : List Nat) {t : PackRam} (h : t.wf packBits = true) :
    (hufAssign ls start t).wf packBits = true := by
  induction ls generalizing start t with
  | nil => exact h
  | cons sl ls ih => exact ih _ (wf_set h _ _)

theorem wf_hufPacks (ls : List (Nat × Nat)) : (hufPacks ls).wf packBits = true := wf_hufAssign ls _ (wf_leaf _ _)

theorem wf_hufEnter {t t' : DecRam} {s c l : Nat} (h : t.wf decBits = true) (ht : hufEnter t s c l = .ok t') :
    t'.wf decBits = true := by
  unfold hufEnter at ht
  split at ht
  · cases ht
  · split at ht
    · rename_i hl
      split at ht
      · cases ht
        obtain ⟨k, hk⟩ := Nat.exists_eq_add_of_le hl
        rw [hk] at h ⊢
        exact wf_setBlock l k h c _
      · cases ht
    · simp only at ht
      split at ht
      · cases ht
      · cases ht; exact wf_set h _ _
      · cases ht; exact wf_set h _ _

theorem wf_hufBuild {packs : PackRam} {ls : List (Nat × Nat)} {t t' : DecRam} (h : t.wf decBits = true)
    (ht : hufBuild packs ls t = .ok t') : t'.wf decBits = true := by
  induction ls generalizing t with
  | nil => cases ht; exact h
  | cons sl ls ih =>
    unfold hufBuild at ht
    split at ht
    · cases ht
    · rename_i he
      exact ih (wf_hufEnter h he) ht

/-- The table of the first symbols is built before the others are entered. -/
theorem hufBuild_append {packs : PackRam} {earlier : List (Nat × Nat)} (later : List (Nat × Nat)) {t t' : DecRam}
    (h : hufBuild packs earlier t = .ok t') : hufBuild packs (earlier ++ later) t = hufBuild packs later t' := by
  induction earlier generalizing t with
  | nil => cases h; rfl
  | cons sl earlier ih =>
    simp only [List.cons_append, hufBuild] at h ⊢
    split at h
    · cases h
    · exact ih h

@[simp] theorem length_bitsOf (n v : Nat) : (bitsOf n v).length = n := by simp [bitsOf]

@[simp] theorem length_payloadBits (packs : PackRam) (dMax : Nat) (it : PayloadItem) :
    (it.bits packs dMax).length = packLen (packAt packs (it.symbol dMax)) + match it with | .literal _ => 0 | .again _ => 8 := by
  cases it <;> simp [PayloadItem.bits]

/-- A code that stands whole indexes the decoding table (R112). -/
theorem codeIndexed_of_codeAt {m : Memory} {pb pbits : Nat} {packs : PackRam} {p : Nat} {x : Nat × Nat}
    (h : CodeAt m pb pbits packs p x) : CodeIndexed m pb pbits packs p x := by
  intro j hj
  have h1 := h.1
  rw [← h.2 j (by simp; omega), decide_eq_true (by omega), Bool.true_and]

/-- An item covers at least one symbol, and gives at most a length of 1 to 58 for the first (R104). -/
theorem hufTableItem_range {m : Memory} {tb tbits dMax im q : Nat} {ls : List (Nat × Nat)} {im' q' : Nat}
    (h : hufTableItem m tb tbits dMax im q = .ok (ls, im', q')) :
    im < im' ∧ (ls = [] ∨ ∃ v, ls = [(im, v)] ∧ 1 ≤ v ∧ v ≤ Config.maxCodeLen) := by
  have hskip : ∀ {run i : Nat}, hufSkipRun dMax im run = .ok i → i = im + run := by
    intro run i hs
    unfold hufSkipRun at hs
    split at hs
    · cases hs
    · cases hs; rfl
  simp only [hufTableItem, Config.longZerocodeRun, Config.shortZerocodeRun, Config.shortestLongRun] at h
  split at h
  · cases h
  · split at h
    · split at h
      · cases h
      · split at h
        · cases h
        · rename_i hs
          cases h
          rw [hskip hs]
          exact ⟨by omega, Or.inl rfl⟩
    · split at h
      · split at h
        · cases h
        · rename_i hs
          cases h
          rw [hskip hs]
          exact ⟨by omega, Or.inl rfl⟩
      · rename_i v q1 _ _ hv
        cases h
        refine ⟨by omega, ?_⟩
        split
        · exact Or.inl rfl
        · exact Or.inr ⟨v, rfl, by omega, by simp only [Config.maxCodeLen]; omega⟩

/-- The lengths the table of R104 gives are at most 58 and not 0, and its symbols are `im .. dMax`, ascending. -/
theorem hufLengths_range {m : Memory} {tb tbits dMax fuel im q : Nat} {ls : List (Nat × Nat)} {q' : Nat}
    (h : hufLengths m tb tbits dMax fuel im q = .ok (ls, q')) :
    (∀ sl ∈ ls, im ≤ sl.1 ∧ sl.1 ≤ dMax ∧ 1 ≤ sl.2 ∧ sl.2 ≤ Config.maxCodeLen) ∧ (ls.map (·.1)).Pairwise (· < ·) := by
  induction fuel generalizing im q ls q' with
  | zero => cases h; simp
  | succ fuel ih =>
    unfold hufLengths at h
    split at h
    · cases h; simp
    · rename_i him
      split at h
      · cases h
      · rename_i hitem
        have hi := hufTableItem_range hitem
        split at h
        · cases h
        · rename_i hrec
          have hr := ih hrec
          cases h
          obtain ⟨hlt, rfl | ⟨v, rfl, hv1, hv2⟩⟩ := hi
          · exact ⟨fun sl hsl => by have := hr.1 sl hsl; omega, hr.2⟩
          · refine ⟨fun sl hsl => ?_, ?_⟩
            · rw [List.singleton_append] at hsl
              cases List.mem_cons.1 hsl with
              | inl he => subst he; exact ⟨Nat.le_refl _, by omega, hv1, hv2⟩
              | inr ht => have := hr.1 sl ht; omega
            · rw [List.singleton_append, List.map_cons, List.pairwise_cons]
              refine ⟨fun s hs => ?_, hr.2⟩
              obtain ⟨sl, hsl, rfl⟩ := List.mem_map.1 hs
              have := hr.1 sl hsl
              simp only
              omega

end Sys2Proof.Machine
end

