-- ==== Sys2Proof/Laws/PerInstr.lean ====
section
/-!
SUPPORT. The statement family over the constructors of Instr: the descriptor the encoder gives a well-formed command is legal (R60).
-/

namespace Sys2Proof.Laws

/-- The descriptor of a well-formed command is legal (spec 30_encoding.md R60). -/
def LegalEncoding.Statement (i : Instr) : Prop := i.wellFormed = true → (encodeDescriptor i).legal = true

/-- Legality is about the control word alone. -/
theorem legal_of_control (w0 : Word) (h : Descriptor.legal ⟨w0, 0, 0, 0, 0, 0, 0, 0⟩ = true) (a b c d e f g : Word) :
    Descriptor.legal ⟨w0, a, b, c, d, e, f, g⟩ = true := h

theorem LegalEncoding.nop : LegalEncoding.Statement (.nop) :=
  fun _ => legal_of_control (controlWord 0x00 0) (by decide) _ _ _ _ _ _ _

theorem LegalEncoding.endChain : LegalEncoding.Statement (.endChain) :=
  fun _ => legal_of_control (controlWord 0x01 0) (by decide) _ _ _ _ _ _ _

theorem LegalEncoding.brInit (base nbits : Word) : LegalEncoding.Statement (.brInit base nbits) :=
  fun _ => legal_of_control (controlWord 0x10 0) (by decide) _ _ _ _ _ _ _

theorem LegalEncoding.brRead (k dst : Word) : LegalEncoding.Statement (.brRead k dst) :=
  fun _ => legal_of_control (controlWord 0x11 0) (by decide) _ _ _ _ _ _ _

theorem LegalEncoding.brSeek (i : Word) : LegalEncoding.Statement (.brSeek i) :=
  fun _ => legal_of_control (controlWord 0x12 0) (by decide) _ _ _ _ _ _ _

theorem LegalEncoding.brRemain : LegalEncoding.Statement (.brRemain) :=
  fun _ => legal_of_control (controlWord 0x13 0) (by decide) _ _ _ _ _ _ _

theorem LegalEncoding.brAlign : LegalEncoding.Statement (.brAlign) :=
  fun _ => legal_of_control (controlWord 0x14 0) (by decide) _ _ _ _ _ _ _

theorem LegalEncoding.bwInit (base capbits : Word) : LegalEncoding.Statement (.bwInit base capbits) :=
  fun _ => legal_of_control (controlWord 0x18 0) (by decide) _ _ _ _ _ _ _

theorem LegalEncoding.bwWrite (k src srclen : Word) : LegalEncoding.Statement (.bwWrite k src srclen) :=
  fun _ => legal_of_control (controlWord 0x19 0) (by decide) _ _ _ _ _ _ _

theorem LegalEncoding.bwIndex : LegalEncoding.Statement (.bwIndex) :=
  fun _ => legal_of_control (controlWord 0x1A 0) (by decide) _ _ _ _ _ _ _

theorem LegalEncoding.bwRemain : LegalEncoding.Statement (.bwRemain) :=
  fun _ => legal_of_control (controlWord 0x1B 0) (by decide) _ _ _ _ _ _ _

theorem LegalEncoding.bwAlign : LegalEncoding.Statement (.bwAlign) :=
  fun _ => legal_of_control (controlWord 0x1C 0) (by decide) _ _ _ _ _ _ _

theorem LegalEncoding.bmClear : LegalEncoding.Statement (.bmClear) :=
  fun _ => legal_of_control (controlWord 0x20 0) (by decide) _ _ _ _ _ _ _

theorem LegalEncoding.bmSet (v : Word) : LegalEncoding.Statement (.bmSet v) :=
  fun _ => legal_of_control (controlWord 0x21 0) (by decide) _ _ _ _ _ _ _

theorem LegalEncoding.bmUnset (v : Word) : LegalEncoding.Statement (.bmUnset v) :=
  fun _ => legal_of_control (controlWord 0x22 0) (by decide) _ _ _ _ _ _ _

theorem LegalEncoding.bmHas (v : Word) : LegalEncoding.Statement (.bmHas v) :=
  fun _ => legal_of_control (controlWord 0x23 0) (by decide) _ _ _ _ _ _ _

theorem LegalEncoding.bmScan (base count : Word) : LegalEncoding.Statement (.bmScan base count) :=
  fun _ => legal_of_control (controlWord 0x24 0) (by decide) _ _ _ _ _ _ _

theorem LegalEncoding.bmBounds : LegalEncoding.Statement (.bmBounds) :=
  fun _ => legal_of_control (controlWord 0x25 0) (by decide) _ _ _ _ _ _ _

theorem LegalEncoding.bmLoad (src min max : Word) : LegalEncoding.Statement (.bmLoad src min max) :=
  fun _ => legal_of_control (controlWord 0x26 0) (by decide) _ _ _ _ _ _ _

theorem LegalEncoding.bmStore (dst min max : Word) : LegalEncoding.Statement (.bmStore dst min max) :=
  fun _ => legal_of_control (controlWord 0x27 0) (by decide) _ _ _ _ _ _ _

theorem LegalEncoding.lutFwd : LegalEncoding.Statement (.lutFwd) :=
  fun _ => legal_of_control (controlWord 0x28 0) (by decide) _ _ _ _ _ _ _

theorem LegalEncoding.lutRev : LegalEncoding.Statement (.lutRev) :=
  fun _ => legal_of_control (controlWord 0x29 0) (by decide) _ _ _ _ _ _ _

theorem LegalEncoding.lutApply (base count : Word) : LegalEncoding.Statement (.lutApply base count) :=
  fun _ => legal_of_control (controlWord 0x2A 0) (by decide) _ _ _ _ _ _ _

theorem LegalEncoding.lutRead (i : Word) : LegalEncoding.Statement (.lutRead i) :=
  fun _ => legal_of_control (controlWord 0x2B 0) (by decide) _ _ _ _ _ _ _

theorem LegalEncoding.hufDecode (src len dst nout : Word) : LegalEncoding.Statement (.hufDecode src len dst nout) :=
  fun _ => legal_of_control (controlWord 0x30 0) (by decide) _ _ _ _ _ _ _

theorem LegalEncoding.hufPackRead (sym : Word) : LegalEncoding.Statement (.hufPackRead sym) :=
  fun _ => legal_of_control (controlWord 0x31 0) (by decide) _ _ _ _ _ _ _

theorem LegalEncoding.hufDecRead (i j : Word) : LegalEncoding.Statement (.hufDecRead i j) :=
  fun _ => legal_of_control (controlWord 0x32 0) (by decide) _ _ _ _ _ _ _

theorem LegalEncoding.wavFwd (wm : WavMode) (base nx ny ox oy : Word) : LegalEncoding.Statement (.wavFwd wm base nx ny ox oy) := by
  cases wm <;> intro h
  · exact legal_of_control (controlWord 0x40 0) (by decide) _ _ _ _ _ _ _
  · exact legal_of_control (controlWord 0x40 1) (by decide) _ _ _ _ _ _ _
  · exact legal_of_control (controlWord 0x40 2) (by decide) _ _ _ _ _ _ _
  · cases h

theorem LegalEncoding.wavInv (wm : WavMode) (base nx ny ox oy : Word) : LegalEncoding.Statement (.wavInv wm base nx ny ox oy) := by
  cases wm <;> intro h
  · exact legal_of_control (controlWord 0x41 0) (by decide) _ _ _ _ _ _ _
  · exact legal_of_control (controlWord 0x41 1) (by decide) _ _ _ _ _ _ _
  · exact legal_of_control (controlWord 0x41 2) (by decide) _ _ _ _ _ _ _
  · cases h

end Sys2Proof.Laws
end

