-- ==== Sys2Proof/Laws/Samples.lean ====
section
/-!
SUPPORT. The laws of the operations that go over samples: applying the LUT (spec 42_bitmap_lut.md R99).
-/

namespace Sys2Proof.Machine

theorem lutApply_succ (t : LutRam) (base count : Nat) (m : Memory) :
    lutApply t base (count + 1) m =
      (lutApply t base count m).setSample (base + 2 * count)
        (t.get lutBits ((lutApply t base count m).sample (base + 2 * count)).toNat) := by
  simp [lutApply, List.range_succ]

theorem wf_lutApply (t : LutRam) (base count : Nat) {m : Memory} (h : m.wf = true) : (lutApply t base count m).wf = true := by
  induction count with
  | zero => exact h
  | succ n ih => rw [lutApply_succ]; exact wf_setSample ih _ _

theorem below_lutApply (t : LutRam) (base count : Nat) {m : Memory} {k : Nat} (h : m.below k = true)
    (hk : count = 0 ∨ base + 2 * count ≤ k) : (lutApply t base count m).below k = true := by
  induction count with
  | zero => exact h
  | succ n ih => rw [lutApply_succ]; exact below_setSample (ih (by omega)) _ (by omega)

/-- Applying the LUT touches the buffer's bytes only. -/
theorem read_lutApply_other (t : LutRam) (base count : Nat) {m : Memory} (h : m.wf = true) {x : Nat}
    (hx : ¬ InBytes x base (2 * count)) : (lutApply t base count m).read x = m.read x := by
  induction count with
  | zero => rfl
  | succ n ih => rw [lutApply_succ, read_setSample_other (wf_lutApply _ _ _ h) _ (by omega), ih (by omega)]

/-- Every sample of the buffer is replaced by its entry, once (R99). -/
theorem sample_lutApply (t : LutRam) (base count : Nat) {m : Memory} (h : m.wf = true) {i : Nat} (hi : i < count) :
    (lutApply t base count m).sample (base + 2 * i) = t.get lutBits (m.sample (base + 2 * i)).toNat := by
  induction count with
  | zero => omega
  | succ n ih =>
    have hold : (lutApply t base n m).sample (base + 2 * n) = m.sample (base + 2 * n) :=
      sample_congr fun x hx => read_lutApply_other t base n h (by omega)
    rw [lutApply_succ]
    by_cases hin : i = n
    · subst hin
      rw [sample_setSample_same (wf_lutApply _ _ _ h), hold]
    · rw [sample_setSample_other (wf_lutApply _ _ _ h) _ (by omega), ih (by omega)]

end Sys2Proof.Machine
end

