-- ==== Sys2Proof/Laws/Wavelet.lean ====
section
/-!
SUPPORT. The laws of the wavelet unit's operations: which samples a transform writes, and that it keeps whatever storing those
keeps.
-/

namespace Sys2Proof.Machine

/-! The scales and the block corners. -/

theorem mem_wavLevels {nx ny p : Nat} (h : p ∈ wavLevels nx ny) : (∃ j < 32, p = 2 ^ j) ∧ 2 * p ≤ min nx ny := by
  obtain ⟨h1, h2⟩ := List.mem_filter.1 h
  obtain ⟨j, hj, rfl⟩ := List.mem_map.1 h1
  exact ⟨⟨j, List.mem_range.1 hj, rfl⟩, of_decide_eq_true h2⟩

theorem mem_wavStarts {p2 n v : Nat} (h : v ∈ wavStarts p2 n) : v + p2 ≤ n := by
  obtain ⟨i, hi, rfl⟩ := List.mem_map.1 h
  have h1 : i + 1 ≤ n / p2 := List.mem_range.1 hi
  calc i * p2 + p2 = (i + 1) * p2 := (Nat.succ_mul i p2).symm
    _ ≤ n / p2 * p2 := Nat.mul_le_mul_right _ h1
    _ ≤ n := Nat.div_mul_le_self n p2

/-- The last odd column or line is inside the plane. -/
theorem odd_start_lt {n j : Nat} (h : n &&& 2 ^ j ≠ 0) : n / (2 * 2 ^ j) * (2 * 2 ^ j) < n := by
  have ht : n.testBit j = true := by
    rw [Nat.and_two_pow] at h
    cases hb : n.testBit j
    · simp [hb] at h
    · rfl
  have hd := Nat.div_add_mod n (2 * 2 ^ j)
  rw [Nat.mul_comm] at hd
  have hpos : n % (2 * 2 ^ j) ≠ 0 := by
    intro h0
    have : n.testBit j = (n % 2 ^ (j + 1)).testBit j := by
      rw [Nat.testBit_mod_two_pow]
      simp
    rw [Nat.pow_succ', h0, Nat.zero_testBit, ht] at this
    cases this
  omega

/-- Both corners of a block on one side. -/
theorem inBlock_start {p n v : Nat} (hp : 0 < p) (h : v ∈ wavStarts (2 * p) n) : InBlock p n v ∧ InBlock p n (v + p) := by
  have hle := mem_wavStarts h
  obtain ⟨i, _, rfl⟩ := List.mem_map.1 h
  have h0 : i * (2 * p) / (2 * p) = i := Nat.mul_div_cancel _ (by omega)
  have h1 : (i * (2 * p) + p) / (2 * p) = i := by
    rw [Nat.mul_comm, Nat.mul_add_div (by omega), Nat.div_eq_of_lt (by omega), Nat.add_zero]
  refine ⟨⟨?_, by rw [h0]; exact hle⟩, ?_, by rw [h1]; exact hle⟩
  · rw [← Nat.mul_assoc, Nat.mul_mod_left]
  · rw [← Nat.mul_assoc, Nat.add_mod_right, Nat.mul_mod_left]

theorem inBlock_lt {p n v : Nat} (hp : 0 < p) (h : InBlock p n v) : v < n := by
  have h1 := Nat.div_add_mod v (2 * p)
  have h2 := Nat.mod_lt v (show 0 < 2 * p by omega)
  have h3 := h.2
  rw [Nat.mul_comm] at h1
  omega

/-- A sample a transform writes is a sample of the plane. -/
theorem lt_of_writes {pl : Plane} {x y : Nat} (h : pl.Writes x y) : x < pl.nx ∧ y < pl.ny := by
  obtain ⟨p, hp, h⟩ := h
  obtain ⟨⟨j, _, rfl⟩, _⟩ := mem_wavLevels hp
  have hpos : 0 < 2 ^ j := Nat.two_pow_pos j
  have hodd : ∀ {n v : Nat}, OddAt (2 ^ j) n v → v < n := fun ho => ho.2 ▸ odd_start_lt ho.1
  rcases h with ⟨hx, hy⟩ | ⟨hx, hy⟩ | ⟨hx, hy⟩
  · exact ⟨inBlock_lt hpos hx, inBlock_lt hpos hy⟩
  · exact ⟨hodd hx, inBlock_lt hpos hy⟩
  · exact ⟨inBlock_lt hpos hx, hodd hy⟩

/-! Whatever storing the samples a transform writes keeps. -/

/-- `Q` survives every store of a sample that a transform of the plane writes. -/
abbrev Plane.Keeps (pl : Plane) (Q : Memory → Prop) : Prop :=
  ∀ m x y v, pl.Writes x y → Q m → Q (pl.put m x y v)

theorem foldl_keeps {β : Type} {Q : Memory → Prop} {f : Memory → β → Memory} {l : List β} (h : ∀ b ∈ l, ∀ m, Q m → Q (f m b))
    {m : Memory} (hm : Q m) : Q (l.foldl f m) := by
  induction l generalizing m with
  | nil => exact hm
  | cons b l ih =>
    exact ih (fun b' hb' => h b' (List.mem_cons_of_mem _ hb')) (h b List.mem_cons_self m hm)

theorem wavPair_keeps {pl : Plane} {Q : Memory → Prop} (hQ : pl.Keeps Q) (f : Sample → Sample → Sample × Sample) {x0 y0 x1 y1 : Nat}
    (h0 : pl.Writes x0 y0) (h1 : pl.Writes x1 y1) {m : Memory} (hm : Q m) : Q (wavPair f pl x0 y0 x1 y1 m) :=
  hQ _ _ _ _ h1 (hQ _ _ _ _ h0 hm)

theorem wavPutBlock_keeps {pl : Plane} {Q : Memory → Prop} (hQ : pl.Keeps Q) {p xb yb : Nat} (hp : p ∈ wavLevels pl.nx pl.ny)
    (hx : xb ∈ wavStarts (2 * p) pl.nx) (hy : yb ∈ wavStarts (2 * p) pl.ny) (r00 r01 r10 r11 : Sample) {m : Memory} (hm : Q m) :
    Q (wavPutBlock pl p xb yb r00 r01 r10 r11 m) := by
  have hpos : 0 < p := by
    obtain ⟨⟨j, _, rfl⟩, _⟩ := mem_wavLevels hp
    exact Nat.two_pow_pos j
  have hX := inBlock_start hpos hx
  have hY := inBlock_start hpos hy
  exact hQ _ _ _ _ ⟨p, hp, .inl ⟨hX.2, hY.2⟩⟩ (hQ _ _ _ _ ⟨p, hp, .inl ⟨hX.1, hY.2⟩⟩
    (hQ _ _ _ _ ⟨p, hp, .inl ⟨hX.2, hY.1⟩⟩ (hQ _ _ _ _ ⟨p, hp, .inl ⟨hX.1, hY.1⟩⟩ hm)))

theorem wavScale_keeps {pl : Plane} {Q : Memory → Prop} (hQ : pl.Keeps Q) (f : Sample → Sample → Sample × Sample)
    {block : Nat → Nat → Memory → Memory} {p : Nat} (hp : p ∈ wavLevels pl.nx pl.ny)
    (hb : ∀ xb ∈ wavStarts (2 * p) pl.nx, ∀ yb ∈ wavStarts (2 * p) pl.ny, ∀ m, Q m → Q (block xb yb m)) {m : Memory} (hm : Q m) :
    Q (wavScale f block pl p m) := by
  have hpos : 0 < p := by
    obtain ⟨⟨j, _, rfl⟩, _⟩ := mem_wavLevels hp
    exact Nat.two_pow_pos j
  have hrow : ∀ yb ∈ wavStarts (2 * p) pl.ny, ∀ m, Q m → Q (wavBlockRow f block pl p yb m) := by
    intro yb hyb m hm
    have h1 : Q ((wavStarts (2 * p) pl.nx).foldl (fun m xb => block xb yb m) m) :=
      foldl_keeps (fun xb hxb m hm => hb xb hxb yb hyb m hm) hm
    have hY := inBlock_start hpos hyb
    unfold wavBlockRow
    split
    · rename_i hodd
      exact wavPair_keeps hQ f ⟨p, hp, .inr (.inl ⟨⟨hodd, rfl⟩, hY.1⟩)⟩ ⟨p, hp, .inr (.inl ⟨⟨hodd, rfl⟩, hY.2⟩)⟩ h1
    · exact h1
  have h2 := foldl_keeps hrow hm
  unfold wavScale
  split
  · rename_i hodd
    exact foldl_keeps (fun xb hxb m hm => by
      have hX := inBlock_start hpos hxb
      exact wavPair_keeps hQ f ⟨p, hp, .inr (.inr ⟨hX.1, hodd, rfl⟩)⟩ ⟨p, hp, .inr (.inr ⟨hX.2, hodd, rfl⟩)⟩ hm) h2
  · exact h2

/-- A forward transform keeps whatever storing the samples it writes keeps. -/
theorem wavForward_keeps {pl : Plane} {Q : Memory → Prop} (hQ : pl.Keeps Q) (is16 : Bool) {m : Memory} (hm : Q m) :
    Q (wavForwardOf is16 pl m) :=
  foldl_keeps (fun _ hp _ hm =>
    wavScale_keeps hQ _ hp (fun _ hx _ hy _ h => wavPutBlock_keeps hQ hp hx hy _ _ _ _ h) hm) hm

/-- An inverse transform keeps whatever storing the samples it writes keeps. -/
theorem wavInverse_keeps {pl : Plane} {Q : Memory → Prop} (hQ : pl.Keeps Q) (is16 : Bool) {m : Memory} (hm : Q m) :
    Q (wavInverseOf is16 pl m) :=
  foldl_keeps (fun _ hp _ hm =>
    have hp := List.mem_reverse.1 hp
    wavScale_keeps hQ _ hp (fun _ hx _ hy _ h => wavPutBlock_keeps hQ hp hx hy _ _ _ _ h) hm) hm

/-! What storing such a sample keeps: the canonical form, the bounds of DMEM, and every other byte. -/

theorem plane_keeps_wf (pl : Plane) : pl.Keeps fun m => m.wf = true :=
  fun _ _ _ _ _ h => wf_setSample h _ _

theorem addr_le_span {pl : Plane} {x y : Nat} (hx : x < pl.nx) (hy : y < pl.ny) : pl.addr x y + 2 ≤ pl.base + pl.span := by
  have h1 : x * pl.ox ≤ (pl.nx - 1) * pl.ox := Nat.mul_le_mul_right _ (by omega)
  have h2 : y * pl.oy ≤ (pl.ny - 1) * pl.oy := Nat.mul_le_mul_right _ (by omega)
  simp only [Plane.addr, Plane.span]
  omega

theorem plane_keeps_below {pl : Plane} {k : Nat} (hk : pl.base + pl.span ≤ k) : pl.Keeps fun m => m.below k = true :=
  fun _ _ _ _ hw h => below_setSample h _ ((addr_le_span (lt_of_writes hw).1 (lt_of_writes hw).2).trans hk)

/-- A byte of no sample the transform writes keeps its value (the canonical form is kept with it). -/
theorem plane_keeps_byte {pl : Plane} {a : Nat} (ha : ¬ pl.WritesByte a) (b : Byte) :
    pl.Keeps fun m => m.wf = true ∧ m.read a = b :=
  fun _ x y v hw h =>
    ⟨wf_setSample h.1 _ v, by rw [Plane.put, read_setSample_other h.1 v fun hi => ha ⟨x, y, hw, hi⟩]; exact h.2⟩

/-- The ranges of a raced wavelet command (log 8) are those of the samples it writes. -/
theorem mem_written {pl : Plane} {w : Nat × Nat} : w ∈ pl.written ↔ ∃ x y, pl.Writes x y ∧ w = (pl.addr x y, 2) := by
  simp only [Plane.written, List.mem_flatMap, List.mem_map, List.mem_filter, List.mem_range, decide_eq_true_eq]
  constructor
  · rintro ⟨y, _, x, ⟨_, hw⟩, rfl⟩
    exact ⟨x, y, hw, rfl⟩
  · rintro ⟨x, y, hw, rfl⟩
    exact ⟨y, (lt_of_writes hw).2, x, ⟨(lt_of_writes hw).1, hw⟩, rfl⟩

end Sys2Proof.Machine
end

