-- ==== Sys2Proof/Tests/Slice0.lean ====
section
/-!
SUPPORT. The model's own tests. Expected values are those of the spec: the encodings of 30_encoding.md and opcode_table.json, and the
worked examples and vectors of 95_test_vectors.md (named S, B, M, H, W and scenario as there). Then, for each statement with
hypotheses, witnesses: concrete states and operands that meet them, one for each clause, at the edge of its range.
-/

namespace Sys2Proof.Tests

open Sys2Proof Sys2Proof.Machine

set_option Elab.async false

/-! Small states. -/

/-- Bytes at an address. -/
def put (m : Memory) (a : Nat) (bs : List Nat) : Memory := m.writeList a (bs.map (BitVec.ofNat 8))

/-- Samples at an address. -/
def putS (m : Memory) (a : Nat) (vs : List Nat) : Memory := m.writeSamples a (vs.map (BitVec.ofNat 16))

/-- The parameters of the test vectors (95_test_vectors.md section 0), with values for the open ones. -/
def prm : Params := ⟨65536, 0x50495A, 0x1000000, 0x2000000⟩

/-- A core just after reset with DMEM `m`, its chain running at 0x8000. -/
def run (m : Memory) : State := { State.resetWith prm with dmem := m, seq := .running, cp := 0x8000 }

/-- The next state satisfies `p`. -/
def nextIs (o : Outcome) (p : State → Bool) : Bool :=
  match o with
  | .next t => p t
  | _ => false

/-- The outcome is the error step of `s`. -/
def raises (o : Outcome) (s : State) (e : ErrCode) (info : Word) : Bool := nextIs o fun t => decide (t = s.errorStep e info)

/-- The answer is a value. -/
def isOk {ε α : Type} (e : Except ε α) : Bool :=
  match e with
  | .ok _ => true
  | .error _ => false

theorem exists_of_isOk {ε α : Type} : ∀ e : Except ε α, isOk e = true → ∃ a, e = .ok a
  | .ok a, _ => ⟨a, rfl⟩

/-- The bytes of a state at an address. -/
def bytes (s : State) (a n : Nat) : List Nat := (List.range n).map fun i => (s.dmem.read (a + i)).toNat

/-- The samples of a state at an address. -/
def samples (s : State) (a n : Nat) : List Nat := (List.range n).map fun i => (s.dmem.sample (a + 2 * i)).toNat

/-- The reader of B2 and B3: `B5 6C` at 0x100, 16 bits. -/
def reader (pos : Word) : State := { run (put [] 0x100 [0xB5, 0x6C]) with reader := ⟨0x100, 16, pos, false⟩ }

/-- A writer of `cap` bits at 0x300, `3C` at 0x10. -/
def writer (cap pos : Word) : State := { run (put [] 0x10 [0x3C]) with writer := ⟨0x300, cap, pos⟩ }

/-- A state whose bitmap holds `vs` (BMV set). -/
def bitmapOf (vs : List Nat) : State :=
  { run [] with bitmap := vs.foldl (fun bm v => bitmapPut bm v true) (.leaf 0), valid := ⟨true, false, false, false⟩ }

/-- Block B0 of 95_test_vectors.md section 5.1, at 0x100. -/
def block0 : Memory :=
  put [] 0x100 [1, 0, 0, 0, 4, 0, 0, 0, 3, 0, 0, 0, 0x11, 0, 0, 0, 0, 0, 0, 0, 0x04, 0x30, 0xC2, 0xA3, 0xA0, 0x80]

/-- A block at 0x100 whose table gives three codes of length 1. -/
def overfull : Memory := put [] 0x100 [0, 0, 0, 0, 2, 0, 0, 0, 3, 0, 0, 0, 0, 0, 0, 0, 0, 0, 0, 0, 0x04, 0x10, 0x40]

/-- A block at 0x100 whose table gives lengths 16, 15, 15, with `pbits` payload bits that begin with the byte `x`. -/
def longBlock (pbits x : Nat) : Memory :=
  put [] 0x100 [0, 0, 0, 0, 2, 0, 0, 0, 3, 0, 0, 0, pbits, 0, 0, 0, 0, 0, 0, 0, 0x40, 0xF3, 0xC0, x, 0]

/-- The 2x2 plane `10, 4, 6, 0` at 0x400 (W1). -/
def plane22 : State := run (putS [] 0x400 [10, 4, 6, 0])

/-! ## Well-formedness: what the checks of R57 and R60 refuse -/

theorem test_unknown_opcode_refused : decodeDescriptor ⟨0x00000002, 0, 0, 0, 0, 0, 0, 0⟩ = .error (.unknownOpcode 2) ∧
    Descriptor.legal ⟨0x00000002, 0, 0, 0, 0, 0, 0, 0⟩ = false := by decide

theorem test_opcode_ff_refused : decodeDescriptor ⟨0x000000FF, 0, 0, 0, 0, 0, 0, 0⟩ = .error (.unknownOpcode 0xFF) := by decide

theorem test_reserved_bits_refused : decodeDescriptor ⟨0x00000401, 0, 0, 0, 0, 0, 0, 0⟩ = .error (.reservedBits 1) ∧
    Descriptor.legal ⟨0x00000401, 0, 0, 0, 0, 0, 0, 0⟩ = false := by decide

theorem test_stray_mode_refused : decodeDescriptor ⟨0x00000128, 0, 0, 0, 0, 0, 0, 0⟩ = .error (.strayMode 0x28 1) ∧
    Descriptor.legal ⟨0x00000128, 0, 0, 0, 0, 0, 0, 0⟩ = false := by decide

theorem test_reserved_mode_refused : decodeDescriptor ⟨0x00000340, 0, 0, 0, 0, 0, 0, 0⟩ = .error (.reservedMode 0x40) ∧
    Descriptor.legal ⟨0x00000340, 0, 0, 0, 0, 0, 0, 0⟩ = false ∧ Instr.wellFormed (.wavFwd .reserved 0 0 0 0 0) = false ∧
    Instr.wellFormed (.wavInv .reserved 0 0 0 0 0) = false := by decide

theorem test_truncated_refused : decode (List.replicate 31 0) = .error .truncated := by decide

/-! ## Decoding: a word of every row of opcode_table.json, from its encoding -/

theorem test_decode_sequencer : decodeTableWord 32 0b00000000000000000000000000000000 = some .nop ∧
    decodeTableWord 32 0b00000000000000000000000000000001 = some .endChain := by decide

theorem test_decode_reader :
    decodeTableWord 96 0x00000010_00000100_00000010 = some (.brInit 0x100 16) ∧
    decodeTableWord 96 0x00000200_FFFFFFFF_00000011 = some (.brRead 0xFFFFFFFF 0x200) ∧
    decodeTableWord 64 0x00000003_00000012 = some (.brSeek 3) ∧
    decodeTableWord 32 0x00000013 = some .brRemain ∧ decodeTableWord 32 0x00000014 = some .brAlign := by decide

theorem test_decode_writer :
    decodeTableWord 96 0x00000024_00000300_00000018 = some (.bwInit 0x300 36) ∧
    decodeTableWord 128 0x00000001_00000010_00000006_00000019 = some (.bwWrite 6 0x10 1) ∧
    decodeTableWord 32 0x0000001A = some .bwIndex ∧ decodeTableWord 32 0x0000001B = some .bwRemain ∧
    decodeTableWord 32 0x0000001C = some .bwAlign := by decide

theorem test_decode_bitmap :
    decodeTableWord 32 0x00000020 = some .bmClear ∧ decodeTableWord 64 0x00000009_00000021 = some (.bmSet 9) ∧
    decodeTableWord 64 0x00000000_00000022 = some (.bmUnset 0) ∧ decodeTableWord 64 0x0000000F_00000023 = some (.bmHas 15) ∧
    decodeTableWord 96 0x00000004_00000400_00000024 = some (.bmScan 0x400 4) ∧ decodeTableWord 32 0x00000025 = some .bmBounds ∧
    decodeTableWord 128 0x00000001_00000000_00000010_00000026 = some (.bmLoad 0x10 0 1) ∧
    decodeTableWord 128 0x00000003_00000002_00000020_00000027 = some (.bmStore 0x20 2 3) := by decide

theorem test_decode_lut :
    decodeTableWord 32 0x00000028 = some .lutFwd ∧ decodeTableWord 32 0x00000029 = some .lutRev ∧
    decodeTableWord 96 0x00000004_00000400_0000002A = some (.lutApply 0x400 4) ∧
    decodeTableWord 64 0x00000003_0000002B = some (.lutRead 3) := by decide

/-- `HUF_DECODE 0x100, 57, 0x400, 12` is the example of R62. -/
theorem test_decode_huffman :
    decodeTableWord 160 0x0000000C_00000400_00000039_00000100_00000030 = some (.hufDecode 0x100 57 0x400 12) ∧
    decodeTableWord 64 0x00000001_00000031 = some (.hufPackRead 1) ∧
    decodeTableWord 96 0x00000001_00002000_00000032 = some (.hufDecRead 0x2000 1) := by decide

theorem test_decode_wavelet :
    decodeTableWord 192 0x00000002_00000001_00000002_00000003_00000400_00000040 = some (.wavFwd .w14 0x400 3 2 1 2) ∧
    decodeTableWord 192 0x00000002_00000001_00000002_00000003_00000400_00000140 = some (.wavFwd .w16 0x400 3 2 1 2) ∧
    decodeTableWord 192 0x00000002_00000001_00000002_00000003_00000400_00000241 = some (.wavInv .auto 0x400 3 2 1 2) := by decide

theorem test_encode_huffman : encode (.hufDecode 0x100 57 0x400 12) =
    [0x30, 0, 0, 0, 0, 1, 0, 0, 0x39, 0, 0, 0, 0, 4, 0, 0, 0x0C, 0, 0, 0] ++ List.replicate 12 0 := by decide

/-! ## The host and the sequencer -/

/-- S2: `CTRL = 0x3` on a stopped core starts it with the interrupt enabled; at `END`, `STATUS` is 0x12. -/
theorem test_go_and_end : (State.writeCtrl (State.resetWith prm) 0x3).register 0x08 = 0x01 ∧
    nextIs (exec .endChain ((State.resetWith prm).writeCtrl 0x3)) (fun t => t.register 0x08 == 0x12) = true := by decide +kernel

/-- S4 and S16: `CLR` keeps `CMDCNT`; S17: ignored while `BUSY`. -/
theorem test_clr : State.register (State.writeCtrl { State.resetWith prm with seq := .done, cmdCnt := 2 } 0x4) 0x1C = 2 ∧
    State.writeCtrl (run []) 0x4 = run [] := by decide +kernel

/-- S7: the step on an unknown opcode. -/
theorem test_step_badop : step (run (put [] 0x8000 [0x02])) = .next ((run (put [] 0x8000 [0x02])).errorStep .pBadop 0x2) := by rfl

/-- S6: 0xFFE0 fetches, 0xFFF0 does not. -/
theorem test_step_range : raises (step { run [] with cp := 0xFFF0 }) { run [] with cp := 0xFFF0 } .pRange 0xFFF0 = true ∧
    nextIs (step { run [] with cp := 0xFFE0 }) (fun t => t.cp == 0x10000) = true := by decide +kernel

/-- 95_test_vectors.md section 0: `STATUS` 0x0C is a programmer error, 0x04 a format error. -/
theorem test_status_of_errors : ((run []).errorStep .pAlign 2).register 0x08 = 0x0C ∧
    ((run []).errorStep .fHufHdr 4).register 0x08 = 0x04 := by decide +kernel

/-- The host port: a 4-byte write and a 2-byte read, little-endian (R55). -/
theorem test_host_dmem : nextIs (hostAct (.memWrite 0x11 4 0xAABBCCDD) { run [] with seq := .idle }) (fun t =>
    bytes t 0x10 6 == [0, 0xDD, 0xCC, 0xBB, 0xAA, 0] && nextIs (hostAct (.memRead 0x12 2) t) (fun u => u.hostData == 0xBBCC)) = true := by
  decide +kernel

/-- The fetched word runs: `withFetchWord` with `BM_CLEAR` from reset. -/
theorem test_withFetchWord : nextIs (step (State.withFetchWord (State.resetWith prm) 32 0x20)) (fun t =>
    t.valid.bmv && t.cp == 32 && t.cmdCnt == 1) = true := by decide +kernel

/-! ## Bit I/O -/

/-- B2. -/
theorem test_brRead : nextIs (exec (.brRead 10 0x200) (reader 3)) (fun t =>
    bytes t 0x200 2 == [0xAB, 0x40] && t.res.r0 == 10 && t.reader.pos == 13 && !t.reader.ovr) = true := by decide +kernel

/-- B3. -/
theorem test_brRead_over : nextIs (exec (.brRead 8 0x202) (reader 13)) (fun t =>
    bytes t 0x202 1 == [0x80] && t.res.r0 == 3 && t.reader.pos == 16 && t.reader.ovr) = true := by decide +kernel

/-- B7 and B8. -/
theorem test_brAlign : nextIs (exec .brAlign (reader 13)) (fun t => t.reader.pos == 16 && t.res.r0 == 2) = true ∧
    nextIs (exec .brAlign { run [] with reader := ⟨0x100, 14, 13, false⟩ }) (fun t => t.reader.pos == 14 && t.res.r0 == 2) = true := by
  decide +kernel

/-- B16, its second write: 6 bits after `BW_ALIGN`. -/
theorem test_bwWrite : nextIs (exec (.bwWrite 6 0x10 1) { writer 36 8 with dmem := put (writer 36 8).dmem 0x300 [0x3C] }) (fun t =>
    bytes t 0x300 5 == [0x3C, 0x3C, 0, 0, 0] && t.writer.pos == 14) = true := by decide +kernel

/-- B16: `BW_INIT` zeroes its bytes and no other. -/
theorem test_bwInit : nextIs (exec (.bwInit 0x300 36) (run (put [] 0x2FF (List.replicate 8 0x55)))) (fun t =>
    bytes t 0x2FF 8 == [0x55, 0, 0, 0, 0, 0, 0x55, 0x55] && t.writer == ⟨0x300, 36, 0⟩) = true := by decide +kernel

/-- B18. -/
theorem test_bwAlign : nextIs (exec .bwAlign (writer 10 6)) (fun t => t.writer.pos == 8 && t.res.r0 == 1) = true := by decide +kernel

/-! ## Bitmap and LUT -/

/-- M1. -/
theorem test_bmScan : nextIs (exec (.bmScan 0x400 4) { bitmapOf [] with dmem := putS [] 0x400 [0, 3, 3, 8] }) (fun t =>
    bitmapByte t.bitmap 0 == 0x09 && bitmapByte t.bitmap 1 == 0x01 && bitmapByte t.bitmap 2 == 0) = true := by decide +kernel

/-- Scenario 2 and M3. -/
theorem test_bmBounds : nextIs (exec .bmBounds (bitmapOf [2, 3, 5, 9, 15])) (fun t => t.res == ⟨0, 1, 0, 0⟩) = true ∧
    nextIs (exec .bmBounds (bitmapOf [0xFFFF])) (fun t => t.res == ⟨8191, 8191, 0, 0⟩) = true ∧
    nextIs (exec .bmBounds (bitmapOf [])) (fun t => t.res == ⟨0, 0, 1, 0⟩) = true := by decide +kernel

/-- M7. -/
theorem test_bmLoad : nextIs (exec (.bmLoad 0x10 8190 8191) (run (put [] 0x10 [0x2C, 0x82]))) (fun t =>
    bitmapByte t.bitmap 8190 == 0x2C && bitmapByte t.bitmap 8191 == 0x82 && bitmapByte t.bitmap 8189 == 0 && t.valid.bmv &&
      t.res.r0 == 2) = true := by decide +kernel

/-- Scenario 2. -/
theorem test_bmStore : nextIs (exec (.bmStore 0x20 0 1) (bitmapOf [2, 3, 5, 9, 15])) (fun t =>
    bytes t 0x1F 4 == [0, 0x2C, 0x82, 0] && t.res.r0 == 2) = true := by decide +kernel

/-- Scenario 4. -/
theorem test_lutFwd : nextIs (exec .lutFwd (bitmapOf [2, 5, 9])) (fun t =>
    (List.range 12).map (fun v => (t.lut.get lutBits v).toNat) == [0, 0, 1, 0, 0, 2, 0, 0, 0, 3, 0, 0] &&
      t.register 0x30 == 3 && t.register 0x34 == 3 && t.res.r0 == 3) = true := by decide +kernel

/-- Scenario 4. -/
theorem test_lutRev : nextIs (exec .lutRev (bitmapOf [2, 5, 9])) (fun t =>
    (List.range 6).map (fun v => (t.lut.get lutBits v).toNat) == [0, 2, 5, 9, 0, 0] && t.register 0x30 == 3 &&
      t.register 0x34 == 7) = true := by decide +kernel

/-- Scenario 4. -/
theorem test_lutApply : nextIs (exec (.lutApply 0x400 4)
    { bitmapOf [] with dmem := putS [] 0x400 [9, 0, 5, 2, 9], lut := lutForward (bitmapOf [2, 5, 9]).bitmap, valid.lutv := true })
    (fun t => samples t 0x400 5 == [3, 0, 2, 1, 9]) = true := by decide +kernel

/-! ## Huffman -/

/-- The example of R106 (section 5.1): the samples and the results. -/
theorem test_hufDecode : nextIs (exec (.hufDecode 0x100 26 0x400 32) (run block0)) (fun t =>
    samples t 0x400 33 == List.replicate 30 1 ++ [2, 3, 0] && t.res == ⟨1, 4, 3, 17⟩ && t.valid.hufv &&
      packAt t.pack 1 == 0x41 && packAt t.pack 2 == 0x03 && packAt t.pack 4 == 0x42 && packAt t.pack 5 == 0 &&
      t.dec.get decBits 0x07FF == .short 3 2 && t.dec.get decBits 0x1FFF == .short 2 4 && t.dec.get decBits 0x2000 == .short 1 1) = true := by
  decide +kernel

/-- H13: a format error. -/
theorem test_hufDecode_notenough : nextIs (exec (.hufDecode 0x100 26 0x400 33) (run block0)) (fun t =>
    t.seq == .error .format && t.err == ⟨some .fHufNotenough, 32, 0x8000⟩ && !t.valid.hufv && t.cp == 0x8000) = true := by decide +kernel

/-- Scenario 3: the canonical codes of the lengths `3,4,4,3,2,4,4,2`. -/
theorem test_hufPacks : (List.range 8).map (packAt (hufPacks [(0, 3), (1, 4), (2, 4), (3, 3), (4, 2), (5, 4), (6, 4), (7, 2)])) =
    [0x83, 0x04, 0x44, 0xC3, 0x82, 0x84, 0xC4, 0xC2] := by decide +kernel

/-- The readbacks of section 5.1. -/
theorem test_huf_readbacks : nextIs (exec (.hufPackRead 3) { run [] with pack := hufPacks [(1, 1), (2, 3), (3, 3), (4, 2)], valid.hufv := true })
      (fun t => t.res == ⟨0x43, 0, 3, 1⟩) = true ∧
    nextIs (exec (.hufDecRead 5 1) { run [] with dec := (Tab.leaf .empty).set decBits 5 (.long [14, 15]), valid.hufv := true })
      (fun t => t.res == ⟨2, 2, 15, 0⟩) = true := by decide +kernel

/-! ## Wavelet -/

/-- The examples of R121 and R122. -/
theorem test_pairs : enc14 10 4 = (7, 6) ∧ enc14 4 10 = (7, 0xFFFA) ∧ dec14 7 0xFFFA = (4, 10) ∧ enc16 10 4 = (16391, 32774) ∧
    enc16 4 10 = (16391, 32762) := by decide

/-- The example of R124. -/
theorem test_wavFwd : nextIs (exec (.wavFwd .w14 0x400 2 2 1 2) plane22) (fun t => samples t 0x400 5 == [5, 6, 4, 0, 0]) = true := by
  decide +kernel

/-- The example of R125. -/
theorem test_wavInv : nextIs (exec (.wavInv .w14 0x400 2 2 1 2) (run (putS [] 0x400 [5, 6, 4, 0]))) (fun t =>
    samples t 0x400 5 == [10, 4, 6, 0, 0]) = true := by decide +kernel

/-! ## Witnesses for the statements about the sequencer -/

theorem inv_run : (run []).Inv := ⟨by decide, ⟨rfl, rfl⟩, by decide, by decide, rfl⟩

theorem tables_run : (run []).TablesOk := ⟨by decide, by decide, fun h => absurd h (by decide)⟩

theorem witness_NopOnlyRetires : (⟨0, 1, 2, 3, 4, 5, 6, 7⟩ : Descriptor).w0 = 0 := by decide

theorem witness_EndIsTheOnlyGoodEnd :
    nextIs (exec .endChain (run [])) (fun t => decide ((run []).seq = .running ∧ t.seq = .done)) = true := by decide +kernel

/-- A running chain, a stopped core, and the host's turn. -/
theorem witness_StepRunsTheDecodedCommand : (run []).seq = .running ∧ (run []).cp.toNat % 4 = 0 ∧
    (run []).cp.toNat + 32 ≤ (run []).params.dmemSize ∧ (run []).hostTurns = [] ∧
    ({ run [] with hostTurns := [.core] } : State).hostTurns = .core :: [] ∧
    (decode (fetchBytes (run []).dmem (run []).cp.toNat)) = .ok (.nop, []) ∧
    ((State.resetWith prm).seq ≠ .running ∧ (State.resetWith prm).hostTurns = [] ∧
      ({ State.resetWith prm with hostTurns := [.core] } : State).hostTurns = .core :: []) ∧
    ({ run [] with hostTurns := [.act (.regRead 0 4)] } : State).hostTurns = .act (.regRead 0 4) :: [] := by
  refine ⟨by decide, by decide, by decide, rfl, rfl, ?_, by decide, rfl⟩
  decide +kernel

/-- The four clauses: the first unaligned address, the first one past the last that fetches, that one itself with an illegal word
and with a legal one. -/
theorem witness_FetchChecksInOrder :
    ({ run [] with cp := 0x8001 } : State).cp.toNat % 4 ≠ 0 ∧
    (({ run [] with cp := 0xFFE4 } : State).cp.toNat % 4 = 0 ∧ prm.dmemSize < ({ run [] with cp := 0xFFE4 } : State).cp.toNat + 32) ∧
    ((0xFFE0 : Word).toNat % 4 = 0 ∧ (0xFFE0 : Word).toNat + 32 ≤ prm.dmemSize ∧
      (descriptorAt (put [] 0xFFE0 [2]) 0xFFE0).legal = false) ∧
    (descriptorAt [] 0xFFE0).legal = true := by decide +kernel

theorem witness_FetchReadsOnlyTheDescriptor :
    ∀ a, InBytes a (run []).cp.toNat 32 → (put (run []).dmem 0x8020 [1]).read a = (run []).dmem.read a := by
  intro a ha
  have h1 : (run []).cp.toNat = 0x8000 := by decide
  rw [h1] at ha
  exact (writeList_eq_writeBytes (m := (run []).dmem) rfl 0x8020 _ a).trans (if_neg (by simp; omega))

theorem witness_CommandRetiresOrStops : (run []).Inv ∧ (run []).seq = .running := ⟨inv_run, rfl⟩

/-- An error of a plain command, and one of a `HUF_DECODE` after its programmer checks. -/
theorem witness_ErrorsArePrecise : (run block0).dmem.wf = true ∧ (run block0).seq = .running ∧
    nextIs (exec (.brSeek 1) (run block0)) (fun t => decide (t.seq = .error .programmer)) = true ∧
    nextIs (exec (.hufDecode 0x100 26 0x400 33) (run block0)) (fun t => decide (t.seq = .error .format)) = true := by decide +kernel

/-- The stop, in states no run reaches, and a state of the invariant. -/
theorem witness_OnlyStrayStreamsFault :
    exec (.brRead 1 0x400) { run [] with reader := ⟨0xFFFF, 9, 0, false⟩ } = .fault (.streamOutsideDmem 0xFFFF) ∧
    exec (.bwWrite 1 0x400 1) { run [] with writer := ⟨0xFFFF, 9, 0⟩ } = .fault (.streamOutsideDmem 0xFFFF) ∧ (run []).Inv :=
  ⟨by rfl, by rfl, inv_run⟩

theorem witness_EveryChainStops : (run []).Inv ∧ (run []).seq = .running ∧ (run []).hostTurns = [] := ⟨inv_run, rfl, rfl⟩

/-! ## Witnesses for the statements about the host -/

theorem witness_CtrlWriteActsInOrder :
    (0x8 : Word).getLsbD 3 = true ∧
    ((0x2 : Word).getLsbD 3 = false ∧ (run []).busy = true) ∧
    ((0x2 : Word).getLsbD 3 = false ∧ (State.resetWith prm).busy = false ∧ (0x2 : Word).getLsbD 2 = false ∧ (0x2 : Word).getLsbD 0 = false) ∧
    ((0x4 : Word).getLsbD 3 = false ∧ (State.resetWith prm).busy = false ∧ (0x4 : Word).getLsbD 2 = true ∧ (0x4 : Word).getLsbD 0 = false) ∧
    ((0x1 : Word).getLsbD 3 = false ∧ (State.resetWith prm).busy = false ∧ (0x1 : Word).getLsbD 0 = true) := by decide

theorem witness_SoftResetKeepsDmem : (0xF : Word).getLsbD 3 = true := by decide

theorem witness_RegisterBlockAccesses : (0x58 % 4 = 0 ∧ 0x58 < 256 ∧ 0x58 ≤ 0x58) ∧ (0xFC % 4 = 0 ∧ 0xFC < 256) ∧
    (0x00 ≠ 0x04 ∧ 0x00 ≠ 0x0C) ∧ (run []).busy = true ∧ (State.resetWith prm).busy = false ∧
    (prm.regHostBase + 256 ≤ prm.dmemHostBase ∨ prm.dmemHostBase + prm.dmemSize ≤ prm.regHostBase) := by decide

theorem witness_ErrorCodesTellErrorsApart : (run []).err.code = none ∧
    ((run []).errorStep .pBadop 0).err.code = some .pBadop ∧ ((run []).errorStep .fHufNotenough 0).err.code = some .fHufNotenough := by
  decide

/-- The last 1, 2 and 4 bytes of DMEM. -/
theorem witness_DmemPortOfAStoppedCore : (State.resetWith prm).dmem.wf = true ∧ (State.resetWith prm).busy = false ∧
    65535 + 1 ≤ (State.resetWith prm).params.dmemSize ∧ 65534 + 2 ≤ (State.resetWith prm).params.dmemSize ∧
    65532 + 4 ≤ (State.resetWith prm).params.dmemSize ∧ 65535 < prm.dmemSize ∧
    (prm.regHostBase + 256 ≤ prm.dmemHostBase ∨ prm.dmemHostBase + prm.dmemSize ≤ prm.regHostBase) := by decide

theorem witness_DmemPortOfARunningCore : (run []).dmem.wf = true ∧ (run []).busy = true ∧
    65535 + 1 ≤ (run []).params.dmemSize ∧ 65532 + 4 ≤ (run []).params.dmemSize := by decide

/-! ## Witnesses for the whole-machine rules -/

/-- R124, R125: of a 3x3 plane every sample but the corner of the odd column and line is written; of a 3x4 plane all are. -/
theorem test_corner_not_written :
    ((List.range 3).all fun x => (List.range 3).all fun y => decide ((planeOf 0x400 3 3 1 3).Writes x y) != (x == 2 && y == 2)) = true ∧
    ((List.range 3).all fun x => (List.range 4).all fun y => decide ((planeOf 0x400 3 4 1 3).Writes x y)) = true := by decide +kernel

/-- R55, log 8: in a raced chain too, `WAV_FWD` on a 3x3 plane leaves the two bytes of that corner. -/
theorem test_raced_corner_kept : nextIs (exec (.wavFwd .w14 0x400 3 3 1 3) { run (putS [] 0x410 [7]) with hostRaced := true })
    (fun t => t.hostRaced) = true ∧
    ∀ t, exec (.wavFwd .w14 0x400 3 3 1 3) { run (putS [] 0x410 [7]) with hostRaced := true } = .next t → t.dmem.read 0x410 = 7 := by
  have hq : ¬ (planeOf 0x400 3 3 1 3).WritesByte 0x410 := by
    rintro ⟨x, y, hw, hb⟩
    have hlt := lt_of_writes hw
    have h3 : (planeOf 0x400 3 3 1 3) = ⟨0x400, 3, 3, 1, 3⟩ := by decide
    have ht := test_corner_not_written.1
    rw [List.all_eq_true] at ht
    have ht := ht x (List.mem_range.2 (by rw [h3] at hlt; exact hlt.1))
    rw [List.all_eq_true] at ht
    have ht := ht y (List.mem_range.2 (by rw [h3] at hlt; exact hlt.2))
    rw [decide_eq_true hw] at ht
    rw [h3] at hlt hb
    simp only [Plane.addr] at hlt hb
    have hxy : x = 2 ∧ y = 2 := by omega
    simp [hxy.1, hxy.2] at ht
  have hwf : (putS [] 0x410 [7]).wf = true := by decide +kernel
  have hm := wavForward_keeps (plane_keeps_byte hq ((putS [] 0x410 [7]).read 0x410)) false ⟨hwf, rfl⟩
  refine ⟨by decide +kernel, fun t ht => ?_⟩
  have he : exec (.wavFwd .w14 0x400 3 3 1 3) { run (putS [] 0x410 [7]) with hostRaced := true } =
      .next (({ run (putS [] 0x410 [7]) with hostRaced := true } : State).commit
        (wavForwardOf false (planeOf 0x400 3 3 1 3) (putS [] 0x410 [7])) (planeOf 0x400 3 3 1 3).written).retire := by rfl
  rw [he] at ht
  cases ht
  refine (read_commit_other hm.1 fun w hwr hb => ?_).trans (hm.2.trans (by decide +kernel))
  obtain ⟨x, y, hxy, rfl⟩ := mem_written.1 hwr
  exact hq ⟨x, y, hxy, hb⟩

/-- A store, and the byte after it; a store in a raced chain; a command that stores nothing. For a wavelet command, see
`test_corner_not_written`. -/
theorem witness_CommandsStoreOnlyTheirBytes : (bitmapOf [2]).dmem.wf = true ∧
    nextIs (exec (.bmStore 0x20 0 1) (bitmapOf [2])) (fun _ => true) = true ∧ ¬ Stores (.bmStore 0x20 0 1) (bitmapOf [2]) 0x22 ∧
    nextIs (exec (.bmStore 0x20 0 1) { bitmapOf [2] with hostRaced := true }) (fun _ => true) = true ∧
    nextIs (exec .nop (run [])) (fun _ => true) = true ∧ ¬ Stores .nop (run []) 0 := by
  refine ⟨by decide +kernel, by decide +kernel, ?_, by decide +kernel, by decide +kernel, id⟩
  show ¬ InBytes 0x22 (operandU 0x20) (operandU 1 - operandU 0 + 1)
  decide

theorem witness_StateHasItsOwnWriters : nextIs (exec .bmClear (run [])) (fun t => t.valid.bmv) = true ∧
    nextIs (exec .lutFwd (bitmapOf [])) (fun t => t.valid.bmv && t.valid.lutv) = true ∧
    nextIs (exec (.brInit 0 1) (run [])) (fun t => decide (t.reader ≠ (run []).reader)) = true ∧
    nextIs (exec (.bwInit 0 1) (run [])) (fun t => decide (t.writer ≠ (run []).writer)) = true := by decide +kernel

theorem witness_ResultRegistersHaveTheirWriters :
    (resultRegs .nop < 1 ∧ resultRegs .brRemain < 2 ∧ resultRegs .brRemain < 3 ∧ resultRegs .bmBounds < 4) ∧
    nextIs (exec .bmBounds (run [])) (fun t => decide ((run []).seq = .running ∧ t.seq = .error .programmer)) = true ∧
    (0x7 : Word).getLsbD 3 = false := by decide +kernel

theorem witness_StepKeepsTheInvariant : (run []).Inv ∧ nextIs (step (run [])) (fun _ => true) = true := ⟨inv_run, by decide +kernel⟩

theorem witness_StepKeepsTheTables : (run []).TablesOk ∧ nextIs (step (run [])) (fun _ => true) = true := ⟨tables_run, by decide +kernel⟩

/-- The least and the greatest DMEM. -/
theorem witness_ResetMeetsTheInvariants : Params.Valid ⟨64, 0, 0, 0⟩ ∧ Params.Valid ⟨2147483648, 0, 0, 0⟩ := by decide

/-! ## Witnesses for the encoding -/

theorem witness_DecodeOfEncode : Instr.wellFormed (.wavFwd .auto 0xFFFFFFFF 0 1 2 3) = true ∧ Instr.wellFormed .nop = true := by decide

theorem witness_ExactlyLegalDescriptorsDecode : (run (put [] 0x8000 [0x42])).seq = .running ∧
    (run (put [] 0x8000 [0x42])).hostTurns = [] ∧ (run (put [] 0x8000 [0x42])).cp.toNat % 4 = 0 ∧
    (run (put [] 0x8000 [0x42])).cp.toNat + 32 ≤ (run (put [] 0x8000 [0x42])).params.dmemSize ∧
    ∀ i, decodeDescriptor (descriptorAt (run (put [] 0x8000 [0x42])).dmem 0x8000) ≠ .ok i := by
  refine ⟨rfl, rfl, by decide, by decide, fun i h => ?_⟩
  have : decodeDescriptor (descriptorAt (run (put [] 0x8000 [0x42])).dmem 0x8000) = .error (.unknownOpcode 0x42) := by decide +kernel
  rw [this] at h
  cases h

theorem witness_DecodeTakesTheUsedWords :
    decodeDescriptor ⟨0x240, 1, 2, 3, 4, 5, 6, 7⟩ = .ok (.wavFwd .auto 1 2 3 4 5) ∧ operandWords (.wavFwd .auto 1 2 3 4 5) = 5 ∧
    decodeDescriptor ⟨0x13, 1, 2, 3, 4, 5, 6, 7⟩ = .ok .brRemain := by decide

/-! ## Witnesses for bit I/O -/

/-- B13 and B12. -/
theorem witness_BrInitMakesAReader : (run []).inRange (0xFFFF : Word).toNat (ceil8 (8 : Word).toNat) ∧
    ¬ (run []).inRange (0xFFFF : Word).toNat (ceil8 (9 : Word).toNat) := by decide

/-- The most negative `k`; one byte too many at the end; the last overlapping place and the first free one, behind the stream. -/
theorem witness_BrReadTakesBits :
    (0x80000000 : Word).toInt < 0 ∧
    (0 ≤ (9 : Word).toInt ∧ ¬ (reader 3).inRange (0xFFFF : Word).toNat (ceil8 (9 : Word).toNat)) ∧
    (0 ≤ (8 : Word).toInt ∧ (reader 3).inRange (0x101 : Word).toNat (ceil8 (8 : Word).toNat) ∧
      Overlap (0x101 : Word).toNat (ceil8 (8 : Word).toNat) (reader 3).reader.base.toNat (ceil8 (reader 3).reader.n.toNat)) ∧
    (0 ≤ (10 : Word).toInt ∧ (reader 3).inRange (0x102 : Word).toNat (ceil8 (10 : Word).toNat) ∧
      ¬ Overlap (0x102 : Word).toNat (ceil8 (10 : Word).toNat) (reader 3).reader.base.toNat (ceil8 (reader 3).reader.n.toNat) ∧
      (reader 3).ReaderOk ∧ (reader 3).dmem.wf = true ∧ (reader 3).hostRaced = false) := by decide +kernel

theorem witness_BrCursorCommands : (reader 0).reader.n.toNat < (17 : Word).toNat ∧ (16 : Word).toNat ≤ (reader 0).reader.n.toNat ∧
    (reader 16).ReaderOk := by decide +kernel

theorem witness_BwInitMakesAnEmptyWriter : (run []).dmem.wf = true ∧ (run []).hostRaced = false ∧
    (run []).inRange (0xFFFF : Word).toNat (ceil8 (8 : Word).toNat) ∧ ¬ (run []).inRange (0xFFFF : Word).toNat (ceil8 (9 : Word).toNat) := by
  decide

/-- B26, B20, B25, B22, B24, and the write that fills the writer. -/
theorem witness_BwWritePutsBits :
    (0x80000000 : Word).toInt < 0 ∧
    (0 ≤ (9 : Word).toInt ∧ 8 * (1 : Word).toNat < (9 : Word).toNat) ∧
    ((0 : Word).toNat ≤ 8 * (2 : Word).toNat ∧ ¬ (writer 40 0).inRange (0xFFFF : Word).toNat (2 : Word).toNat) ∧
    ((5 : Word).toNat ≤ 8 * (1 : Word).toNat ∧ (writer 4 0).inRange (0x10 : Word).toNat (1 : Word).toNat ∧
      (writer 4 0).writer.cap.toNat < (writer 4 0).writer.pos.toNat + (5 : Word).toNat) ∧
    ((8 : Word).toNat ≤ 8 * (1 : Word).toNat ∧ (writer 40 0).inRange (0x304 : Word).toNat (1 : Word).toNat ∧
      (writer 40 0).writer.pos.toNat + (8 : Word).toNat ≤ (writer 40 0).writer.cap.toNat ∧
      Overlap (0x304 : Word).toNat (ceil8 (8 : Word).toNat) (writer 40 0).writer.base.toNat (ceil8 (writer 40 0).writer.cap.toNat)) ∧
    (0 ≤ (6 : Word).toInt ∧ (6 : Word).toNat ≤ 8 * (1 : Word).toNat ∧ (writer 36 30).inRange (0x10 : Word).toNat (1 : Word).toNat ∧
      (writer 36 30).writer.pos.toNat + (6 : Word).toNat ≤ (writer 36 30).writer.cap.toNat ∧
      ¬ Overlap (0x10 : Word).toNat (ceil8 (6 : Word).toNat) (writer 36 30).writer.base.toNat (ceil8 (writer 36 30).writer.cap.toNat) ∧
      (writer 36 30).WriterOk ∧ (writer 36 30).dmem.wf = true ∧ (writer 36 30).hostRaced = false) := by decide +kernel

theorem witness_BwCursorCommands : (writer 36 36).WriterOk := by decide +kernel

theorem inv_stream : (run (put [] 0x10 [0x3C, 0xA5, 0x70])).Inv :=
  ⟨by decide, ⟨by decide +kernel, by decide +kernel⟩, by decide, by decide, rfl⟩

/-- Two chunks that fill the writer exactly; the destinations lie side by side. -/
theorem witness_BitStreamsRoundTrip : (run (put [] 0x10 [0x3C, 0xA5, 0x70])).Inv ∧
    (run (put [] 0x10 [0x3C, 0xA5, 0x70])).hostRaced = false ∧ (run []).inRange (0x300 : Word).toNat (ceil8 (16 : Word).toNat) ∧
    (([⟨6, 0x10, 0x400⟩, ⟨10, 0x11, 0x401⟩] : List Chunk).map fun c => c.k.toNat).sum ≤ (16 : Word).toNat ∧
    (∀ c ∈ ([⟨6, 0x10, 0x400⟩, ⟨10, 0x11, 0x401⟩] : List Chunk), 0 ≤ c.k.toInt ∧
      (run []).inRange c.src.toNat (ceil8 c.k.toNat) ∧ (run []).inRange c.dst.toNat (ceil8 c.k.toNat) ∧
      ¬ Overlap c.src.toNat (ceil8 c.k.toNat) (0x300 : Word).toNat (ceil8 (16 : Word).toNat) ∧
      ¬ Overlap c.dst.toNat (ceil8 c.k.toNat) (0x300 : Word).toNat (ceil8 (16 : Word).toNat)) ∧
    ([⟨6, 0x10, 0x400⟩, ⟨10, 0x11, 0x401⟩] : List Chunk).Pairwise
      (fun c c' => ¬ Overlap c.dst.toNat (ceil8 c.k.toNat) c'.dst.toNat (ceil8 c'.k.toNat)) :=
  ⟨inv_stream, rfl, by decide, by decide, by decide, by decide⟩

/-! ## Witnesses for the bitmap and the LUT -/

theorem witness_BmBitCommands : 0xFFFF < (0x10000 : Word).toNat ∧ ((0xFFFF : Word).toNat ≤ 0xFFFF ∧ (run []).valid.bmv = false) ∧
    ((0xFFFF : Word).toNat ≤ 0xFFFF ∧ (bitmapOf []).valid.bmv = true) := by decide +kernel

/-- M13, M14 and the last two samples of DMEM. -/
theorem witness_BmScanSetsObservedValues : (0x401 : Word).toNat % 2 ≠ 0 ∧
    ((0xFFFE : Word).toNat % 2 = 0 ∧ ¬ (run []).inRange (0xFFFE : Word).toNat (2 * (2 : Word).toNat)) ∧
    ((0xFFFC : Word).toNat % 2 = 0 ∧ (run []).inRange (0xFFFC : Word).toNat (2 * (2 : Word).toNat) ∧ (run []).valid.bmv = false) ∧
    ((0xFFFC : Word).toNat % 2 = 0 ∧ (bitmapOf []).inRange (0xFFFC : Word).toNat (2 * (2 : Word).toNat) ∧
      (bitmapOf []).valid.bmv = true) := by decide +kernel

theorem witness_BmBoundsFindsTheEnds : (run []).valid.bmv = false ∧
    ((bitmapOf []).valid.bmv = true ∧ ∀ i, i < 8192 → bitmapByte (bitmapOf []).bitmap i = 0) ∧
    ((bitmapOf [0xFFFF]).valid.bmv = true ∧ ∃ i, i < 8192 ∧ bitmapByte (bitmapOf [0xFFFF]).bitmap i ≠ 0) :=
  ⟨rfl, ⟨rfl, fun i _ => get_leaf 0 bitmapBits i⟩, by decide +kernel, 8191, by decide +kernel, by decide +kernel⟩

/-- M17, M18, M19 and M7's bounds. -/
theorem witness_BmLoadCopiesTheSlice : ((1 : Word).toNat < (2 : Word).toNat ∨ 8191 < (1 : Word).toNat) ∧
    ((8192 : Word).toNat < (0 : Word).toNat ∨ 8191 < (8192 : Word).toNat) ∧
    ((0 : Word).toNat ≤ (1 : Word).toNat ∧ (1 : Word).toNat ≤ 8191 ∧
      ¬ (run []).inRange (0xFFFF : Word).toNat ((1 : Word).toNat - (0 : Word).toNat + 1)) ∧
    ((8190 : Word).toNat ≤ (8191 : Word).toNat ∧ (8191 : Word).toNat ≤ 8191 ∧
      (run []).inRange (0xFFFE : Word).toNat ((8191 : Word).toNat - (8190 : Word).toNat + 1)) := by decide +kernel

/-- M20, M22, M21 and a slice at the end of DMEM. -/
theorem witness_BmStoreCopiesTheSlice : ((2 : Word).toNat < (3 : Word).toNat ∨ 8191 < (2 : Word).toNat) ∧
    ((0 : Word).toNat ≤ (1 : Word).toNat ∧ (1 : Word).toNat ≤ 8191 ∧
      ¬ (run []).inRange (0xFFFF : Word).toNat ((1 : Word).toNat - (0 : Word).toNat + 1)) ∧
    ((run []).inRange (0xFFFE : Word).toNat ((1 : Word).toNat - (0 : Word).toNat + 1) ∧ (run []).valid.bmv = false) ∧
    ((bitmapOf [9]).inRange (0xFFFE : Word).toNat ((1 : Word).toNat - (0 : Word).toNat + 1) ∧ (bitmapOf [9]).valid.bmv = true ∧
      (bitmapOf [9]).dmem.wf = true ∧ (bitmapOf [9]).hostRaced = false) := by decide +kernel

/-- Value 65535 is live and value 1 is not. -/
theorem witness_LutFwdRanksLiveValues : (run []).valid.bmv = false ∧ (bitmapOf [0xFFFF]).valid.bmv = true ∧
    live (bitmapOf [0xFFFF]).bitmap 0xFFFF = true ∧ live (bitmapOf [0xFFFF]).bitmap 0 = true ∧ live (bitmapOf [0xFFFF]).bitmap 1 = false := by
  decide +kernel

theorem witness_LutRevListsLiveValues : (run []).valid.bmv = false ∧ (bitmapOf [0xFFFF]).valid.bmv = true ∧
    live (bitmapOf [0xFFFF]).bitmap 0xFFFF = true ∧ rank (bitmapOf [0xFFFF]).bitmap 65536 ≤ 65535 := by
  refine ⟨rfl, by decide +kernel, by decide +kernel, ?_⟩
  have h1 : live (bitmapOf [0xFFFF]).bitmap 1 = false := by decide +kernel
  have h : rank (bitmapOf [0xFFFF]).bitmap 65536 ≠ (List.range 65536).length := fun he =>
    absurd (List.countP_eq_length.1 he 1 (List.mem_range.2 (by omega))) (by rw [h1]; decide)
  have hle : rank (bitmapOf [0xFFFF]).bitmap 65536 ≤ (List.range 65536).length := List.countP_le_length
  rw [List.length_range] at h hle
  omega

theorem witness_BitmapAndLutLaws : (0xFFFC : Word).toNat % 2 = 0 ∧ (run []).inRange (0xFFFC : Word).toNat (2 * (2 : Word).toNat) := by
  decide

/-- M25, the end of DMEM, M24, M26, M27. -/
theorem witness_LutApplyAndRead : (0x401 : Word).toNat % 2 ≠ 0 ∧
    ((0xFFFE : Word).toNat % 2 = 0 ∧ ¬ (run []).inRange (0xFFFE : Word).toNat (2 * (2 : Word).toNat)) ∧
    ((0xFFFC : Word).toNat % 2 = 0 ∧ (run []).inRange (0xFFFC : Word).toNat (2 * (2 : Word).toNat) ∧ (run []).valid.lutv = false) ∧
    (({ run [] with valid.lutv := true } : State).valid.lutv = true ∧ (run []).dmem.wf = true ∧ (run []).hostRaced = false) ∧
    0xFFFF < (0x10000 : Word).toNat ∧ (0xFFFF : Word).toNat ≤ 0xFFFF := by decide

/-! ## Witnesses for the Huffman decoder -/

/-- H25, H26, H27, H28. -/
theorem witness_HufProgrammerChecks : (0x401 : Word).toNat % 2 ≠ 0 ∧
    ((0x400 : Word).toNat % 2 = 0 ∧ ¬ (run []).inRange (0xFFF0 : Word).toNat (26 : Word).toNat) ∧
    ((0x1000 : Word).toNat % 2 = 0 ∧ (run []).inRange (0x100 : Word).toNat (26 : Word).toNat ∧
      ¬ (run []).inRange (0x1000 : Word).toNat (2 * (0x7E00 : Word).toNat)) ∧
    ((0x110 : Word).toNat % 2 = 0 ∧ (run []).inRange (0x100 : Word).toNat (26 : Word).toNat ∧
      (run []).inRange (0x110 : Word).toNat (2 * (32 : Word).toNat) ∧
      Overlap (0x100 : Word).toNat (26 : Word).toNat (0x110 : Word).toNat (2 * (32 : Word).toNat)) := by decide

theorem checked_block0 : HufChecked (run block0) 0x100 26 0x11A 32 := by unfold HufChecked; decide +kernel

/-- Block B0, with the destination right behind it; H1's length; the header words of H2, H3, H4 and H5 instead. -/
theorem witness_HufHeaderChecks : HufChecked (run block0) 0x100 26 0x11A 32 ∧ block0.readLE 0x100 4 = 1 ∧ block0.readLE 0x104 4 = 4 ∧
    block0.readLE 0x108 4 = 3 ∧ block0.readLE 0x10C 4 = 17 ∧ HufChecked (run block0) 0x100 19 0x11A 32 ∧ (19 : Word).toNat < 20 ∧
    (put block0 0x100 [5]).readLE 0x100 4 = 5 ∧ (put block0 0x104 [1, 0, 1]).readLE 0x104 4 = 65537 ∧
    (put block0 0x108 [7]).readLE 0x108 4 = 7 ∧ (put block0 0x10C [25]).readLE 0x10C 4 = 25 := by
  refine ⟨checked_block0, ?_, ?_, ?_, ?_, ?_, by decide, ?_, ?_, ?_, ?_⟩
  case refine_5 => unfold HufChecked; decide +kernel
  all_goals decide +kernel

/-- The second part of the same statement: `tableLength` 2 on B0's table (H6), and three codes of length 1. -/
theorem witness_HufHeaderChecks_phases : HufChecked (run (put block0 0x108 [2])) 0x100 26 0x11A 32 ∧
    HufFramed (put block0 0x108 [2]) 0x100 26 ⟨1, 4, 2, 17⟩ ∧
    hufUnpack (put block0 0x108 [2]) 0x100 ⟨1, 4, 2, 17⟩ = .error (.fHufTable, 12) ∧
    HufFramed overfull 0x100 23 ⟨0, 2, 3, 0⟩ ∧ hufUnpack overfull 0x100 ⟨0, 2, 3, 0⟩ = .ok [(0, 1), (1, 1), (2, 1)] ∧
    hufBuild (hufPacks [(0, 1), (1, 1), (2, 1)]) [(0, 1), (1, 1), (2, 1)] (.leaf .empty) = .error (.fHufCode, 2) := by
  refine ⟨?_, ?_, by decide +kernel, ?_, by decide +kernel, by decide +kernel⟩
  · unfold HufChecked; decide +kernel
  · unfold HufFramed; decide +kernel
  · unfold HufFramed; decide +kernel

/-- H13 with the destination right behind the block. -/
theorem witness_HufFailureIsContained : HufChecked (run block0) 0x100 26 0x11A 33 ∧ (run block0).dmem.wf = true ∧
    (run block0).seq = .running ∧
    nextIs (exec (.hufDecode 0x100 26 0x11A 33) (run block0)) (fun t => decide (t.seq = .error .format)) = true := by
  refine ⟨?_, by decide +kernel, rfl, by decide +kernel⟩
  unfold HufChecked
  decide +kernel

theorem witness_HufSuccessWritesTheSamples : HufChecked (run block0) 0x100 26 0x11A 32 ∧ (run block0).dmem.wf = true ∧
    (run block0).hostRaced = false ∧ ∃ b, hufDecodeBlock (run block0).dmem 0x100 26 32 = .ok b := by
  exact ⟨checked_block0, by decide +kernel, rfl, exists_of_isOk _ (by decide +kernel)⟩

/-- The table of B0. -/
theorem table0 : StreamIs block0 0x114 0 (([.length 1, .length 3, .length 3, .length 2] : List TableItem).flatMap TableItem.bits) := by
  unfold StreamIs
  decide +kernel

/-- The table of B0 fills its 3 bytes, and is refused where `tableLength` is 4. -/
theorem witness_HufTableUnpacks : (1 ≤ 4) ∧ (∀ it ∈ ([.length 1, .length 3, .length 3, .length 2] : List TableItem), it.Ok) ∧
    tableCovers [.length 1, .length 3, .length 3, .length 2] = 4 + 1 - 1 ∧
    StreamIs block0 0x114 0 (([.length 1, .length 3, .length 3, .length 2] : List TableItem).flatMap TableItem.bits) ∧
    ceil8 (([.length 1, .length 3, .length 3, .length 2] : List TableItem).flatMap TableItem.bits).length = 3 ∧ 3 < 4 :=
  ⟨by decide, by simp [TableItem.Ok], by decide, table0, by decide, by decide⟩

/-- The refusals: B0's first two lengths in 2 bytes; a long run cut after its 6 bits; a run of two that passes the only symbol. -/
theorem witness_HufTableUnpacks_refusals :
    (StreamIs block0 0x114 0 (([.length 1, .length 3] : List TableItem).flatMap TableItem.bits) ∧ 12 ≤ 8 * 2 ∧ 8 * 2 < 12 + 6) ∧
    (StreamIs (put [] 20 [0xFC]) 20 0 (bitsOf 6 63) ∧ 0 + 6 ≤ 8 * 1 ∧ 8 * 1 < 0 + 14) ∧
    ((TableItem.shortRun 2).Ok ∧ StreamIs (put [] 20 [0xEC]) 20 0 (TableItem.shortRun 2).bits ∧
      0 + (TableItem.shortRun 2).bits.length ≤ 8 * 1 ∧ 0 + 1 - 0 < tableCovers [] + (TableItem.shortRun 2).covers) := by
  unfold StreamIs
  exact ⟨by decide +kernel, by decide +kernel, by simp [TableItem.Ok], by decide +kernel, by decide, by decide⟩

/-- Scenario 3, and lengths at both ends. -/
theorem witness_HufCodesAreCanonical :
    (([(0, 58), (65536, 1)] : List (Nat × Nat)).map (·.1)).Pairwise (· < ·) ∧
    (∀ sl ∈ ([(0, 58), (65536, 1)] : List (Nat × Nat)), sl.1 ≤ 65536 ∧ 1 ≤ sl.2 ∧ sl.2 ≤ 58) ∧ (1 : Nat) ≤ 65536 ∧
    ∀ l, (1, l) ∉ ([(0, 58), (65536, 1)] : List (Nat × Nat)) := by
  refine ⟨by decide, by decide, by decide, ?_⟩
  simp

theorem build0 : ∃ t, hufBuild (hufPacks [(1, 1), (2, 3), (3, 3), (4, 2)]) [(1, 1), (2, 3), (3, 3), (4, 2)] (.leaf .empty) = .ok t :=
  exists_of_isOk _ (by decide +kernel)

theorem witness_HufShortCodesArePrefixFree :
    (([(1, 1), (2, 3), (3, 3), (4, 2)] : List (Nat × Nat)).map (·.1)).Pairwise (· < ·) ∧
    (∀ sl ∈ ([(1, 1), (2, 3), (3, 3), (4, 2)] : List (Nat × Nat)), 1 ≤ sl.2) ∧
    (∃ t, hufBuild (hufPacks [(1, 1), (2, 3), (3, 3), (4, 2)]) [(1, 1), (2, 3), (3, 3), (4, 2)] (.leaf .empty) = .ok t) ∧
    (1 ≤ 14 ∧ 1 ≤ 3) :=
  ⟨by decide, by decide, build0, by decide⟩

/-- The refusals: a third code of length 1; a second code that begins with the first; and a second code that does not. -/
theorem witness_HufShortCodesArePrefixFree_refusals :
    (packCode (packAt (hufPacks [(0, 1), (1, 1), (2, 1)]) 2) >>> 1 ≠ 0 ∧
      ∃ t, hufBuild (hufPacks [(0, 1), (1, 1), (2, 1)]) [(0, 1), (1, 1)] (.leaf .empty) = .ok t) ∧
    (packCode (packAt (hufPacks [(0, 1), (1, 2)]) 1) >>> 2 = 0 ∧ Clash (hufPacks [(0, 1), (1, 2)]) (0, 1) (1, 2) ∧
      ∃ t, hufBuild (hufPacks [(0, 1), (1, 2)]) [(0, 1)] (.leaf .empty) = .ok t) ∧
    (packCode (packAt (hufPacks [(0, 1), (1, 1)]) 1) >>> 1 = 0 ∧ ¬ Clash (hufPacks [(0, 1), (1, 1)]) (0, 1) (1, 1) ∧
      ∃ t, hufBuild (hufPacks [(0, 1), (1, 1)]) [(0, 1)] (.leaf .empty) = .ok t) := by
  unfold Clash
  exact ⟨⟨by decide +kernel, exists_of_isOk _ (by decide +kernel)⟩,
    ⟨by decide +kernel, by decide +kernel, exists_of_isOk _ (by decide +kernel)⟩,
    by decide +kernel, by decide +kernel, exists_of_isOk _ (by decide +kernel)⟩

/-- The packs of a table whose first symbol is `dMin`. -/
def packsOf (table : List TableItem) (dMin : Nat) : PackRam := hufPacks (tableLengths table dMin)

/-- `PayloadBegins`, its last clause by positions. -/
theorem payloadBegins_of {m : Memory} {pb pbits dMax : Nat} {packs : PackRam} {ls : List (Nat × Nat)} {items : List PayloadItem}
    (h1 : (match items with | .again _ :: _ => false | _ => true) = true)
    (h2 : ∀ it ∈ items, it.Ok dMax ∧ ∃ l, (it.symbol dMax, l) ∈ ls)
    (h3 : StreamIs m pb 0 (items.flatMap (PayloadItem.bits packs dMax)))
    (h4 : (items.flatMap (PayloadItem.bits packs dMax)).length ≤ pbits)
    (h5 : ∀ k, k < items.length → NoEarlierLongCode m pb pbits packs ls
      ((items.take k).flatMap (PayloadItem.bits packs dMax)).length ((items.getD k (.literal 0)).symbol dMax)) :
    PayloadBegins m pb pbits packs ls dMax items := by
  refine ⟨?_, h2, h3, h4, ?_⟩
  · rintro n rest rfl
    cases h1
  · rintro before it after rfl l _ _
    simpa using h5 before.length (by simp)

/-- What the statements about a decode assume of a block of `len` bytes at 0x100 and `nout` samples at 0x200. -/
def Scene (m : Memory) (len nout : Word) (h : HufHeader) (table : List TableItem) (items : List PayloadItem) : Prop :=
  HufChecked (run m) 0x100 len 0x200 nout ∧ HufFramed m 0x100 len.toNat h ∧ HufTabled m 0x100 h table ∧
    (∃ t, hufBuild (packsOf table h.dMin) (tableLengths table h.dMin) (.leaf .empty) = .ok t) ∧
    PayloadBegins m (0x114 + h.tableLength) h.payloadBits (packsOf table h.dMin) (tableLengths table h.dMin) h.dMax items ∧
    (payloadSamples items []).length ≤ nout.toNat

/-- The table of B0, and that of `longBlock`. -/
def tableB0 : List TableItem := [.length 1, .length 3, .length 3, .length 2]

def tableLong : List TableItem := [.length 16, .length 15, .length 15]

/-- A scene, part by part. -/
theorem scene_of {m : Memory} {len nout : Word} {h : HufHeader} {table : List TableItem} {items : List PayloadItem}
    (hc : (0x200 : Word).toNat % 2 = 0 ∧ (run m).inRange (0x100 : Word).toNat len.toNat ∧
      (run m).inRange (0x200 : Word).toNat (2 * nout.toNat) ∧
      ¬ Overlap (0x100 : Word).toNat len.toNat (0x200 : Word).toNat (2 * nout.toNat))
    (hf : 20 ≤ len.toNat ∧ h = ⟨m.readLE 0x100 4, m.readLE (0x100 + 4) 4, m.readLE (0x100 + 8) 4, m.readLE (0x100 + 12) 4⟩ ∧
      h.dMin ≤ h.dMax ∧ h.dMax ≤ 65536 ∧ h.tableLength ≤ len.toNat - 20 ∧ h.payloadBits ≤ 8 * (len.toNat - 20 - h.tableLength))
    (ht : HufTabled m 0x100 h table)
    (hb : isOk (hufBuild (packsOf table h.dMin) (tableLengths table h.dMin) (.leaf .empty)) = true)
    (hp : PayloadBegins m (0x114 + h.tableLength) h.payloadBits (packsOf table h.dMin) (tableLengths table h.dMin) h.dMax items)
    (hn : (payloadSamples items []).length ≤ nout.toNat) : Scene m len nout h table items :=
  ⟨hc, hf, ht, exists_of_isOk _ hb, hp, hn⟩

/-- The whole payload of B0, into 33 samples: `F_HUF_NOTENOUGH`; into 32 it is the witness of the round trip. -/
theorem scene_b0 (nout : Word) (h : nout = 32 ∨ nout = 33) :
    Scene block0 26 nout ⟨1, 4, 3, 17⟩ tableB0 [.literal 1, .again 29, .literal 2, .literal 3] := by
  refine scene_of (by rcases h with rfl | rfl <;> decide +kernel) (by decide +kernel)
    ⟨by simp [tableB0, TableItem.Ok], by decide, table0, by decide⟩ (by decide +kernel)
    (payloadBegins_of rfl ?_ ?_ (by decide +kernel) ?_) (by rcases h with rfl | rfl <;> decide +kernel)
  · simp [tableB0, tableLengths, TableItem.covers, PayloadItem.Ok, PayloadItem.symbol]
  · unfold StreamIs; decide +kernel
  · unfold NoEarlierLongCode CodeAt StreamIs; decide +kernel

/-- B0's payload is cut to 16 bits: the code `001` at bit 14 is read as `000` and does not fit. -/
theorem scene_trunc : Scene (put block0 0x10C [16]) 26 32 ⟨1, 4, 3, 16⟩ tableB0 [.literal 1, .again 29, .literal 2] := by
  refine scene_of (by decide +kernel) (by decide +kernel) ⟨by simp [tableB0, TableItem.Ok], by decide, ?_, by decide⟩ (by decide +kernel)
    (payloadBegins_of rfl ?_ ?_ (by decide +kernel) ?_) (by decide +kernel)
  · unfold StreamIs; decide +kernel
  · simp [tableB0, tableLengths, TableItem.covers, PayloadItem.Ok, PayloadItem.symbol]
  · unfold StreamIs; decide +kernel
  · unfold NoEarlierLongCode CodeAt StreamIs; decide +kernel

/-- B0 after its first item: the escape is next, in a payload of 10 bits (its count is cut) or whole. -/
theorem scene_escape (pbits : Nat) (nout : Word) (h : pbits = 10 ∨ pbits = 17) (hn : nout = 29) :
    Scene (put block0 0x10C [pbits]) 26 nout ⟨1, 4, 3, pbits⟩ tableB0 [.literal 1] := by
  subst hn
  rcases h with rfl | rfl
  all_goals
    refine scene_of (by decide +kernel) (by decide +kernel) ⟨by simp [tableB0, TableItem.Ok], by decide, ?_, by decide⟩
      (by decide +kernel) (payloadBegins_of rfl ?_ ?_ (by decide +kernel) ?_) (by decide +kernel)
    · unfold StreamIs; decide +kernel
    · simp [tableB0, tableLengths, TableItem.covers, PayloadItem.Ok, PayloadItem.symbol]
    · unfold StreamIs; decide +kernel
    · unfold NoEarlierLongCode CodeAt StreamIs; decide +kernel

/-- B0 after 30 samples, which is all there is room for: the literal 2 is next. -/
theorem scene_toomuch : Scene block0 26 30 ⟨1, 4, 3, 17⟩ tableB0 [.literal 1, .again 29] := by
  refine scene_of (by decide +kernel) (by decide +kernel) ⟨by simp [tableB0, TableItem.Ok], by decide, table0, by decide⟩
    (by decide +kernel) (payloadBegins_of rfl ?_ ?_ (by decide +kernel) ?_) (by decide +kernel)
  · simp [tableB0, tableLengths, TableItem.covers, PayloadItem.Ok, PayloadItem.symbol]
  · unfold StreamIs; decide +kernel
  · unfold NoEarlierLongCode CodeAt StreamIs; decide +kernel

/-- A payload that begins with the escape `01` and a count of 0. -/
theorem scene_noprev : Scene (put (put block0 0x10C [10]) 0x117 [0x40, 0]) 26 32 ⟨1, 4, 3, 10⟩ tableB0 [] := by
  refine scene_of (by decide +kernel) (by decide +kernel) ⟨by simp [tableB0, TableItem.Ok], by decide, ?_, by decide⟩
    (by decide +kernel) (payloadBegins_of rfl ?_ ?_ (by decide +kernel) ?_) (by decide +kernel)
  · unfold StreamIs; decide +kernel
  · simp
  · unfold StreamIs; decide +kernel
  · unfold NoEarlierLongCode CodeAt StreamIs; decide +kernel

/-- The long codes `0` (16 bits, symbol 0), `0` (15 bits, symbol 1) and `1` (15 bits, symbol 2), before an empty run of items. -/
theorem scene_long (pbits x : Nat) (h : (pbits = 14 ∧ (x = 0 ∨ x = 0x80)) ∨ (pbits = 0 ∧ x = 0)) :
    Scene (longBlock pbits x) 25 0 ⟨0, 2, 3, pbits⟩ tableLong [] := by
  rcases h with ⟨rfl, rfl | rfl⟩ | ⟨rfl, rfl⟩
  all_goals
    refine scene_of (by decide +kernel) (by decide +kernel) ⟨by simp [tableLong, TableItem.Ok], by decide, ?_, by decide⟩
      (by decide +kernel) (payloadBegins_of rfl ?_ ?_ (by decide +kernel) ?_) (by decide +kernel)
    · unfold StreamIs; decide +kernel
    · simp
    · unfold StreamIs; decide +kernel
    · unfold NoEarlierLongCode CodeAt StreamIs; decide +kernel

/-- Fifteen zero bits: symbol 0 comes first in the list and does not fit, so the item is the literal 1. -/
theorem scene_longLiteral : Scene (longBlock 15 0) 25 1 ⟨0, 2, 3, 15⟩ tableLong [.literal 1] := by
  refine scene_of (by decide +kernel) (by decide +kernel) ⟨by simp [tableLong, TableItem.Ok], by decide, ?_, by decide⟩
    (by decide +kernel) (payloadBegins_of rfl ?_ ?_ (by decide +kernel) ?_) (by decide +kernel)
  · unfold StreamIs; decide +kernel
  · simp [tableLong, tableLengths, TableItem.covers, PayloadItem.Ok, PayloadItem.symbol]
  · unfold StreamIs; decide +kernel
  · unfold NoEarlierLongCode CodeAt StreamIs; decide +kernel

/-- R112: of that list the first code that matches and fits is read. -/
theorem test_longCode_first_that_fits :
    nextIs (exec (.hufDecode 0x100 25 0x200 1) (run (longBlock 15 0))) (fun t => samples t 0x200 1 == [1] && t.valid.hufv) = true ∧
    nextIs (exec (.hufDecode 0x100 25 0x200 1) (run (longBlock 16 0))) (fun t => samples t 0x200 1 == [0] && t.valid.hufv) = true := by
  decide +kernel

/-- Block B0, its items and its 32 samples; a literal with a long code; and an empty payload. -/
theorem witness_HufRoundTrip :
    (Scene block0 26 32 ⟨1, 4, 3, 17⟩ tableB0 [.literal 1, .again 29, .literal 2, .literal 3] ∧
      (([.literal 1, .again 29, .literal 2, .literal 3] : List PayloadItem).flatMap
        (PayloadItem.bits (packsOf tableB0 1) 4)).length = 17 ∧
      (payloadSamples [.literal 1, .again 29, .literal 2, .literal 3] []).length = (32 : Word).toNat ∧
      (run block0).dmem.wf = true ∧ (run block0).hostRaced = false) ∧
    (Scene (longBlock 15 0) 25 1 ⟨0, 2, 3, 15⟩ tableLong [.literal 1] ∧
      (PayloadItem.bits (packsOf tableLong 0) 2 (.literal 1)).length = 15 ∧
      (payloadSamples [.literal 1] []).length = (1 : Word).toNat ∧ (longBlock 15 0).wf = true) ∧
    (Scene (longBlock 0 0) 25 0 ⟨0, 2, 3, 0⟩ tableLong [] ∧ (payloadSamples [] []).length = (0 : Word).toNat ∧ (longBlock 0 0).wf = true) :=
  ⟨⟨scene_b0 32 (.inl rfl), by decide +kernel, by decide +kernel, by decide +kernel, rfl⟩,
    ⟨scene_longLiteral, by decide +kernel, by decide +kernel, by decide +kernel⟩,
    scene_long 0 0 (.inr ⟨rfl, rfl⟩), rfl, by decide +kernel⟩

/-- One scene for each clause, in the statement's order. -/
theorem witness_HufPayloadErrors :
    (Scene block0 26 33 ⟨1, 4, 3, 17⟩ tableB0 [.literal 1, .again 29, .literal 2, .literal 3] ∧
      (payloadSamples [.literal 1, .again 29, .literal 2, .literal 3] []).length < (33 : Word).toNat) ∧
    (Scene (longBlock 14 0x80) 25 0 ⟨0, 2, 3, 14⟩ tableLong [] ∧
      ∀ x ∈ tableLengths tableLong 0, ¬ CodeIndexed (longBlock 14 0x80) 0x117 14 (packsOf tableLong 0) 0 x) ∧
    (Scene (put block0 0x10C [16]) 26 32 ⟨1, 4, 3, 16⟩ tableB0 [.literal 1, .again 29, .literal 2] ∧
      (2, 3) ∈ tableLengths tableB0 1 ∧ CodeIndexed (put block0 0x10C [16]) 0x117 16 (packsOf tableB0 1) 14 (2, 3) ∧ 16 < 14 + 3) ∧
    (Scene (longBlock 14 0) 25 0 ⟨0, 2, 3, 14⟩ tableLong [] ∧
      (1, 15) ∈ tableLengths tableLong 0 ∧ CodeIndexed (longBlock 14 0) 0x117 14 (packsOf tableLong 0) 0 (1, 15) ∧
      ∀ x ∈ tableLengths tableLong 0, 14 < x.2 → ¬ CodeAt (longBlock 14 0) 0x117 14 (packsOf tableLong 0) 0 x) ∧
    (Scene (put block0 0x10C [10]) 26 29 ⟨1, 4, 3, 10⟩ tableB0 [.literal 1] ∧
      CodeAt (put block0 0x10C [10]) 0x117 10 (packsOf tableB0 1) 1 (4, 2) ∧ 10 < 1 + 2 + 8) ∧
    (Scene (put (put block0 0x10C [10]) 0x117 [0x40, 0]) 26 32 ⟨1, 4, 3, 10⟩ tableB0 [] ∧
      CodeAt (put (put block0 0x10C [10]) 0x117 [0x40, 0]) 0x117 10 (packsOf tableB0 1) 0 (4, 2) ∧ 0 + 2 + 8 ≤ 10) ∧
    (Scene (put block0 0x10C [17]) 26 29 ⟨1, 4, 3, 17⟩ tableB0 [.literal 1] ∧
      CodeAt (put block0 0x10C [17]) 0x117 17 (packsOf tableB0 1) 1 (4, 2) ∧
      (29 : Word).toNat < (payloadSamples [.literal 1] []).length + (put block0 0x10C [17]).streamBits 0x117 (1 + 2) 8) ∧
    (Scene block0 26 30 ⟨1, 4, 3, 17⟩ tableB0 [.literal 1, .again 29] ∧ CodeAt block0 0x117 17 (packsOf tableB0 1) 11 (2, 3) ∧
      (payloadSamples [.literal 1, .again 29] []).length = (30 : Word).toNat) := by
  refine ⟨⟨scene_b0 33 (.inr rfl), by decide +kernel⟩, ⟨scene_long 14 0x80 (.inl ⟨rfl, .inr rfl⟩), ?_⟩,
    ⟨scene_trunc, by decide, ?_, by decide⟩, ⟨scene_long 14 0 (.inl ⟨rfl, .inl rfl⟩), by decide, ?_, ?_⟩,
    ⟨scene_escape 10 29 (.inl rfl) rfl, ?_, by decide⟩, ⟨scene_noprev, ?_, by decide⟩,
    ⟨scene_escape 17 29 (.inr rfl) rfl, ?_, by decide +kernel⟩, scene_toomuch, ?_, by decide +kernel⟩
  · unfold CodeIndexed; decide +kernel
  · unfold CodeIndexed; decide +kernel
  · unfold CodeIndexed; decide +kernel
  all_goals unfold CodeAt StreamIs; decide +kernel

theorem witness_HufReadbacks : 65536 < (65537 : Word).toNat ∧ ((65536 : Word).toNat ≤ 65536 ∧ (run []).valid.hufv = false) ∧
    ({ run [] with valid.hufv := true } : State).valid.hufv = true ∧ 16383 < (16384 : Word).toNat ∧ (16383 : Word).toNat ≤ 16383 ∧
    ((Tab.leaf DecEntry.empty).set decBits 16383 (.short 14 65536)).get decBits (16383 : Word).toNat = .short 14 65536 ∧
    ((Tab.leaf DecEntry.empty).set decBits 0 (.long [14, 15])).get decBits (0 : Word).toNat = .long [14, 15] ∧
    ([14, 15] : List Nat)[(1 : Word).toNat]? = some 15 ∧ ([14, 15] : List Nat).length ≤ (2 : Word).toNat := by decide +kernel

/-! ## Witnesses for the wavelet unit -/

/-- W10, W11, W12 and W13, W14, W15, and a plane of which only the last byte of DMEM is behind. -/
theorem witness_WavChecksInOrder : WavMode.auto.wellFormed = true ∧
    min (1 : Word).toNat (5 : Word).toNat < 2 ∧
    (2 ≤ min (2 : Word).toNat (2 : Word).toNat ∧ (0x401 : Word).toNat % 2 ≠ 0) ∧
    ¬ (planeOf 0x400 2 2 1 1).Geometry ∧ ¬ (planeOf 0x400 2 2 0 2).Geometry ∧
    ((planeOf 0x400 2 2 1 0x7FFF).Geometry ∧ ¬ (run []).inRange 0x400 (2 * (1 * 1 + 1 * 0x7FFF) + 2)) ∧
    ((planeOf 0xFFF8 2 2 1 2).Geometry ∧ (run []).inRange 0xFFF8 (2 * (1 * 1 + 1 * 2) + 2) ∧ (run []).valid.lutv = false) ∧
    ((planeOf 0xFFF8 2 2 2 1).Geometry ∧ ({ run [] with valid.lutv := true } : State).valid.lutv = true ∧ (run []).dmem.wf = true ∧
      (run []).hostRaced = false) := by decide +kernel

/-- W1 (w14), W3 (w16), and the automatic choice at 2^14 (W16, W17). -/
theorem witness_WavTwoByTwoPlane : (planeOf 0x400 2 2 1 2).Geometry ∧ plane22.inRange 0x400 (planeOf 0x400 2 2 1 2).span ∧
    plane22.dmem.wf = true ∧ plane22.hostRaced = false ∧ (0x400 : Word).toNat % 2 = 0 ∧
    (false = true ↔ WavMode.w14 = .w16 ∨ (WavMode.w14 = .auto ∧ 16384 ≤ plane22.lutMax.toNat)) ∧
    (true = true ↔ WavMode.auto = .w16 ∨ (WavMode.auto = .auto ∧ 16384 ≤ (16384 : Sample).toNat)) ∧
    (false = true ↔ WavMode.auto = .w16 ∨ (WavMode.auto = .auto ∧ 16384 ≤ (16383 : Sample).toNat)) ∧
    ((planeOf 0x400 2 2 1 2).get plane22.dmem 0 0 = 10 ∧ (planeOf 0x400 2 2 1 2).get plane22.dmem 1 0 = 4 ∧
      (planeOf 0x400 2 2 1 2).get plane22.dmem 0 1 = 6 ∧ (planeOf 0x400 2 2 1 2).get plane22.dmem 1 1 = 0) := by decide +kernel

/-- W7's plane, of sides 3 and 4. -/
theorem witness_WavRunsItsScales : 2 ≤ min (3 : Word).toNat (4 : Word).toNat ∧ (0x400 : Word).toNat % 2 = 0 ∧
    (planeOf 0x400 3 4 1 3).Geometry ∧ (run []).inRange 0x400 (planeOf 0x400 3 4 1 3).span ∧ (run []).hostRaced = false ∧
    (false = true ↔ WavMode.w14 = .w16 ∨ (WavMode.w14 = .auto ∧ 16384 ≤ (run []).lutMax.toNat)) ∧ WavMode.w14.wellFormed = true := by
  decide

/-- W5's plane, of sides 3 and 3: a block, the odd column, the odd line and the corner; and a scale above 1. -/
theorem witness_WavScaleActsOnDisjointSamples : (run []).dmem.wf = true ∧ (planeOf 0x400 3 3 1 3).Geometry ∧ 1 ∈ wavLevels 3 3 ∧
    (0 % (2 * 1) = 0 ∧ 0 + 2 * 1 ≤ 3) ∧ 3 &&& 1 ≠ 0 ∧ 2 ∈ wavLevels 7 6 ∧ (planeOf 0x400 7 6 1 7).Geometry ∧ 7 &&& 2 ≠ 0 ∧ 6 &&& 2 ≠ 0 ∧
    (1 < 7 ∧ 0 < 6 ∧ 1 % 2 ≠ 0) ∧ (2 ∈ wavLevels 5 4 ∧ (planeOf 0x400 5 4 1 5).Geometry ∧ ¬ (planeOf 0x400 5 4 1 5).Touches 2 4 0) ∧
    ¬ (planeOf 0x400 7 6 1 7).Touches 2 6 0 := by decide +kernel

/-- The extreme signed differences that fit. -/
theorem witness_PairOperationsInvert : -32768 ≤ (0x8000 : Sample).toInt - (0 : Sample).toInt ∧
    (0 : Sample).toInt - (0x8001 : Sample).toInt ≤ 32767 ∧ (16383 : Sample).toNat < 16384 ∧ (0 : Sample).toNat < 16384 := by decide

theorem witness_WaveletRoundTripW16 : plane22.dmem.wf = true ∧ plane22.hostRaced = false ∧ (0x400 : Word).toNat % 2 = 0 ∧
    (planeOf 0x400 2 2 1 2).Geometry ∧ plane22.inRange 0x400 (planeOf 0x400 2 2 1 2).span ∧
    (WavMode.auto = .auto ∧ ({ plane22 with valid.lutv := true, lutMax := 16384 } : State).valid.lutv = true ∧
      16384 ≤ ({ plane22 with valid.lutv := true, lutMax := 16384 } : State).lutMax.toNat) := by decide +kernel

/-- A plane whose largest sample is 2^14 - 1. -/
theorem witness_WaveletRoundTripW14 : (putS [] 0x400 [16383, 0, 0, 16383]).wf = true ∧ (planeOf 0x400 2 2 1 2).Geometry ∧
    plane22.inRange 0x400 (planeOf 0x400 2 2 1 2).span ∧ (16383 : Sample).toNat < 16384 ∧
    (∀ x, x < 2 → ∀ y, y < 2 → ((planeOf 0x400 2 2 1 2).get (putS [] 0x400 [16383, 0, 0, 16383]) x y).toNat < 16384) := by decide +kernel

end Sys2Proof.Tests
end

namespace Sys2Proof.Machine

/-! ## What a command can do

The inversion of `exec`, said once: the claims about commands are case analyses over it. -/

/-- `Completes i s t`: command `i` completes without error in state `s`, after which the state is `t` (R69). One constructor a
command, with the checks that have passed; a wavelet command has a second one, for a plane with a side below 2 (R119). -/
inductive Completes : Instr → State → State → Prop
  | nop {s : State} : Completes .nop s s.retire
  | endChain {s : State} : Completes .endChain s { s.retire with seq := .done }
  | brInit {base nbits : Word} {s : State} (hin : s.inRange base.toNat (ceil8 nbits.toNat)) :
      Completes (.brInit base nbits) s ({ s with reader := ⟨base, nbits, 0, false⟩ } : State).retire
  | brRead {k dst : Word} {s : State} {n t : Nat} (hk : operandK k = some n)
      (ht : t = min n (s.reader.n.toNat - s.reader.pos.toNat)) (hdst : s.inRange dst.toNat (ceil8 n))
      (hov : ¬ Overlap dst.toNat (ceil8 n) s.reader.base.toNat (ceil8 s.reader.n.toNat))
      (hsrc : 0 < t → s.inRange s.reader.base.toNat (ceil8 s.reader.n.toNat)) :
      Completes (.brRead k dst) s
        (({ s.commit (s.dmem.writeBytes dst.toNat (ceil8 n) (readByte s.dmem s.reader.base.toNat s.reader.pos.toNat t))
            [(dst.toNat, ceil8 n)] with reader := s.reader.advance n } : State).setRes0 (u32 t)).retire
  | brSeek {p : Word} {s : State} (hp : p.toNat ≤ s.reader.n.toNat) :
      Completes (.brSeek p) s ({ s with reader := { s.reader with pos := p } } : State).retire
  | brRemain {s : State} : Completes .brRemain s (s.setRes0 (s.reader.n - s.reader.pos)).retire
  | brAlign {s : State} :
      Completes .brAlign s
        (({ s with reader := { s.reader with pos := u32 (min (8 * ceil8 s.reader.pos.toNat) s.reader.n.toNat) } } : State).setRes0
          (u32 (ceil8 s.reader.pos.toNat))).retire
  | bwInit {base capbits : Word} {s : State} (hin : s.inRange base.toNat (ceil8 capbits.toNat)) :
      Completes (.bwInit base capbits) s
        ({ s.commit (s.dmem.writeBytes base.toNat (ceil8 capbits.toNat) fun _ => 0) [(base.toNat, ceil8 capbits.toNat)] with
            writer := ⟨base, capbits, 0⟩ } : State).retire
  | bwWrite {k src srclen : Word} {s : State} {n : Nat} (hk : operandK k = some n) (hlen : n ≤ 8 * srclen.toNat)
      (hsrc : s.inRange src.toNat srclen.toNat) (hcap : s.writer.pos.toNat + n ≤ s.writer.cap.toNat)
      (hov : ¬ Overlap src.toNat (ceil8 n) s.writer.base.toNat (ceil8 s.writer.cap.toNat))
      (hdst : 0 < n → s.inRange s.writer.base.toNat (ceil8 s.writer.cap.toNat)) :
      Completes (.bwWrite k src srclen) s
        ({ s.commit (writeBits s.dmem s.writer.base.toNat s.writer.pos.toNat src.toNat n)
            [writeBitsRange s.writer.base.toNat s.writer.pos.toNat n] with
            writer := { s.writer with pos := s.writer.pos + u32 n } } : State).retire
  | bwIndex {s : State} : Completes .bwIndex s (s.setRes0 s.writer.pos).retire
  | bwRemain {s : State} : Completes .bwRemain s (s.setRes0 (s.writer.cap - s.writer.pos)).retire
  | bwAlign {s : State} :
      Completes .bwAlign s
        (({ s with writer := { s.writer with pos := u32 (min (8 * ceil8 s.writer.pos.toNat) s.writer.cap.toNat) } } : State).setRes0
          (u32 (ceil8 s.writer.pos.toNat))).retire
  | bmClear {s : State} :
      Completes .bmClear s ({ s with bitmap := .leaf 0, valid := { s.valid with bmv := true } } : State).retire
  | bmSet {v : Word} {s : State} (hv : v.toNat ≤ 0xFFFF) (hval : s.valid.bmv = true) :
      Completes (.bmSet v) s ({ s with bitmap := bitmapPut s.bitmap v.toNat true } : State).retire
  | bmUnset {v : Word} {s : State} (hv : v.toNat ≤ 0xFFFF) (hval : s.valid.bmv = true) :
      Completes (.bmUnset v) s ({ s with bitmap := bitmapPut s.bitmap v.toNat false } : State).retire
  | bmHas {v : Word} {s : State} (hv : v.toNat ≤ 0xFFFF) (hval : s.valid.bmv = true) :
      Completes (.bmHas v) s (s.setRes0 (flagBit (bitmapHas s.bitmap v.toNat) 0)).retire
  | bmScan {base count : Word} {s : State} (hc : checkSamples s base.toNat count.toNat = none) (hval : s.valid.bmv = true) :
      Completes (.bmScan base count) s ({ s with bitmap := bitmapScan s.dmem base.toNat count.toNat s.bitmap } : State).retire
  | bmBounds {s : State} (hval : s.valid.bmv = true) :
      Completes .bmBounds s
        ({ s with
            res := ⟨u32 (bitmapBounds s.bitmap).1, u32 (bitmapBounds s.bitmap).2.1, u32 (bitmapBounds s.bitmap).2.2,
              s.res.r3⟩ } : State).retire
  | bmLoad {src lo hi : Word} {s : State} {n : Nat} (hn : n = hi.toNat - lo.toNat + 1) (hle : lo.toNat ≤ hi.toNat)
      (hhi : hi.toNat ≤ 8191) (hin : s.inRange src.toNat n) :
      Completes (.bmLoad src lo hi) s
        (({ s with bitmap := bitmapLoad s.dmem src.toNat lo.toNat n, valid := { s.valid with bmv := true } } : State).setRes0
          (u32 n)).retire
  | bmStore {dst lo hi : Word} {s : State} {n : Nat} (hn : n = hi.toNat - lo.toNat + 1) (hle : lo.toNat ≤ hi.toNat)
      (hhi : hi.toNat ≤ 8191) (hin : s.inRange dst.toNat n) (hval : s.valid.bmv = true) :
      Completes (.bmStore dst lo hi) s
        ((s.commit (s.dmem.writeBytes dst.toNat n fun j => bitmapByte s.bitmap (lo.toNat + j)) [(dst.toNat, n)]).setRes0
          (u32 n)).retire
  | lutFwd {s : State} (hval : s.valid.bmv = true) : Completes .lutFwd s (s.setLut (lutForward s.bitmap) false).retire
  | lutRev {s : State} (hval : s.valid.bmv = true) : Completes .lutRev s (s.setLut (lutReverse s.bitmap) true).retire
  | lutApply {base count : Word} {s : State} (hc : checkSamples s base.toNat count.toNat = none) (hval : s.valid.lutv = true) :
      Completes (.lutApply base count) s
        (s.commit (Machine.lutApply s.lut base.toNat count.toNat s.dmem) [(base.toNat, 2 * count.toNat)]).retire
  | lutRead {p : Word} {s : State} (hp : p.toNat ≤ 0xFFFF) (hval : s.valid.lutv = true) :
      Completes (.lutRead p) s (s.setRes0 ((s.lut.get lutBits p.toNat).setWidth 32)).retire
  | hufDecode {src len dst nout : Word} {s : State} {b : HufBlock} (hc : HufChecked s src len dst nout)
      (hb : hufDecodeBlock s.dmem src.toNat len.toNat nout.toNat = .ok b) :
      Completes (.hufDecode src len dst nout) s (s.hufDone dst.toNat nout.toNat b).retire
  | hufPackRead {sym p} {s : State} (hsym : sym.toNat ≤ Config.maxSymbol) (hval : s.valid.hufv = true)
      (hp : p = packAt s.pack sym.toNat) :
      Completes (.hufPackRead sym) s
        ({ s with
            res := ⟨p.extractLsb' 0 32, p.extractLsb' 32 32, (p.extractLsb' 0 6).setWidth 32, p.extractLsb' 6 32⟩ } : State).retire
  | hufDecRead {p j : Word} {s : State} {r} (hp : p.toNat ≤ 16383) (hval : s.valid.hufv = true)
      (hr : r = decEntryWords (s.dec.get decBits p.toNat) j.toNat) :
      Completes (.hufDecRead p j) s ({ s with res := ⟨r.1, r.2.1, r.2.2, s.res.r3⟩ } : State).retire
  | wavFwdSmall {wm : WavMode} {base nx ny ox oy : Word} {s : State} (hwm : wm ≠ .reserved) (hmin : min nx.toNat ny.toNat < 2) :
      Completes (.wavFwd wm base nx ny ox oy) s s.retire
  | wavFwd {wm : WavMode} {base nx ny ox oy : Word} {s : State} {pl : Plane} (hpl : pl = planeOf base nx ny ox oy)
      (hwm : wm ≠ .reserved) (hmin : 2 ≤ min nx.toNat ny.toNat) (hc : wavCheck wm pl s = none) :
      Completes (.wavFwd wm base nx ny ox oy) s (s.commit (wavForwardOf (wavIs16 wm s) pl s.dmem) pl.written).retire
  | wavInvSmall {wm : WavMode} {base nx ny ox oy : Word} {s : State} (hwm : wm ≠ .reserved) (hmin : min nx.toNat ny.toNat < 2) :
      Completes (.wavInv wm base nx ny ox oy) s s.retire
  | wavInv {wm : WavMode} {base nx ny ox oy : Word} {s : State} {pl : Plane} (hpl : pl = planeOf base nx ny ox oy)
      (hwm : wm ≠ .reserved) (hmin : 2 ≤ min nx.toNat ny.toNat) (hc : wavCheck wm pl s = none) :
      Completes (.wavInv wm base nx ny ox oy) s (s.commit (wavInverseOf (wavIs16 wm s) pl s.dmem) pl.written).retire

/-- `Answers i s o`: `o` is one of the things command `i` can answer in state `s`: it completes, it takes the error step of R130
alone, it is a `HUF_DECODE` that fails after its programmer checks (R114), or it faults on a stray bit stream (log 13). -/
inductive Answers : Instr → State → Outcome → Prop
  | completed {i : Instr} {s t : State} (h : Completes i s t) : Answers i s (.next t)
  | raised {i : Instr} {s : State} (e : ErrCode) (info : Word) : Answers i s (.next (s.errorStep e info))
  | hufFailed {src len dst nout : Word} {s : State} (e : ErrCode) (info : Word) (hc : HufChecked s src len dst nout) :
      Answers (.hufDecode src len dst nout) s (.next (s.hufFail dst.toNat nout.toNat e info))
  | strayReader {k dst : Word} {s : State} (hout : ¬ s.inRange s.reader.base.toNat (ceil8 s.reader.n.toNat)) :
      Answers (.brRead k dst) s (.fault (.streamOutsideDmem s.reader.base))
  | strayWriter {k src srclen : Word} {s : State} (hout : ¬ s.inRange s.writer.base.toNat (ceil8 s.writer.cap.toNat)) :
      Answers (.bwWrite k src srclen) s (.fault (.streamOutsideDmem s.writer.base))

/-- A check that raises, before the rest of a command. -/
theorem answers_check {i : Instr} {s : State} {c : Prop} [Decidable c] {e : ErrCode} {info : Word} {o : Outcome}
    (h : ¬ c → Answers i s o) : Answers i s (if c then raise e info s else o) :=
  iteInduction (motive := Answers i s) (fun _ => .raised e info) h

/-- The check of a sample buffer, before the rest of a command. -/
theorem answers_checkSamples {i : Instr} {s : State} {base count : Nat} {o : Outcome}
    (h : checkSamples s base count = none → Answers i s o) :
    Answers i s (match checkSamples s base count with | some (e, info) => raise e info s | none => o) := by
  cases hc : checkSamples s base count with
  | some r => exact .raised r.1 r.2
  | none => exact h hc

/-- The operand `k`, before the rest of a command. -/
theorem answers_operandK {i : Instr} {s : State} {k : Word} {f : Nat → Outcome}
    (h : ∀ n, operandK k = some n → Answers i s (f n)) :
    Answers i s (match operandK k with | none => raise .pNegk k s | some n => f n) := by
  cases hk : operandK k with
  | none => exact .raised .pNegk k
  | some n => exact h n hk

theorem wavCommand_answers {f : Bool → Plane → Memory → Memory} {opc : Byte} {wm : WavMode} {pl : Plane} {i : Instr} {s : State}
    (hsmall : wm ≠ .reserved → min pl.nx pl.ny < 2 → Answers i s (.next s.retire))
    (hdone : wm ≠ .reserved → 2 ≤ min pl.nx pl.ny → wavCheck wm pl s = none →
      Answers i s (.next (s.commit (f (wavIs16 wm s) pl s.dmem) pl.written).retire)) :
    Answers i s (wavCommand f opc wm pl s) := by
  refine answers_check fun hwm => iteInduction (motive := Answers i s) (hsmall hwm) fun hmin => ?_
  cases hc : wavCheck wm pl s with
  | some r => exact .raised r.1 r.2
  | none => exact hdone hwm (Nat.le_of_not_lt hmin) hc

theorem execBrRead_answers (k dst : Word) (s : State) : Answers (.brRead k dst) s (execBrRead k dst s) :=
  answers_operandK fun _ hk => answers_check fun hdst => answers_check fun hov =>
    iteInduction (motive := Answers _ s) (fun hstray => .strayReader hstray.2) fun hsrc =>
      .completed (.brRead hk rfl (not_not.1 hdst) hov fun ht => not_not.1 (not_and.1 hsrc ht))

theorem execBwWrite_answers (k src srclen : Word) (s : State) : Answers (.bwWrite k src srclen) s (execBwWrite k src srclen s) :=
  answers_operandK fun _ hk => answers_check fun hlen => answers_check fun hsrc => answers_check fun hcap =>
    answers_check fun hov => iteInduction (motive := Answers _ s) (fun hstray => .strayWriter hstray.2) fun hdst =>
      .completed (.bwWrite hk (Nat.le_of_not_lt hlen) (not_not.1 hsrc) (Nat.le_of_not_lt hcap) hov
        fun hn => not_not.1 (not_and.1 hdst hn))

theorem execHufDecode_answers (src len dst nout : Word) (s : State) :
    Answers (.hufDecode src len dst nout) s (execHufDecode src len dst nout s) :=
  answers_check fun hal => answers_check fun hsrc => answers_check fun hdst => answers_check fun hov => by
    have hc : HufChecked s src len dst nout := ⟨not_not.1 hal, not_not.1 hsrc, not_not.1 hdst, hov⟩
    cases hb : hufDecodeBlock s.dmem src.toNat len.toNat nout.toNat with
    | error r => exact .hufFailed r.1 r.2 hc
    | ok b => exact .completed (.hufDecode hc hb)

/-- All that a command can answer. -/
theorem exec_answers : ∀ (i : Instr) (s : State), Answers i s (exec i s)
  | .nop, _ => .completed .nop
  | .endChain, _ => .completed .endChain
  | .brInit _ _, _ => answers_check fun hin => .completed (.brInit (not_not.1 hin))
  | .brRead k dst, s => execBrRead_answers k dst s
  | .brSeek _, _ => answers_check fun hp => .completed (.brSeek (Nat.le_of_not_lt hp))
  | .brRemain, _ => .completed .brRemain
  | .brAlign, _ => .completed .brAlign
  | .bwInit _ _, _ => answers_check fun hin => .completed (.bwInit (not_not.1 hin))
  | .bwWrite k src srclen, s => execBwWrite_answers k src srclen s
  | .bwIndex, _ => .completed .bwIndex
  | .bwRemain, _ => .completed .bwRemain
  | .bwAlign, _ => .completed .bwAlign
  | .bmClear, _ => .completed .bmClear
  | .bmSet _, _ => answers_check fun hv => answers_check fun hval =>
      .completed (.bmSet (Nat.le_of_not_lt hv) (Bool.eq_true_of_not_eq_false hval))
  | .bmUnset _, _ => answers_check fun hv => answers_check fun hval =>
      .completed (.bmUnset (Nat.le_of_not_lt hv) (Bool.eq_true_of_not_eq_false hval))
  | .bmHas _, _ => answers_check fun hv => answers_check fun hval =>
      .completed (.bmHas (Nat.le_of_not_lt hv) (Bool.eq_true_of_not_eq_false hval))
  | .bmScan _ _, _ => answers_checkSamples fun hc => answers_check fun hval =>
      .completed (.bmScan hc (Bool.eq_true_of_not_eq_false hval))
  | .bmBounds, _ => answers_check fun hval => .completed (.bmBounds (Bool.eq_true_of_not_eq_false hval))
  | .bmLoad _ _ _, _ => answers_check fun hfmt => answers_check fun hin =>
      .completed (.bmLoad rfl (Nat.le_of_not_lt (not_or.1 hfmt).1) (Nat.le_of_not_lt (not_or.1 hfmt).2) (not_not.1 hin))
  | .bmStore _ _ _, _ => answers_check fun hfmt => answers_check fun hin => answers_check fun hval =>
      .completed (.bmStore rfl (Nat.le_of_not_lt (not_or.1 hfmt).1) (Nat.le_of_not_lt (not_or.1 hfmt).2) (not_not.1 hin)
        (Bool.eq_true_of_not_eq_false hval))
  | .lutFwd, _ => answers_check fun hval => .completed (.lutFwd (Bool.eq_true_of_not_eq_false hval))
  | .lutRev, _ => answers_check fun hval => .completed (.lutRev (Bool.eq_true_of_not_eq_false hval))
  | .lutApply _ _, _ => answers_checkSamples fun hc => answers_check fun hval =>
      .completed (.lutApply hc (Bool.eq_true_of_not_eq_false hval))
  | .lutRead _, _ => answers_check fun hp => answers_check fun hval =>
      .completed (.lutRead (Nat.le_of_not_lt hp) (Bool.eq_true_of_not_eq_false hval))
  | .hufDecode src len dst nout, s => execHufDecode_answers src len dst nout s
  | .hufPackRead _, _ => answers_check fun hsym => answers_check fun hval =>
      .completed (.hufPackRead (Nat.le_of_not_lt hsym) (Bool.eq_true_of_not_eq_false hval) rfl)
  | .hufDecRead _ _, _ => answers_check fun hp => answers_check fun hval =>
      .completed (.hufDecRead (Nat.le_of_not_lt hp) (Bool.eq_true_of_not_eq_false hval) rfl)
  | .wavFwd _ _ _ _ _ _, _ => wavCommand_answers (fun hwm hmin => .completed (.wavFwdSmall hwm hmin))
      fun hwm hmin hc => .completed (.wavFwd rfl hwm hmin hc)
  | .wavInv _ _ _ _ _ _, _ => wavCommand_answers (fun hwm hmin => .completed (.wavInvSmall hwm hmin))
      fun hwm hmin hc => .completed (.wavInv rfl hwm hmin hc)

/-- Every next state of a command: the error step alone, the failure of `HUF_DECODE`, or the completion. -/
theorem exec_next {i : Instr} {s t : State} (h : exec i s = .next t) :
    (∃ e info, t = s.errorStep e info) ∨
    (∃ src len dst nout e info, i = .hufDecode src len dst nout ∧ HufChecked s src len dst nout ∧
      t = s.hufFail dst.toNat nout.toNat e info) ∨
    Completes i s t := by
  have ha := exec_answers i s
  rw [h] at ha
  cases ha with
  | completed hc => exact .inr (.inr hc)
  | raised e info => exact .inl ⟨e, info, rfl⟩
  | hufFailed e info hc => exact .inr (.inl ⟨_, _, _, _, e, info, rfl, hc, rfl⟩)

end Sys2Proof.Machine

namespace Sys2Proof.Machine

/-! ## The machine's invariant -/

/-! What a command that completes leaves of the registers that are not its own. -/

theorem Completes.params {i : Instr} {s t : State} (h : Completes i s t) : t.params = s.params := by cases h <;> simp

theorem Completes.err {i : Instr} {s t : State} (h : Completes i s t) : t.err = s.err := by cases h <;> simp

/-- A command that completes leaves the chain running, but `END` (R72). -/
theorem Completes.seq {i : Instr} {s t : State} (h : Completes i s t) : t.seq = s.seq ∨ t.seq = .done := by cases h <;> simp

/-! DMEM (R37). -/

/-- A command's writes keep DMEM canonical and inside `DMEM_SIZE`, raced or not, when the ranges are inside it. -/
theorem memOk_commit {s : State} {m : Memory} {ws : List (Nat × Nat)} (hwf : m.wf = true)
    (hbelow : m.below s.params.dmemSize = true) (hws : ∀ w ∈ ws, w.2 = 0 ∨ w.1 + w.2 ≤ s.params.dmemSize) : (s.commit m ws).MemOk :=
  ⟨wf_commit s hwf ws, by rw [commit_params]; exact below_commit hbelow hws⟩

theorem memOk_commit_one {s : State} {m : Memory} {a n : Nat} (hwf : m.wf = true) (hbelow : m.below s.params.dmemSize = true)
    (hin : s.inRange a n) : (s.commit m [(a, n)]).MemOk :=
  memOk_commit hwf hbelow (by simpa using hin)

theorem memOk_commit_writeBytes {s : State} (hs : s.MemOk) {a n : Nat} (f : Nat → Byte) (hin : s.inRange a n) :
    (s.commit (s.dmem.writeBytes a n f) [(a, n)]).MemOk :=
  memOk_commit_one (wf_writeBytes hs.1 _ _ _) (below_writeBytes hs.2 _ hin) hin

/-- The bytes a `BW_WRITE` touches are bytes of the writer's region (R81, R82). -/
theorem inRange_writeBitsRange {s : State} {base cap pos n : Nat} (hcap : pos + n ≤ cap) (hin : 0 < n → s.inRange base (ceil8 cap)) :
    s.inRange (writeBitsRange base pos n).1 (writeBitsRange base pos n).2 ∧ (n = 0 ∨ base + ceil8 (pos + n) ≤ s.params.dmemSize) := by
  simp only [writeBitsRange, State.inRange, ceil8] at hin ⊢
  by_cases hn : n = 0
  · simp [hn]
  · rw [if_neg hn]
    have := hin (by omega)
    omega

/-- The checks of R119. -/
theorem wavCheck_none {wm : WavMode} {pl : Plane} {s : State} :
    wavCheck wm pl s = none ↔
      pl.base % 2 = 0 ∧ pl.Geometry ∧ s.inRange pl.base pl.span ∧ ¬ (wm = .auto ∧ s.valid.lutv = false) := by
  unfold wavCheck
  by_cases h1 : pl.base % 2 = 0 <;> by_cases h2 : pl.Geometry <;> by_cases h3 : s.inRange pl.base pl.span <;>
    simp [h1, h2, h3]

/-- A transform that keeps whatever its stores keep, on a plane inside DMEM. -/
theorem memOk_commit_wavelet {s : State} (hs : s.MemOk) {wm : WavMode} {pl : Plane} (hc : wavCheck wm pl s = none) {m : Memory}
    (hm : ∀ Q : Memory → Prop, pl.Keeps Q → Q s.dmem → Q m) : (s.commit m pl.written).MemOk := by
  obtain ⟨-, -, hin, -⟩ := wavCheck_none.1 hc
  have hspan : pl.base + pl.span ≤ s.params.dmemSize := hin.resolve_left (by simp [Plane.span])
  refine memOk_commit (hm _ (plane_keeps_wf pl) hs.1) (hm _ (plane_keeps_below hspan) hs.2) fun w hw => .inr ?_
  obtain ⟨x, y, hxy, rfl⟩ := mem_written.1 hw
  obtain ⟨hx, hy⟩ := lt_of_writes hxy
  exact (addr_le_span hx hy).trans hspan

theorem Completes.memOk {i : Instr} {s t : State} (h : Completes i s t) (hs : s.MemOk) : t.MemOk := by
  cases h with
  | brRead hk ht hdst => exact memOk_commit_writeBytes hs _ hdst
  | bwInit hin => exact memOk_commit_writeBytes hs _ hin
  | bwWrite hk hlen hsrc hcap hov hdst =>
    obtain ⟨hrange, hlast⟩ := inRange_writeBitsRange hcap hdst
    exact memOk_commit_one (wf_writeBits hs.1 _ _ _ _) (below_writeBits hs.2 _ _ _ _ hlast) hrange
  | bmStore hn hle hhi hin => exact memOk_commit_writeBytes hs _ hin
  | @lutApply base count _ hc =>
    have hin := ((checkSamples_none _ _ _).1 hc).2
    exact memOk_commit_one (wf_lutApply _ _ _ hs.1) (below_lutApply _ _ _ hs.2 (by omega)) hin
  | @hufDecode src len dst nout _ b hc hb =>
    obtain ⟨-, -, hdst, -⟩ := hc
    have hlen := hufDecodeBlock_length hb
    refine memOk_commit_one (wf_writeSamples hs.1 _ _) (below_writeSamples hs.2 ?_) hdst
    rw [← List.length_eq_zero_iff]
    omega
  | wavFwd hpl hwm hmin hc => exact memOk_commit_wavelet hs hc fun Q hQ hm => wavForward_keeps hQ _ hm
  | wavInv hpl hwm hmin hc => exact memOk_commit_wavelet hs hc fun Q hQ hm => wavInverse_keeps hQ _ hm
  | _ => exact hs

/-! The bit streams (R33, R34). -/

theorem toNat_u32_min (a : Nat) (w : Word) : (u32 (min a w.toNat)).toNat = min a w.toNat :=
  Nat.mod_eq_of_lt ((Nat.min_le_right _ _).trans_lt w.isLt)

theorem Completes.readerOk {i : Instr} {s t : State} (h : Completes i s t) (hs : s.ReaderOk) : t.ReaderOk := by
  simp only [State.ReaderOk, State.inRange, h.params] at hs ⊢
  cases h with
  | brInit hin => exact ⟨Nat.zero_le _, hin⟩
  | brRead =>
    refine ⟨?_, hs.2⟩
    simp only [retire_reader, setRes0_reader, advance_ok hs.1]
    exact Nat.min_le_right _ _
  | brSeek hp => exact ⟨hp, hs.2⟩
  | brAlign => exact ⟨(toNat_u32_min _ _).trans_le (Nat.min_le_right _ _), hs.2⟩
  | _ => simpa using hs

theorem Completes.writerOk {i : Instr} {s t : State} (h : Completes i s t) (hs : s.WriterOk) : t.WriterOk := by
  simp only [State.WriterOk, State.inRange, h.params] at hs ⊢
  cases h with
  | bwInit hin => exact ⟨Nat.zero_le _, hin⟩
  | bwWrite hk hlen hsrc hcap =>
    refine ⟨?_, hs.2⟩
    have := s.writer.cap.isLt
    simp only [retire_writer, BitVec.toNat_add, BitVec.toNat_ofNat]
    omega
  | bwAlign => exact ⟨(toNat_u32_min _ _).trans_le (Nat.min_le_right _ _), hs.2⟩
  | _ => simpa using hs

/-! The error registers (R23, R24). -/

theorem errOk_iff_of_not_error {s : State} (hs : ∀ c, s.seq ≠ .error c) : s.ErrOk ↔ s.err = ⟨none, 0, 0⟩ := by
  unfold State.ErrOk
  split
  · exact absurd ‹_› (hs _)
  · exact absurd ‹_› (hs _)
  · rfl

/-- A command that completes in a running chain leaves the error registers cleared, as they were. -/
theorem Completes.errOk {i : Instr} {s t : State} (h : Completes i s t) (hrun : s.seq = .running) (hs : s.ErrOk) : t.ErrOk := by
  have hclear : s.err = ⟨none, 0, 0⟩ := (errOk_iff_of_not_error (by simp [hrun])).1 hs
  refine (errOk_iff_of_not_error fun c => ?_).2 (h.err.trans hclear)
  rcases h.seq with hseq | hseq <;> simp [hseq, hrun]

/-! The steps of the core. -/

/-- The error step keeps the invariant, in any state (R130). -/
theorem inv_errorStep {s : State} (e : ErrCode) (info : Word) (hs : s.Inv) : (s.errorStep e info).Inv := by
  obtain ⟨hp, hm, hr, hw, -⟩ := hs
  exact ⟨hp, hm, hr, hw, rfl⟩

/-- A command of a running chain keeps the invariant. -/
theorem exec_keeps_inv {i : Instr} {s t : State} (hrun : s.seq = .running) (hs : s.Inv) (h : exec i s = .next t) : t.Inv := by
  obtain ⟨hp, hm, hr, hw, he⟩ := hs
  rcases exec_next h with ⟨e, info, rfl⟩ | ⟨src, len, dst, nout, e, info, rfl, ⟨-, -, hdst, -⟩, rfl⟩ | hc
  · exact inv_errorStep e info ⟨hp, hm, hr, hw, he⟩
  · exact ⟨hp, ⟨wf_freeRange hm.1 _ _ _, below_freeRange hm.2 _ hdst⟩, hr, hw, rfl⟩
  · exact ⟨hc.params ▸ hp, hc.memOk hm, hc.readerOk hr, hc.writerOk hw, hc.errOk hrun he⟩

/-- All that the core's own step can do: nothing where it is stopped, else the error step or a command (R63, R68). -/
theorem coreStep_next {s t : State} (h : coreStep s = .next t) :
    t = s ∨ (∃ e info, t = s.errorStep e info) ∨ ∃ i, s.seq = .running ∧ exec i s = .next t := by
  unfold coreStep at h
  split at h
  · split at h
    · exact .inr (.inr ⟨_, ‹_›, h⟩)
    · cases h
      exact .inr (.inl ⟨_, _, rfl⟩)
  · cases h
    exact .inl rfl

theorem coreStep_keeps_inv {s t : State} (hs : s.Inv) (h : coreStep s = .next t) : t.Inv := by
  rcases coreStep_next h with rfl | ⟨e, info, rfl⟩ | ⟨i, hrun, hi⟩
  · exact hs
  · exact inv_errorStep e info hs
  · exact exec_keeps_inv hrun hs hi

/-! The host's actions. -/

/-- All that a host action can do: return a value, write a register, or write DMEM (R55). -/
inductive HostEffect (s : State) : State → Prop
  | read (w : Word) (ctr : Nat) : HostEffect s { s with hostData := w, freeCtr := ctr }
  | writeRegister (offset : Nat) (v : Word) : HostEffect s (s.writeRegister offset v)
  | writeMem (a n : Nat) (v : Word) (hin : a + n ≤ s.params.dmemSize) : HostEffect s (s.hostMemWrite a n v)

theorem hostEffect_of_ite {s t u : State} {c : Prop} [Decidable c] {r : Refusal}
    (h : (if c then Host.Outcome.next u else .refused r : Outcome) = .next t) (hu : c → HostEffect s u) : HostEffect s t := by
  split at h
  · cases h
    exact hu ‹_›
  · cases h

theorem hostRegRead_effect {offset size : Nat} {s t : State} (h : hostRegRead offset size s = .next t) : HostEffect s t :=
  hostEffect_of_ite h fun _ => .read _ _

theorem hostRegWrite_effect {offset size : Nat} {v : Word} {s t : State} (h : hostRegWrite offset size v s = .next t) :
    HostEffect s t :=
  hostEffect_of_ite h fun _ => .writeRegister _ _

theorem hostDmemRead_effect {a size : Nat} {s t : State} (h : hostDmemRead a size s = .next t) : HostEffect s t :=
  hostEffect_of_ite h fun _ => by
    unfold State.hostMemRead
    split
    · exact .read _ _
    · exact .read _ _

theorem hostDmemWrite_effect {a size : Nat} {v : Word} {s t : State} (h : hostDmemWrite a size v s = .next t) : HostEffect s t :=
  hostEffect_of_ite h fun hc => .writeMem _ _ _ hc.2

theorem hostAct_effect {a : HostAction} {s t : State} (h : hostAct a s = .next t) : HostEffect s t := by
  cases a with
  | regRead offset size => exact hostRegRead_effect h
  | regWrite offset size v => exact hostRegWrite_effect h
  | memRead a size => exact hostDmemRead_effect h
  | memWrite a size v => exact hostDmemWrite_effect h
  | busRead addr size =>
    simp only [hostAct] at h
    split at h
    · exact hostRegRead_effect h
    · exact hostDmemRead_effect h
    · cases h
  | busWrite addr size v =>
    simp only [hostAct] at h
    split at h
    · exact hostRegWrite_effect h
    · exact hostDmemWrite_effect h
    · cases h

/-- What a write of `CTRL` can do (R65): a soft reset, or a change of `IE`, then `CLR`, then `GO`. -/
theorem writeCtrl_keeps {P : State → Prop} {s : State} (v : Word) (hs : P s) (hreset : v.getLsbD 3 = true → P s.softReset)
    (hie : ∀ u, P u → P { u with ie := v.getLsbD 1 }) (hclear : ∀ u, P u → P u.clear) (hgo : ∀ u, P u → P u.startChain) :
    P (s.writeCtrl v) := by
  refine iteInduction (motive := P) hreset fun _ => ?_
  have h1 := hie s hs
  have h2 := iteInduction (motive := P) (c := v.getLsbD 2 ∧ State.busy { s with ie := v.getLsbD 1 } = false)
    (fun _ => hclear _ h1) fun _ => h1
  exact iteInduction (motive := P) (fun _ => hgo _ h2) fun _ => h2

/-- What a write of a register can do (R19, R20): a write of `CTRL`, a change of `CP`, or nothing. -/
theorem writeRegister_keeps {P : State → Prop} {s : State} (offset : Nat) (v : Word) (hs : P s) (hctrl : P (s.writeCtrl v))
    (hcp : P { s with cp := v }) : P (s.writeRegister offset v) := by
  unfold State.writeRegister
  split
  · exact hctrl
  · split
    · exact hs
    · exact hcp
  · exact hs

theorem inv_resetWith {p : Params} (hp : p.Valid) : (State.resetWith p).Inv :=
  have hempty : ceil8 (0 : Word).toNat = 0 := by decide
  ⟨hp, ⟨rfl, rfl⟩, ⟨Nat.zero_le _, .inl hempty⟩, ⟨Nat.zero_le _, .inl hempty⟩, rfl⟩

/-- A soft reset keeps the invariant: the registers have their reset values, and DMEM is kept (R140). -/
theorem inv_softReset {s : State} (hs : s.Inv) : s.softReset.Inv := by
  obtain ⟨hp, hm, -⟩ := hs
  obtain ⟨-, -, hr, hw, he⟩ := inv_resetWith hp
  exact ⟨hp, hm, hr, hw, he⟩

theorem inv_writeCtrl {s : State} (v : Word) (hs : s.Inv) : (s.writeCtrl v).Inv :=
  writeCtrl_keeps v hs (fun _ => inv_softReset hs) (fun _ hu => hu)
    (fun _ ⟨hp, hm, hr, hw, _⟩ => ⟨hp, hm, hr, hw, rfl⟩) fun _ ⟨hp, hm, hr, hw, _⟩ => ⟨hp, hm, hr, hw, rfl⟩

theorem inv_hostMemWrite {s : State} {a n : Nat} (v : Word) (hs : s.Inv) (hin : a + n ≤ s.params.dmemSize) :
    (s.hostMemWrite a n v).Inv := by
  obtain ⟨hp, ⟨hwf, hbelow⟩, hr, hw, he⟩ := hs
  exact iteInduction (motive := State.Inv)
    (fun _ => ⟨hp, ⟨wf_freeRange hwf _ _ _, below_freeRange hbelow _ (.inr hin)⟩, hr, hw, he⟩)
    fun _ => ⟨hp, ⟨wf_writeLE hwf _ _ _, below_writeLE hbelow _ (.inr hin)⟩, hr, hw, he⟩

theorem hostEffect_keeps_inv {s t : State} (h : HostEffect s t) (hs : s.Inv) : t.Inv := by
  cases h with
  | read => exact hs
  | writeRegister offset v => exact writeRegister_keeps offset v hs (inv_writeCtrl v hs) hs
  | writeMem a n v hin => exact inv_hostMemWrite v hs hin

/-- All that a step can do: the core's own step, or the host's action, after the turn is taken off the list (R64, log 6). -/
theorem step_next {s s' : State} (h : step s = .next s') :
    ∃ ts, coreStep { s with hostTurns := ts } = .next s' ∨ HostEffect { s with hostTurns := ts } s' := by
  unfold step at h
  split at h
  · exact ⟨s.hostTurns, .inl h⟩
  · exact ⟨_, .inl h⟩
  · exact ⟨_, .inr (hostAct_effect h)⟩

/-- Settles O22: the core's step keeps the invariant (`coreStep_keeps_inv`), and so does what the host does. -/
theorem stepKeepsTheInvariant : Obligations.StepKeepsTheInvariant := by
  intro s s' hs h
  obtain ⟨ts, hcore | hhost⟩ := step_next h
  · exact coreStep_keeps_inv (s := { s with hostTurns := ts }) hs hcore
  · exact hostEffect_keeps_inv hhost hs

end Sys2Proof.Machine

namespace Sys2Proof.Machine

/-! ## The tables' invariant -/

/-! What writing entries keeps of every entry. -/

theorem forall_get_setBlock {α : Type} [DecidableEq α] {Q : α → Prop} {n k : Nat} {t : Tab α} (ht : ∀ i, Q (t.get (n + k) i))
    (c : Nat) {a : α} (ha : Q a) (i : Nat) : Q ((Tab.setBlock n t c a).get (n + k) i) := by
  rw [get_setBlock]
  split
  · exact ha
  · exact ht i

theorem forall_get_set {α : Type} [DecidableEq α] {Q : α → Prop} {d : Nat} {t : Tab α} (ht : ∀ i, Q (t.get d i)) (c : Nat) {a : α}
    (ha : Q a) (i : Nat) : Q ((t.set d c a).get d i) :=
  forall_get_setBlock (k := 0) ht c ha i

/-! The packs (R31, R110). -/

/-- The length field of a pack is the length, whatever the code is: 2^6 divides 2^64. -/
theorem packLen_packOf (c : Nat) {l : Nat} (hl : l ≤ Config.maxCodeLen) : packLen (packOf c l) = l := by
  simp only [packLen, packOf, BitVec.toNat_ofNat, Config.maxCodeLen] at hl ⊢
  omega

/-- An entry that phase 4 gives is an entry it began with, or the pack of a symbol of the list with that symbol's length. -/
theorem hufAssign_get (ls : List (Nat × Nat)) (start : List Nat) (t : PackRam) {i : Nat} (hi : i < 2 ^ packBits)
    (hls : ∀ sl ∈ ls, sl.1 < 2 ^ packBits) :
    packAt (hufAssign ls start t) i = packAt t i ∨ ∃ sl ∈ ls, sl.1 = i ∧ ∃ c, packAt (hufAssign ls start t) i = packOf c sl.2 := by
  induction ls generalizing start t with
  | nil => exact .inl rfl
  | cons sl ls ih =>
    rcases ih _ _ fun x hx => hls x (List.mem_cons_of_mem _ hx) with h | ⟨x, hx, h⟩
    · rw [hufAssign, h, packAt, get_set _ (hls sl List.mem_cons_self) hi]
      split
      · exact .inr ⟨sl, List.mem_cons_self, Eq.symm ‹_›, _, rfl⟩
      · exact .inl rfl
    · exact .inr ⟨x, List.mem_cons_of_mem _ hx, h⟩

/-- Phase 5 refuses a code that does not fit its length (R111). -/
theorem hufEnter_code_fits {t t' : DecRam} {s c l : Nat} (h : hufEnter t s c l = .ok t') : c >>> l = 0 := by
  unfold hufEnter at h
  split at h
  · cases h
  · exact not_not.1 ‹_›

theorem hufBuild_codes_fit {packs : PackRam} {ls : List (Nat × Nat)} {t t' : DecRam} (h : hufBuild packs ls t = .ok t') :
    ∀ sl ∈ ls, packCode (packAt packs sl.1) >>> sl.2 = 0 := by
  induction ls generalizing t with
  | nil => simp
  | cons sl ls ih =>
    unfold hufBuild at h
    split at h
    · cases h
    · rename_i he
      intro x hx
      rcases List.mem_cons.1 hx with rfl | hx
      · exact hufEnter_code_fits he
      · exact ih h x hx

/-- What the lengths of a table that unpacks satisfy (R104, R109). -/
abbrev LengthsOk (ls : List (Nat × Nat)) : Prop :=
  ∀ sl ∈ ls, sl.1 ≤ Config.maxSymbol ∧ 1 ≤ sl.2 ∧ sl.2 ≤ Config.maxCodeLen

/-- The packs of a block whose decoding table builds: phase 5 has checked every code that phase 4 gave (R31). -/
theorem packOk_hufPacks {ls : List (Nat × Nat)} (hls : LengthsOk ls) {t t' : DecRam} (hb : hufBuild (hufPacks ls) ls t = .ok t')
    (i : Nat) : PackOk (packAt (hufPacks ls) i) := by
  have hlow : packAt (hufPacks ls) i = packAt (hufPacks ls) (i % 2 ^ packBits) :=
    get_congr (wf_hufPacks ls) (Nat.mod_mod _ _).symm
  have hsym : ∀ sl ∈ ls, sl.1 < 2 ^ packBits := fun sl hsl => (hls sl hsl).1.trans_lt (by decide)
  rw [hlow]
  rcases hufAssign_get ls _ (.leaf 0) (Nat.mod_lt i (Nat.two_pow_pos _)) hsym with h | ⟨sl, hsl, hi, c, h⟩
  · rw [hufPacks, h, packAt, get_leaf]
    decide
  · have hfit := hufBuild_codes_fit hb sl hsl
    have hlen := packLen_packOf c (hls sl hsl).2.2
    rw [hi] at hfit
    rw [← hufPacks] at h
    rw [h] at hfit ⊢
    rw [PackOk, hlen]
    exact ⟨(hls sl hsl).2.2, fun _ => hfit⟩

/-! The decoding table (R32, R111). -/

theorem decEntryOk_hufEnter {t t' : DecRam} {s c l : Nat} (hs : s ≤ Config.maxSymbol) (hl : 1 ≤ l)
    (ht : ∀ i, DecEntryOk (t.get decBits i)) (h : hufEnter t s c l = .ok t') : ∀ i, DecEntryOk (t'.get decBits i) := by
  unfold hufEnter at h
  split at h
  · cases h
  · split at h
    · rename_i hle
      split at h
      · cases h
        obtain ⟨k, hk⟩ := Nat.exists_eq_add_of_le hle
        have hentry : DecEntryOk (.short l s) := ⟨hl, hle, hs⟩
        rw [hk] at ht ⊢
        exact forall_get_setBlock ht c hentry
      · cases h
    · have hold := ht (c >>> (l - decBits))
      simp only at h
      split at h
      · cases h
      · cases h
        exact forall_get_set ht _ ⟨by simp, by simpa using hs⟩
      · rename_i lits he
        cases h
        rw [he] at hold
        refine forall_get_set ht _ ⟨by simp, fun d hd => ?_⟩
        rcases List.mem_append.1 hd with hd | hd
        · exact hold.2 d hd
        · exact List.mem_singleton.1 hd ▸ hs

theorem decEntryOk_hufBuild {packs : PackRam} {ls : List (Nat × Nat)} (hls : LengthsOk ls) {t t' : DecRam}
    (ht : ∀ i, DecEntryOk (t.get decBits i)) (h : hufBuild packs ls t = .ok t') : ∀ i, DecEntryOk (t'.get decBits i) := by
  induction ls generalizing t with
  | nil => cases h; exact ht
  | cons sl ls ih =>
    obtain ⟨hs, hl, -⟩ := hls sl List.mem_cons_self
    unfold hufBuild at h
    split at h
    · cases h
    · rename_i he
      exact ih (fun x hx => hls x (List.mem_cons_of_mem _ hx)) (decEntryOk_hufEnter hs hl ht he) h

/-! The phases of a decode that succeeds. -/

theorem hufHeader_dMax {m : Memory} {src len : Nat} {h : HufHeader} (hh : hufHeader m src len = .ok h) :
    h.dMax ≤ Config.maxSymbol := by
  unfold hufHeader at hh
  simp only at hh
  split at hh
  · cases hh
  · split at hh
    · cases hh
    · rename_i hsym
      split at hh
      · cases hh
      · split at hh
        · cases hh
        · cases hh
          exact Nat.le_of_not_lt (not_or.1 hsym).2

theorem hufUnpack_range {m : Memory} {src : Nat} {h : HufHeader} {ls : List (Nat × Nat)} (hh : h.dMax ≤ Config.maxSymbol)
    (hu : hufUnpack m src h = .ok ls) : LengthsOk ls := by
  unfold hufUnpack at hu
  split at hu
  · cases hu
  · rename_i hl
    split at hu
    · cases hu
    · cases hu
      intro sl hsl
      obtain ⟨-, hmax, hpos, hlen⟩ := (hufLengths_range hl).1 sl hsl
      exact ⟨hmax.trans hh, hpos, hlen⟩

/-- A decode that succeeds has unpacked lengths, from which its packs and its decoding table are those of phases 4 and 5. -/
theorem hufDecodeBlock_tables {m : Memory} {src len nout : Nat} {b : HufBlock} (h : hufDecodeBlock m src len nout = .ok b) :
    ∃ ls, LengthsOk ls ∧ b.packs = hufPacks ls ∧ hufBuild (hufPacks ls) ls (.leaf .empty) = .ok b.dec := by
  unfold hufDecodeBlock at h
  split at h
  · cases h
  · rename_i hh
    split at h
    · cases h
    · rename_i ls hu
      simp only at h
      split at h
      · cases h
      · rename_i hb
        split at h
        · cases h
        · split at h
          · cases h
          · cases h
            exact ⟨ls, hufUnpack_range (hufHeader_dMax hh) hu, rfl, hb⟩

/-! The steps. -/

/-- The tables' invariant is about the tables and `HUFV` alone. -/
theorem tablesOk_congr {s u : State} (hbitmap : u.bitmap = s.bitmap) (hlut : u.lut = s.lut) (hhufv : u.valid.hufv = s.valid.hufv)
    (hpack : u.pack = s.pack) (hdec : u.dec = s.dec) : u.TablesOk ↔ s.TablesOk := by
  simp only [State.TablesOk, hbitmap, hlut, hhufv, hpack, hdec]

/-- While `HUFV` is 0 the invariant says nothing of `PACK` and `DEC`. -/
theorem tablesOk_of_not_hufv {s : State} (hbitmap : s.bitmap.wf bitmapBits = true) (hlut : s.lut.wf lutBits = true)
    (hhufv : s.valid.hufv = false) : s.TablesOk :=
  ⟨hbitmap, hlut, fun h => absurd (hhufv.symm.trans h) Bool.false_ne_true⟩

theorem tablesOk_hufDone {s : State} (hs : s.TablesOk) {src len nout : Nat} {b : HufBlock} (dst : Nat)
    (hb : hufDecodeBlock s.dmem src len nout = .ok b) : (s.hufDone dst nout b).TablesOk := by
  obtain ⟨hbm, hlut, -⟩ := hs
  obtain ⟨ls, hls, hpacks, hbuild⟩ := hufDecodeBlock_tables hb
  refine ⟨by simpa using hbm, by simpa using hlut, fun _ => ⟨?_, wf_hufBuild (wf_leaf _ _) hbuild, ?_, ?_⟩⟩
  · rw [hufDone_pack, hpacks]
    exact wf_hufPacks ls
  · rw [hufDone_pack, hpacks]
    exact packOk_hufPacks hls hbuild
  · exact decEntryOk_hufBuild hls (fun _ => trivial) hbuild

theorem Completes.tablesOk {i : Instr} {s t : State} (h : Completes i s t) (hs : s.TablesOk) : t.TablesOk := by
  obtain ⟨hbm, hlut, hhuf⟩ := hs
  cases h with
  | bmClear => exact ⟨wf_leaf _ _, hlut, hhuf⟩
  | bmSet => exact ⟨wf_bitmapPut hbm _ _, hlut, hhuf⟩
  | bmUnset => exact ⟨wf_bitmapPut hbm _ _, hlut, hhuf⟩
  | bmScan => exact ⟨wf_bitmapScan _ _ _ hbm, hlut, hhuf⟩
  | bmLoad => exact ⟨wf_bitmapLoad _ _ _ _, hlut, hhuf⟩
  | lutFwd => exact ⟨hbm, wf_lutForward _, hhuf⟩
  | lutRev => exact ⟨hbm, wf_lutReverse _, hhuf⟩
  | hufDecode hc hb => exact tablesOk_hufDone ⟨hbm, hlut, hhuf⟩ _ hb
  | _ => exact (tablesOk_congr (by simp) (by simp) (by simp) (by simp) (by simp)).2 ⟨hbm, hlut, hhuf⟩

theorem exec_keeps_tables {i : Instr} {s t : State} (hs : s.TablesOk) (h : exec i s = .next t) : t.TablesOk := by
  rcases exec_next h with ⟨e, info, rfl⟩ | ⟨src, len, dst, nout, e, info, -, -, rfl⟩ | hc
  · exact hs
  · obtain ⟨hbm, hlut, -⟩ := hs
    exact tablesOk_of_not_hufv hbm hlut rfl
  · exact hc.tablesOk hs

theorem coreStep_keeps_tables {s t : State} (hs : s.TablesOk) (h : coreStep s = .next t) : t.TablesOk := by
  rcases coreStep_next h with rfl | ⟨e, info, rfl⟩ | ⟨i, -, hi⟩
  · exact hs
  · exact hs
  · exact exec_keeps_tables hs hi

theorem tablesOk_resetWith (p : Params) : (State.resetWith p).TablesOk :=
  tablesOk_of_not_hufv (wf_leaf _ _) (wf_leaf _ _) rfl

theorem tablesOk_writeCtrl {s : State} (v : Word) (hs : s.TablesOk) : (s.writeCtrl v).TablesOk :=
  writeCtrl_keeps v hs (fun _ => tablesOk_resetWith s.params) (fun _ hu => hu) (fun _ hu => hu) fun _ hu => hu

theorem hostEffect_keeps_tables {s t : State} (h : HostEffect s t) (hs : s.TablesOk) : t.TablesOk := by
  cases h with
  | read => exact hs
  | writeRegister offset v => exact writeRegister_keeps offset v hs (tablesOk_writeCtrl v hs) hs
  | writeMem => exact iteInduction (motive := State.TablesOk) (fun _ => hs) fun _ => hs

/-- Settles O23: every code of a block that decodes has passed the check of phase 5, and a decode that fails leaves `HUFV` 0. -/
theorem stepKeepsTheTables : Obligations.StepKeepsTheTables := by
  intro s s' hs h
  obtain ⟨ts, hcore | hhost⟩ := step_next h
  · exact coreStep_keeps_tables (s := { s with hostTurns := ts }) hs hcore
  · exact hostEffect_keeps_tables hhost hs

/-- Settles O24: the reset state has empty streams, cleared error registers and tables of one entry value. -/
theorem resetMeetsTheInvariants : Obligations.ResetMeetsTheInvariants :=
  fun p hp => ⟨inv_resetWith hp, tablesOk_resetWith p⟩

end Sys2Proof.Machine

namespace Sys2Proof.Machine

/-! ## What a command leaves unchanged -/

/-- Settles O9: the invariant has both streams inside DMEM. -/
theorem onlyStrayStreamsFault : Obligations.OnlyStrayStreamsFault := by
  refine ⟨fun i s r h => ?_, fun i s r h => ?_, fun i s r hs h => ?_⟩
  all_goals
    have ha := exec_answers i s
    rw [h] at ha
  · cases ha
  · cases ha with
    | strayReader hout => exact .inl ⟨_, _, rfl, rfl, hout⟩
    | strayWriter hout => exact .inr ⟨_, _, _, rfl, rfl, hout⟩
  · obtain ⟨-, -, ⟨-, hreader⟩, ⟨-, hwriter⟩, -⟩ := hs
    cases ha with
    | strayReader hout => exact hout hreader
    | strayWriter hout => exact hout hwriter

section
variable {i : Instr} {s t : State}

theorem Completes.ie (h : Completes i s t) : t.ie = s.ie := by cases h <;> simp

theorem Completes.hostTurns (h : Completes i s t) : t.hostTurns = s.hostTurns := by cases h <;> simp

/-- `LUT_FWD` and `LUT_REV` alone write the LUT, `LUTMAX`, `LUTV` and `LUTK` (R27, R30, R97, R98). -/
theorem Completes.lut_frame (h : Completes i s t) (hfwd : i ≠ .lutFwd) (hrev : i ≠ .lutRev) :
    t.lutMax = s.lutMax ∧ t.lut = s.lut ∧ t.valid.lutv = s.valid.lutv ∧ t.valid.lutk = s.valid.lutk := by
  cases h with
  | lutFwd => exact absurd rfl hfwd
  | lutRev => exact absurd rfl hrev
  | _ => simp

/-- `HUF_DECODE` alone writes `PACK`, `DEC` and `HUFV` (R31, R32). -/
theorem Completes.huf_frame (h : Completes i s t) (hhuf : ∀ src len dst nout, i ≠ .hufDecode src len dst nout) :
    t.pack = s.pack ∧ t.dec = s.dec ∧ t.valid.hufv = s.valid.hufv := by
  cases h with
  | hufDecode => exact absurd rfl (hhuf _ _ _ _)
  | _ => simp

/-- `BM_CLEAR` and `BM_LOAD` alone write `BMV` (R28). -/
theorem Completes.bmv_frame (h : Completes i s t) (hclear : i ≠ .bmClear) (hload : ∀ src min max, i ≠ .bmLoad src min max) :
    t.valid.bmv = s.valid.bmv := by
  cases h with
  | bmClear => exact absurd rfl hclear
  | bmLoad => exact absurd rfl (hload _ _ _)
  | _ => simp

/-- The commands that write the bitmap (R29). -/
theorem Completes.bitmap_frame (h : Completes i s t) (hset : ∀ v, i ≠ .bmSet v) (hunset : ∀ v, i ≠ .bmUnset v)
    (hscan : ∀ base count, i ≠ .bmScan base count) (hclear : i ≠ .bmClear) (hload : ∀ src min max, i ≠ .bmLoad src min max) :
    t.bitmap = s.bitmap := by
  cases h with
  | bmSet => exact absurd rfl (hset _)
  | bmUnset => exact absurd rfl (hunset _)
  | bmScan => exact absurd rfl (hscan _ _)
  | bmClear => exact absurd rfl hclear
  | bmLoad => exact absurd rfl (hload _ _ _)
  | _ => simp

/-- No command clears `BMV` or `LUTV` (R28). -/
theorem Completes.valid_kept (h : Completes i s t) :
    (s.valid.bmv = true → t.valid.bmv = true) ∧ (s.valid.lutv = true → t.valid.lutv = true) := by
  cases h <;> simp

/-- The commands that write the BitReader (R33). -/
theorem Completes.reader_writers (h : Completes i s t) (hne : t.reader ≠ s.reader) :
    (∃ base nbits, i = .brInit base nbits) ∨ (∃ k dst, i = .brRead k dst) ∨ (∃ p, i = .brSeek p) ∨ i = .brAlign := by
  cases h with
  | brInit => exact .inl ⟨_, _, rfl⟩
  | brRead => exact .inr (.inl ⟨_, _, rfl⟩)
  | brSeek => exact .inr (.inr (.inl ⟨_, rfl⟩))
  | brAlign => exact .inr (.inr (.inr rfl))
  | _ => exact absurd (by simp) hne

/-- The commands that write the BitWriter (R34). -/
theorem Completes.writer_writers (h : Completes i s t) (hne : t.writer ≠ s.writer) :
    (∃ base capbits, i = .bwInit base capbits) ∨ (∃ k src srclen, i = .bwWrite k src srclen) ∨ i = .bwAlign := by
  cases h with
  | bwInit => exact .inl ⟨_, _, rfl⟩
  | bwWrite => exact .inr (.inl ⟨_, _, _, rfl⟩)
  | bwAlign => exact .inr (.inr rfl)
  | _ => exact absurd (by simp) hne

/-- The result registers a command does not name (R26, R59). -/
theorem Completes.res_frame (h : Completes i s t) :
    (resultRegs i < 1 → t.res.r0 = s.res.r0) ∧ (resultRegs i < 2 → t.res.r1 = s.res.r1) ∧
      (resultRegs i < 3 → t.res.r2 = s.res.r2) ∧ (resultRegs i < 4 → t.res.r3 = s.res.r3) := by
  cases h <;> simp [resultRegs]

/-- A command that completes in a running chain does not leave the error state. -/
theorem Completes.not_error (h : Completes i s t) (hrun : s.seq = .running) (c : ErrClass) : t.seq ≠ .error c := by
  rcases h.seq with hseq | hseq <;> simp [hseq, hrun]

end

/-- Settles O20: the frames of a completed command above; an error leaves all of this as it is, but that a failed `HUF_DECODE`
writes `PACK`, `DEC` and `HUFV` (R114). -/
theorem stateHasItsOwnWriters : Obligations.StateHasItsOwnWriters := by
  intro i s t h
  rcases exec_next h with ⟨e, info, rfl⟩ | ⟨src, len, dst, nout, e, info, rfl, -, rfl⟩ | hc
  · simp
  · exact ⟨rfl, rfl, rfl, by simp, fun hhuf => absurd rfl (hhuf src len dst nout), by simp⟩
  · exact ⟨hc.params, hc.ie, hc.hostTurns, hc.lut_frame, hc.huf_frame, hc.bmv_frame, hc.bitmap_frame, hc.valid_kept.1, hc.valid_kept.2,
      hc.reader_writers, hc.writer_writers⟩

/-! Register accesses of the host, and what they leave of the results (R26, R55). -/

theorem hostAct_regWrite {offset : Nat} (halign : offset % 4 = 0) (hlt : offset < 256) (v : Word) (s : State) :
    hostAct (.regWrite offset 4 v) s = .next (s.writeRegister offset v) :=
  if_pos ⟨rfl, halign, hlt⟩

theorem hostAct_regRead {offset : Nat} (halign : offset % 4 = 0) (hlt : offset < 256) (s : State) :
    hostAct (.regRead offset 4) s = .next { s with hostData := s.register offset } :=
  if_pos ⟨rfl, halign, hlt⟩

theorem hostAct_writeCtrl (v : Word) (s : State) : hostAct (.regWrite 0x04 4 v) s = .next (s.writeCtrl v) :=
  hostAct_regWrite rfl (by decide) v s

/-- Without `SRST`, a write of `CTRL` changes no result register (R26). -/
theorem writeCtrl_res {s : State} {v : Word} (hv : v.getLsbD 3 = false) : (s.writeCtrl v).res = s.res :=
  writeCtrl_keeps (P := fun u => u.res = s.res) v rfl (fun h => absurd (hv.symm.trans h) Bool.false_ne_true) (fun _ hu => hu)
    (fun _ hu => hu) fun _ hu => hu

/-- Settles O21: an error leaves all results, a completed command those it does not name (`Completes.res_frame`). -/
theorem resultRegistersHaveTheirWriters : Obligations.ResultRegistersHaveTheirWriters := by
  refine ⟨fun i s t h => ?_, fun s v hv => ⟨_, hostAct_writeCtrl v s, writeCtrl_res hv⟩⟩
  rcases exec_next h with ⟨e, info, rfl⟩ | ⟨src, len, dst, nout, e, info, rfl, -, rfl⟩ | hc
  · simp
  · simp
  · obtain ⟨h0, h1, h2, h3⟩ := hc.res_frame
    exact ⟨h0, h1, h2, h3, fun hrun ⟨c, herr⟩ => absurd herr (hc.not_error hrun c)⟩

/-! ## Reset, and the register block -/

theorem writeCtrl_srst {s : State} {v : Word} (hv : v.getLsbD 3 = true) : s.writeCtrl v = s.softReset := if_pos hv

/-- No register shows DMEM or the model's own fields: a soft reset leaves in each what a reset leaves (R139, R140). -/
theorem register_softReset (s : State) (offset : Nat) : s.softReset.register offset = (State.resetWith s.params).register offset := by
  unfold State.register
  split <;> rfl

/-- Settles O12: a write of `CTRL` with `SRST` is the soft reset, of which every register reads as after reset. -/
theorem softResetKeepsDmem : Obligations.SoftResetKeepsDmem := by
  intro s v hv
  have hnext : hostAct (.regWrite 0x04 4 v) s = .next s.softReset := writeCtrl_srst (s := s) hv ▸ hostAct_writeCtrl v s
  exact ⟨s.softReset, hnext, rfl, rfl, rfl, rfl, register_softReset s⟩

@[simp] theorem flagBit_false (j : Nat) : flagBit false j = 0 := rfl

theorem statusWord_resetWith (p : Params) : (State.resetWith p).statusWord = 0 := by
  simp [State.statusWord, State.busy, State.doneFlag, State.errFlag, State.eclass, State.irq, State.resetWith]

theorem validWord_resetWith (p : Params) : (State.resetWith p).validWord = 0 := by
  simp [State.validWord, State.resetWith]

/-- The value of every register after reset (R36). -/
theorem register_resetWith (p : Params) (offset : Nat) :
    (State.resetWith p).register offset = if offset = 0 then p.implId else if offset = 0x54 then u32 p.dmemSize else 0 := by
  unfold State.register
  split
  case h_3 => exact statusWord_resetWith p
  case h_14 => exact validWord_resetWith p
  case h_23 => rw [if_neg (by assumption), if_neg (by assumption)]
  all_goals rfl

/-- Settles O13: the registers by `register_resetWith`, the rest by the definition of the reset state. -/
theorem resetRegisterValues : Obligations.ResetRegisterValues :=
  fun p => ⟨register_resetWith p, rfl, rfl, rfl, rfl, rfl, rfl⟩

/-! `STATUS` and `ERRCODE` (R23, R24). -/

/-- A flag's word has the flag in its bit and 0 in the others. -/
theorem getLsbD_flagBit (b : Bool) {j : Nat} (hj : j < 32) (n : Nat) : (flagBit b j).getLsbD n = (b && decide (n = j)) := by
  cases b with
  | false => simp
  | true =>
    simp only [flagBit, if_true, BitVec.getLsbD_shiftLeft, BitVec.getLsbD_one, Bool.true_and]
    by_cases h : n = j
    · simp [h, hj]
    · simp [h]
      omega

/-- The bits of `STATUS` (R23, R132). -/
theorem getLsbD_statusWord (s : State) (n : Nat) :
    s.statusWord.getLsbD n =
      (s.busy && decide (n = 0) || s.doneFlag && decide (n = 1) || s.errFlag && decide (n = 2) || s.eclass && decide (n = 3) ||
        s.irq && decide (n = 4)) := by
  simp [State.statusWord, getLsbD_flagBit]

theorem busy_iff (s : State) : s.busy = true ↔ s.seq = .running := by
  unfold State.busy
  split <;> simp_all

theorem doneFlag_iff (s : State) : s.doneFlag = true ↔ s.seq = .done := by
  unfold State.doneFlag
  split <;> simp_all

theorem errFlag_iff (s : State) : s.errFlag = true ↔ ∃ c, s.seq = .error c := by
  unfold State.errFlag
  split <;> simp_all

theorem eclass_iff (s : State) : s.eclass = true ↔ s.seq = .error .programmer := by
  unfold State.eclass
  split <;> simp_all

theorem irq_iff (s : State) : s.irq = true ↔ s.ie = true ∧ (s.seq = .done ∨ ∃ c, s.seq = .error c) := by
  simp [State.irq, doneFlag_iff, errFlag_iff]

/-- Settles O15: each bit of `STATUS` is its flag, and each flag is a state of the sequencer. -/
theorem statusBits : Obligations.StatusBits := by
  intro s
  simp only [show s.register 0x08 = s.statusWord from rfl, getLsbD_statusWord]
  refine ⟨?_, ?_, ?_, ?_, ?_, fun n hn => ?_⟩
  · simpa using busy_iff s
  · simpa using doneFlag_iff s
  · simpa using errFlag_iff s
  · simpa using eclass_iff s
  · simpa using irq_iff s
  · simp [show n ≠ 0 by omega, show n ≠ 1 by omega, show n ≠ 2 by omega, show n ≠ 3 by omega, show n ≠ 4 by omega]

/-- The errors of the table of R128, in its order. -/
def errCodes : List ErrCode :=
  [.pBadop, .pAlign, .pRange, .pOverlap, .pState, .pValue, .pNegk, .pSrc, .pCap, .pSeek, .pGeom, .fBmBounds, .fHufFrame, .fHufHdr,
    .fHufTable, .fHufTableRun, .fHufTableLen, .fHufPbits, .fHufCode, .fHufOverlap, .fHufEmpty, .fHufLongmiss, .fHufTrunc,
    .fHufRleNoprev, .fHufToomuch, .fHufNotenough]

/-- Looking an error's number up in the table finds the error. -/
theorem find_number (e : ErrCode) : errCodes.find? (·.number == e.number) = some e := by cases e <;> rfl

theorem number_injective : Function.Injective ErrCode.number := fun e e' h =>
  Option.some.inj (by rw [← find_number e, h, find_number e'])

theorem number_ne_zero (e : ErrCode) : e.number ≠ 0 := by cases e <;> decide

/-- The number of an error is in its class's range (R128). -/
theorem cls_iff_number (e : ErrCode) :
    (e.cls = .programmer ↔ 0x01 ≤ e.number.toNat ∧ e.number.toNat ≤ 0x0B) ∧
      (e.cls = .format ↔ 0x40 ≤ e.number.toNat ∧ e.number.toNat ≤ 0x4E) := by
  cases e <;> decide

theorem errcodeWord_toNat {s : State} {e : ErrCode} (h : s.err.code = some e) : s.errcodeWord.toNat = e.number.toNat := by
  rw [State.errcodeWord, h]
  exact BitVec.toNat_setWidth_of_le (by decide)

/-- Settles O16: a number looked up in the table of R128 gives its error back. -/
theorem errorCodesTellErrorsApart : Obligations.ErrorCodesTellErrorsApart := by
  refine ⟨fun s h => ?_, fun s e h => ⟨errcodeWord_toNat h, fun h0 => ?_⟩, rfl, rfl, fun _ _ h => number_injective h, cls_iff_number⟩
  · change s.errcodeWord = 0
    rw [State.errcodeWord, h]
  · have hnum : s.errcodeWord.toNat = e.number.toNat := errcodeWord_toNat h
    rw [show s.errcodeWord = 0 from h0] at hnum
    exact number_ne_zero e (BitVec.eq_of_toNat_eq hnum.symm)

/-! The register block as the host accesses it (R19, R20, R55). -/

/-- Reserved offsets read 0 (R20). -/
theorem register_reserved {offset : Nat} (h : 0x58 ≤ offset) (s : State) : s.register offset = 0 := by
  unfold State.register
  split
  case h_23 => rfl
  all_goals omega

/-- A register other than `CTRL` and `CP` ignores a write (R20). -/
theorem writeRegister_ignored {offset : Nat} (hctrl : offset ≠ 0x04) (hcp : offset ≠ 0x0C) (s : State) (v : Word) :
    s.writeRegister offset v = s := by
  unfold State.writeRegister
  split
  · exact absurd rfl hctrl
  · exact absurd rfl hcp
  · rfl

theorem writeRegister_cp (s : State) (v : Word) : s.writeRegister 0x0C v = if s.busy then s else { s with cp := v } := rfl

/-- The block's window in the host's map, where the two windows are apart (R48, log 14). -/
theorem hostTarget_register {p : Params} (hapart : p.regHostBase + 256 ≤ p.dmemHostBase ∨ p.dmemHostBase + p.dmemSize ≤ p.regHostBase)
    {offset : Nat} (hlt : offset < 256) : hostTarget p (p.regHostBase + offset) = some (.register offset) := by
  have hin : p.regHostBase ≤ p.regHostBase + offset ∧ p.regHostBase + offset < p.regHostBase + 256 := by omega
  have hout : ¬ (p.dmemHostBase ≤ p.regHostBase + offset ∧ p.regHostBase + offset < p.dmemHostBase + p.dmemSize) := by omega
  simp only [hostTarget]
  rw [if_pos ⟨hin, hout⟩, Nat.add_sub_cancel_left]

theorem hostAct_busRead_register {s : State} {addr offset : Nat} (h : hostTarget s.params addr = some (.register offset)) (size : Nat) :
    hostAct (.busRead addr size) s = hostAct (.regRead offset size) s := by
  simp only [hostAct, h]

theorem hostAct_busWrite_register {s : State} {addr offset : Nat} (h : hostTarget s.params addr = some (.register offset)) (size : Nat)
    (v : Word) : hostAct (.busWrite addr size v) s = hostAct (.regWrite offset size v) s := by
  simp only [hostAct, h]

theorem ctrlWord_eq (s : State) : s.ctrlWord = if s.ie then 2 else 0 := by
  rw [State.ctrlWord]
  cases s.ie <;> rfl

theorem validWord_toNat (s : State) :
    s.validWord.toNat =
      s.valid.bmv.toNat + 2 * s.valid.lutv.toNat + 4 * s.valid.lutk.toNat + 8 * s.valid.hufv.toNat := by
  rw [State.validWord]
  cases s.valid.bmv <;> cases s.valid.lutv <;> cases s.valid.lutk <;> cases s.valid.hufv <;> rfl

theorem brFlagsWord_toNat (s : State) : s.brFlagsWord.toNat = s.reader.ovr.toNat := by
  rw [State.brFlagsWord]
  cases s.reader.ovr <;> rfl

/-- Settles O14: the accesses by `hostAct_regRead` and `hostAct_regWrite`, the host's map by `hostTarget_register`. -/
theorem registerBlockAccesses : Obligations.RegisterBlockAccesses := by
  intro s offset v halign hlt
  have hcp : hostAct (.regWrite 0x0C 4 v) s = .next (if s.busy then s else { s with cp := v }) :=
    hostAct_regWrite rfl (by decide) v s
  refine ⟨hostAct_regRead halign hlt s, fun h => register_reserved h s, fun h4 hC => ?_, fun hbusy => ?_, fun hbusy => ?_,
    fun hapart => ?_, ?_, rfl, BitVec.toNat_setWidth_of_le (by decide), validWord_toNat s, brFlagsWord_toNat s⟩
  · rw [hostAct_regWrite halign hlt, writeRegister_ignored h4 hC]
  · rw [hcp, if_pos hbusy]
  · rw [hcp, if_neg (by simp [hbusy])]
  · have htarget := hostTarget_register hapart hlt
    exact ⟨(hostAct_busRead_register htarget 4).trans (hostAct_regRead halign hlt s), hostAct_busWrite_register htarget 4 v⟩
  · rw [← ctrlWord_eq]
    rfl

end Sys2Proof.Machine

namespace Sys2Proof.Machine

/-! ## DMEM: who reads it and who writes it -/

/-! The fetch (R53, R68). -/

theorem fetchBytes_congr {m m' : Memory} {a : Nat} (h : ∀ x, InBytes x a 32 → m.read x = m'.read x) :
    fetchBytes m a = fetchBytes m' a :=
  List.map_congr_left fun j hj => by
    have hlt : j < 32 := List.mem_range.1 hj
    exact h _ (by omega)

/-- Settles O5: what is decoded and the word that `P_BADOP` reports are among the descriptor's 32 bytes. -/
theorem fetchReadsOnlyTheDescriptor : Obligations.FetchReadsOnlyTheDescriptor := by
  intro s m h
  have hbytes : fetchBytes m s.cp.toNat = fetchBytes s.dmem s.cp.toNat := fetchBytes_congr h
  have hw0 : m.readLE s.cp.toNat 4 = s.dmem.readLE s.cp.toNat 4 := readLE_congr fun x hx => h x (by omega)
  simp only [State.fetch, hbytes, hw0]

/-! The DMEM port (R39, R48, R55). -/

section
variable {s : State} {a n : Nat}

theorem hostAct_memRead (hacc : s.dmemAccess a n) : hostAct (.memRead a n) s = .next (s.hostMemRead a n) := if_pos hacc

theorem hostAct_memWrite (hacc : s.dmemAccess a n) (v : Word) : hostAct (.memWrite a n v) s = .next (s.hostMemWrite a n v) :=
  if_pos hacc

theorem hostMemRead_stopped (h : s.busy = false) (a n : Nat) :
    s.hostMemRead a n = { s with hostData := u32 (s.dmem.readLE a n) } :=
  if_neg (by simp [h])

theorem hostMemRead_running (h : s.busy = true) (a n : Nat) :
    s.hostMemRead a n = { s with hostData := Config.freeWord s.freeCtr, freeCtr := s.freeCtr + 1 } :=
  if_pos h

theorem hostMemWrite_stopped (h : s.busy = false) (a n : Nat) (v : Word) :
    s.hostMemWrite a n v = { s with dmem := s.dmem.writeLE a n v.toNat } :=
  if_neg (by simp [h])

theorem hostMemWrite_running (h : s.busy = true) (a n : Nat) (v : Word) :
    s.hostMemWrite a n v =
      { s with dmem := s.dmem.freeRange s.freeCtr a n, hostRaced := true, freeCtr := s.freeCtr + 1 } :=
  if_pos h

end

/-- Byte `j` of a word, counted from the least significant (R39). -/
theorem ofNat_div_eq_extractLsb' (v : Word) (j : Nat) : BitVec.ofNat 8 (v.toNat / 256 ^ j) = v.extractLsb' (8 * j) 8 := by
  rw [show 256 ^ j = 2 ^ (8 * j) from (Nat.pow_mul 2 8 j).symm, ← Nat.shiftRight_eq_div_pow]
  rfl

/-- The port's window in the host's map, where the two windows are apart (R48, log 14). -/
theorem hostTarget_dmem {p : Params} (hapart : p.regHostBase + 256 ≤ p.dmemHostBase ∨ p.dmemHostBase + p.dmemSize ≤ p.regHostBase)
    {a : Nat} (hlt : a < p.dmemSize) : hostTarget p (p.dmemHostBase + a) = some (.dmem a) := by
  have hin : p.dmemHostBase ≤ p.dmemHostBase + a ∧ p.dmemHostBase + a < p.dmemHostBase + p.dmemSize := by omega
  have hout : ¬ (p.regHostBase ≤ p.dmemHostBase + a ∧ p.dmemHostBase + a < p.regHostBase + 256) := by omega
  simp only [hostTarget]
  rw [if_neg fun h => hout h.1, if_pos ⟨hin, hout⟩, Nat.add_sub_cancel_left]

theorem hostAct_busRead_dmem {s : State} {addr a : Nat} (h : hostTarget s.params addr = some (.dmem a)) (size : Nat) :
    hostAct (.busRead addr size) s = hostAct (.memRead a size) s := by
  simp only [hostAct, h]

theorem hostAct_busWrite_dmem {s : State} {addr a : Nat} (h : hostTarget s.params addr = some (.dmem a)) (size : Nat) (v : Word) :
    hostAct (.busWrite addr size v) s = hostAct (.memWrite a size v) s := by
  simp only [hostAct, h]

/-- Settles O17: a stopped core's port is `readLE` and `writeLE`, whose bytes are `read_writeLE`. -/
theorem dmemPortOfAStoppedCore : Obligations.DmemPortOfAStoppedCore := by
  refine ⟨fun s a n v hwf hstop hsize hin => ?_, fun s a n v hlt hapart => ?_⟩
  · rw [hostAct_memRead ⟨hsize, hin⟩, hostAct_memWrite ⟨hsize, hin⟩, hostMemRead_stopped hstop, hostMemWrite_stopped hstop]
    refine ⟨rfl, _, rfl, fun x => ?_, readLE_writeLE hwf a n v.toNat⟩
    rw [read_writeLE hwf, ofNat_div_eq_extractLsb']
  · have htarget := hostTarget_dmem hapart hlt
    exact ⟨hostAct_busRead_dmem htarget n, hostAct_busWrite_dmem htarget n v⟩

/-- Settles O18: a running chain's port draws free values, which stand in the targeted bytes only (`read_freeRange`). -/
theorem dmemPortOfARunningCore : Obligations.DmemPortOfARunningCore := by
  intro s a n v hwf hrun hsize hin
  rw [hostAct_memRead ⟨hsize, hin⟩, hostAct_memWrite ⟨hsize, hin⟩, hostMemRead_running hrun, hostMemWrite_running hrun]
  refine ⟨⟨_, rfl⟩, _, rfl, fun x hx => ?_⟩
  rw [read_freeRange hwf, if_neg hx]

/-! The commands (R46, R47, R114). -/

theorem read_writeBytes_other {m : Memory} (h : m.wf = true) {b n x : Nat} (f : Nat → Byte) (hx : ¬ InBytes x b n) :
    (m.writeBytes b n f).read x = m.read x := by
  rw [read_writeBytes h, if_neg hx]

section
variable {s : State} {m : Memory} {a : Nat}

/-- A commit of one range, raced or not, leaves a byte outside it as the command's DMEM has it. -/
theorem read_commit_range (hm : m.wf = true) {b n : Nat} (ha : ¬ InBytes a b n) : (s.commit m [(b, n)]).dmem.read a = m.read a :=
  read_commit_other hm (by simpa using ha)

theorem read_commit_writeBytes (hs : s.dmem.wf = true) {b n : Nat} (f : Nat → Byte) (ha : ¬ InBytes a b n) :
    (s.commit (s.dmem.writeBytes b n f) [(b, n)]).dmem.read a = s.dmem.read a :=
  (read_commit_range (wf_writeBytes hs _ _ _) ha).trans (read_writeBytes_other hs f ha)

/-- A transform that keeps whatever its stores keep leaves a byte of no sample that it writes, raced or not. -/
theorem read_commit_wavelet (hs : s.dmem.wf = true) {pl : Plane} (ha : ¬ pl.WritesByte a)
    (hm : ∀ Q : Memory → Prop, pl.Keeps Q → Q s.dmem → Q m) : (s.commit m pl.written).dmem.read a = s.dmem.read a := by
  obtain ⟨hwf, hread⟩ := hm _ (plane_keeps_byte ha (s.dmem.read a)) ⟨hs, rfl⟩
  refine (read_commit_other hwf fun w hw hin => ?_).trans hread
  obtain ⟨x, y, hxy, rfl⟩ := mem_written.1 hw
  exact ha ⟨x, y, hxy, hin⟩

end

/-- A command that completes leaves every byte it does not store to. -/
theorem Completes.dmem_frame {i : Instr} {s t : State} (h : Completes i s t) (hs : s.dmem.wf = true) {a : Nat}
    (ha : ¬ Stores i s a) : t.dmem.read a = s.dmem.read a := by
  cases h with
  | brRead hk =>
    obtain ⟨rfl, -⟩ := operandK_some hk
    exact read_commit_writeBytes hs _ ha
  | bwInit => exact read_commit_writeBytes hs _ ha
  | bwWrite hk =>
    obtain ⟨rfl, -⟩ := operandK_some hk
    exact (read_commit_range (wf_writeBits hs _ _ _ _) ha).trans (read_writeBits_other hs _ _ _ _ ha)
  | bmStore hn =>
    subst hn
    exact read_commit_writeBytes hs _ ha
  | lutApply => exact (read_commit_range (wf_lutApply _ _ _ hs) ha).trans (read_lutApply_other _ _ _ hs ha)
  | hufDecode hc hb =>
    refine (read_commit_range (wf_writeSamples hs _ _) ha).trans (read_writeSamples_other hs ?_)
    rw [hufDecodeBlock_length hb]
    exact ha
  | wavFwd hpl =>
    subst hpl
    exact read_commit_wavelet hs ha fun Q hQ hm => wavForward_keeps hQ _ hm
  | wavInv hpl =>
    subst hpl
    exact read_commit_wavelet hs ha fun Q hQ hm => wavInverse_keeps hQ _ hm
  | _ => rfl

/-- Settles O19: the error step leaves DMEM, a failed `HUF_DECODE` has free values in its destination only, and a command that
completes has the frame `Completes.dmem_frame`. -/
theorem commandsStoreOnlyTheirBytes : Obligations.CommandsStoreOnlyTheirBytes := by
  intro i s t hs h a ha
  rcases exec_next h with ⟨e, info, rfl⟩ | ⟨src, len, dst, nout, e, info, rfl, -, rfl⟩ | hc
  · rfl
  · exact (read_freeRange hs _ _ _ a).trans (if_neg ha)
  · exact hc.dmem_frame hs ha

end Sys2Proof.Machine

namespace Sys2Proof

open Machine

/-! ## The encoding

Decoding is said once, in terms of the encoder (`decodeDescriptor_eq_ok_iff`): a descriptor decodes to a well-formed command exactly
when it has the control word and the used operand words of the command's own descriptor. -/

/-! Bytes, words and descriptors (R39, R56). -/

theorem wordOfBytes_bytes (w : Word) :
    wordOfBytes (w.extractLsb' 0 8) (w.extractLsb' 8 8) (w.extractLsb' 16 8) (w.extractLsb' 24 8) = w := by
  unfold wordOfBytes
  rw [BitVec.extractLsb'_append_extractLsb'_eq_extractLsb' (by decide), BitVec.extractLsb'_append_extractLsb'_eq_extractLsb' (by decide),
    BitVec.extractLsb'_append_extractLsb'_eq_extractLsb' (by decide)]
  exact BitVec.extractLsb'_eq_self

@[simp] theorem takeWord_bytesOfWord (w : Word) (rest : List Byte) : takeWord (bytesOfWord w ++ rest) = some (w, rest) :=
  congrArg (fun v => some (v, rest)) (wordOfBytes_bytes w)

theorem takeDescriptor_bytesOfDescriptor (d : Descriptor) (rest : List Byte) :
    takeDescriptor (bytesOfDescriptor d ++ rest) = some (d, rest) := by
  simp only [takeDescriptor, bytesOfDescriptor, List.append_assoc, takeWords, takeWord_bytesOfWord]

/-! The control word (R57). -/

/-- With `RSV` 0, the opcode and the mode are all of `W0`. -/
theorem w0_eq_controlWord {d : Descriptor} (h : d.rsv = 0) :
    d.w0 = controlWord (BitVec.ofNat 8 d.opc) (BitVec.ofNat 2 d.wm) := by
  have hrsv : d.w0.extractLsb' 10 22 = 0 := BitVec.eq_of_toNat_eq h
  rw [controlWord, ← hrsv, BitVec.ofNat_toNat, BitVec.ofNat_toNat, BitVec.setWidth_eq, BitVec.setWidth_eq,
    BitVec.extractLsb'_append_extractLsb'_eq_extractLsb' (by decide), BitVec.extractLsb'_append_extractLsb'_eq_extractLsb' (by decide)]
  exact BitVec.extractLsb'_eq_self.symm

@[simp] theorem opc_controlWord (opc : Byte) (wm : BitVec 2) : (controlWord opc wm).extractLsb' 0 8 = opc :=
  BitVec.extractLsb'_append_eq_right

@[simp] theorem wm_controlWord (opc : Byte) (wm : BitVec 2) : (controlWord opc wm).extractLsb' 8 2 = wm := by
  rw [controlWord, BitVec.extractLsb'_append_eq_of_le (by decide)]
  exact BitVec.extractLsb'_append_eq_right

@[simp] theorem wavModeOf_wavModeBits (wm : WavMode) : wavModeOf (wavModeBits wm).toNat = wm := by cases wm <;> rfl

theorem wavModeBits_wavModeOf {n : Nat} (h : n < 4) : wavModeBits (wavModeOf n) = BitVec.ofNat 2 n := by
  interval_cases n <;> rfl

/-- The modes that are not the reserved one. -/
theorem wellFormed_wavModeOf {n : Nat} (h : n < 3) : (wavModeOf n).wellFormed = true := by
  interval_cases n <;> rfl

/-! Legal descriptors (R60). -/

theorem legal_iff (d : Descriptor) :
    d.legal = true ↔ d.opc ∈ definedOpcodes ∧ d.rsv = 0 ∧ (d.wm = 0 ∨ d.opc ∈ wavOpcodes) ∧ d.wm ≠ 3 := by
  simp only [Descriptor.legal, Bool.and_eq_true, Bool.or_eq_true, List.contains_iff_mem, beq_iff_eq, Bool.not_eq_true',
    beq_eq_false_iff_ne, and_assoc]

/-- Legality is about the control word alone. -/
theorem legal_congr {d d' : Descriptor} (h : d.w0 = d'.w0) : d.legal = d'.legal := by
  simp only [Descriptor.legal, Descriptor.opc, Descriptor.rsv, Descriptor.wm, h]

theorem mem_wavOpcodes (n : Nat) : n ∈ wavOpcodes ↔ n = 0x40 ∨ n = 0x41 := by simp [wavOpcodes]

/-- The opcode table has the defined opcodes' rows (R59). -/
theorem commandOf_isSome_iff (opc : Nat) (d : Descriptor) : (commandOf opc d).isSome = true ↔ opc ∈ definedOpcodes := by
  unfold commandOf
  split
  case h_30 => simp_all [definedOpcodes]
  all_goals simp [definedOpcodes]

/-- A descriptor decodes to its row's command exactly when it is legal. -/
theorem decodeDescriptor_eq_ok_iff_legal (d : Descriptor) (i : Instr) :
    decodeDescriptor d = .ok i ↔ commandOf d.opc d = some i ∧ d.legal = true := by
  have hdef := commandOf_isSome_iff d.opc d
  rw [legal_iff]
  unfold decodeDescriptor
  cases hc : commandOf d.opc d with
  | none => simp
  | some j =>
    rw [hc] at hdef
    have hmem : d.opc ∈ definedOpcodes := hdef.1 rfl
    simp only [List.contains_iff_mem]
    split_ifs with hrsv hstray hres
    · exact iff_of_false nofun fun ⟨_, _, h0, _⟩ => hrsv h0
    · exact iff_of_false nofun fun ⟨_, _, _, hmode, _⟩ => hmode.elim hstray.1 hstray.2
    · exact iff_of_false nofun fun ⟨_, _, _, _, h3⟩ => h3 hres
    · have hmode : d.wm = 0 ∨ d.opc ∈ wavOpcodes := or_iff_not_imp_left.2 (not_and_not_right.1 hstray)
      rw [Except.ok.injEq, Option.some.injEq]
      exact ⟨fun h => ⟨h, hmem, not_not.1 hrsv, hmode, hres⟩, And.left⟩

theorem exists_decodeDescriptor_iff (d : Descriptor) : (∃ i, decodeDescriptor d = .ok i) ↔ d.legal = true := by
  simp only [decodeDescriptor_eq_ok_iff_legal, exists_and_right, ← Option.isSome_iff_exists, commandOf_isSome_iff, and_iff_right_iff_imp]
  exact fun h => ((legal_iff d).1 h).1

/-- The encoder's descriptors are legal: the family `LegalEncoding`, for every command. -/
theorem legal_encodeDescriptor (i : Instr) (h : i.wellFormed = true) : (encodeDescriptor i).legal = true :=
  open Laws.LegalEncoding in
  Instr.rec (motive := Laws.LegalEncoding.Statement) nop endChain brInit brRead brSeek brRemain brAlign bwInit bwWrite bwIndex bwRemain
    bwAlign bmClear bmSet bmUnset bmHas bmScan bmBounds bmLoad bmStore lutFwd lutRev lutApply lutRead hufDecode hufPackRead hufDecRead
    wavFwd wavInv i h

/-! The operand words (R58, R59). -/

/-- The first `n` of the operand words A to E. -/
def Descriptor.operands (d : Descriptor) (n : Nat) : List Word := [d.a, d.b, d.c, d.d, d.e].take n

theorem operands_eq_iff (d d' : Descriptor) (n : Nat) :
    d.operands n = d'.operands n ↔
      (1 ≤ n → d.a = d'.a) ∧ (2 ≤ n → d.b = d'.b) ∧ (3 ≤ n → d.c = d'.c) ∧ (4 ≤ n → d.d = d'.d) ∧ (5 ≤ n → d.e = d'.e) := by
  match n with
  | 0 | 1 | 2 | 3 | 4 | n + 5 => simp [Descriptor.operands]

/-- The row of an opcode, read backwards: the command's control word, its mode and its operands. -/
theorem encodeDescriptor_of_commandOf {opc : Nat} {d : Descriptor} {i : Instr} (h : commandOf opc d = some i) :
    (encodeDescriptor i).w0 = controlWord (BitVec.ofNat 8 opc) (if opc ∈ wavOpcodes then wavModeBits (wavModeOf d.wm) else 0) ∧
      i.wellFormed = (if opc ∈ wavOpcodes then (wavModeOf d.wm).wellFormed else true) ∧
      (encodeDescriptor i).operands (operandWords i) = d.operands (operandWords i) := by
  unfold commandOf at h
  split at h
  case h_30 => cases h
  all_goals
    cases h
    exact ⟨rfl, rfl, rfl⟩

/-- A row reads no more than the mode and its operands. -/
theorem commandOf_congr {opc : Nat} {d d' : Descriptor} {i : Instr} (h : commandOf opc d = some i) (hwm : d'.wm = d.wm)
    (hops : d'.operands (operandWords i) = d.operands (operandWords i)) : commandOf opc d' = some i := by
  unfold commandOf at h
  split at h
  case h_30 => cases h
  all_goals
    cases h
    simp only [Descriptor.operands, operandWords, List.take, List.cons.injEq] at hops
    simp only [commandOf, hops, hwm]

theorem commandOf_encodeDescriptor (i : Instr) : commandOf (encodeDescriptor i).opc (encodeDescriptor i) = some i := by
  cases i with
  | wavFwd wm | wavInv wm =>
    simp only [encodeDescriptor, Descriptor.opc, opc_controlWord, BitVec.reduceToNat, commandOf, Descriptor.wm, wm_controlWord,
      wavModeOf_wavModeBits]
  | _ => rfl

/-- What decodes to a command: the descriptors with its control word and its operands. -/
theorem decodeDescriptor_eq_ok_iff (d : Descriptor) (i : Instr) :
    decodeDescriptor d = .ok i ↔
      i.wellFormed = true ∧ (encodeDescriptor i).w0 = d.w0 ∧
        (encodeDescriptor i).operands (operandWords i) = d.operands (operandWords i) := by
  rw [decodeDescriptor_eq_ok_iff_legal]
  constructor
  · rintro ⟨hc, hl⟩
    obtain ⟨-, hrsv, hmode, h3⟩ := (legal_iff d).1 hl
    obtain ⟨hw0, hwf, hops⟩ := encodeDescriptor_of_commandOf hc
    have hlt : d.wm < 4 := BitVec.isLt _
    refine ⟨?_, ?_, hops⟩
    · rw [hwf]
      split_ifs
      · exact wellFormed_wavModeOf (by omega)
      · rfl
    · rw [hw0, w0_eq_controlWord hrsv]
      split_ifs with hwav
      · rw [wavModeBits_wavModeOf hlt]
      · rw [hmode.resolve_right hwav]
        rfl
  · rintro ⟨hwf, hw0, hops⟩
    have hopc : (encodeDescriptor i).opc = d.opc := by rw [Descriptor.opc, hw0]
    have hwm : (encodeDescriptor i).wm = d.wm := by rw [Descriptor.wm, hw0]
    have hc : commandOf d.opc (encodeDescriptor i) = some i := hopc ▸ commandOf_encodeDescriptor i
    exact ⟨commandOf_congr hc hwm.symm hops.symm, legal_congr hw0 ▸ legal_encodeDescriptor i hwf⟩

/-- Settles O25: the bytes are those of the command's descriptor, which has the command's control word and operands. -/
theorem decodeOfEncode : Obligations.DecodeOfEncode := by
  intro i rest hwf
  have hd : decodeDescriptor (encodeDescriptor i) = .ok i := (decodeDescriptor_eq_ok_iff _ i).2 ⟨hwf, rfl, rfl⟩
  rw [decode, encode, takeDescriptor_bytesOfDescriptor]
  simp only [hd]

/-- Settles O27: the two directions of `decodeDescriptor_eq_ok_iff`. -/
theorem decodeTakesTheUsedWords : Obligations.DecodeTakesTheUsedWords := by
  intro d i h
  obtain ⟨hwf, hw0, hops⟩ := (decodeDescriptor_eq_ok_iff d i).1 h
  obtain ⟨ha, hb, hc, hd, he⟩ := (operands_eq_iff _ _ _).1 hops
  refine ⟨hwf, hw0, ha, hb, hc, hd, he, fun d' hw0' ha' hb' hc' hd' he' => ?_⟩
  have hops' : d'.operands (operandWords i) = d.operands (operandWords i) := (operands_eq_iff _ _ _).2 ⟨ha', hb', hc', hd', he'⟩
  exact (decodeDescriptor_eq_ok_iff d' i).2 ⟨hwf, hw0.trans hw0'.symm, hops.trans hops'.symm⟩

/-- Settles O28: the decoder, run on the words. -/
theorem sampleWordsDecode : Obligations.SampleWordsDecode := by
  unfold Obligations.SampleWordsDecode
  decide

/-! The descriptor fetched (R56, R60, R68). -/

theorem toNat_append_byte {n : Nat} (x : BitVec n) (b : Byte) : (x ++ b).toNat = b.toNat + 256 * x.toNat := by
  rw [BitVec.toNat_append, ← Nat.shiftLeft_add_eq_or_of_lt b.isLt, Nat.shiftLeft_eq]
  omega

/-- A word's bytes are its digits, lowest first (R39). -/
theorem toNat_wordOfBytes (b0 b1 b2 b3 : Byte) :
    (wordOfBytes b0 b1 b2 b3).toNat = b0.toNat + 256 * (b1.toNat + 256 * (b2.toNat + 256 * b3.toNat)) :=
  (toNat_append_byte _ b0).trans (by rw [toNat_append_byte, toNat_append_byte])

theorem u32_readLE_four (m : Memory) (a : Nat) :
    u32 (m.readLE a 4) = wordOfBytes (m.read a) (m.read (a + 1)) (m.read (a + 2)) (m.read (a + 3)) := by
  have h : m.readLE a 4 = (wordOfBytes (m.read a) (m.read (a + 1)) (m.read (a + 2)) (m.read (a + 3))).toNat := by
    rw [toNat_wordOfBytes]
    rfl
  rw [h, u32, BitVec.ofNat_toNat, BitVec.setWidth_eq]

theorem takeDescriptor_fetchBytes (m : Memory) (a : Nat) : takeDescriptor (fetchBytes m a) = some (descriptorAt m a, []) := by
  simp only [descriptorAt, u32_readLE_four]
  rfl

theorem decode_fetchBytes_error {m : Memory} {a : Nat} (h : ∀ i, decodeDescriptor (descriptorAt m a) ≠ .ok i) :
    ∃ e, decode (fetchBytes m a) = .error e := by
  rw [decode, takeDescriptor_fetchBytes]
  cases hd : decodeDescriptor (descriptorAt m a) with
  | error e => exact ⟨e, by simp only [hd]⟩
  | ok i => exact absurd hd (h i)

theorem step_of_fetch_error {s : State} (hrun : s.seq = .running) (hturn : s.hostTurns = []) {e : ErrCode} {info : Word}
    (hf : s.fetch = .error (e, info)) : step s = .next (s.errorStep e info) := by
  rw [step, hturn]
  simp only [coreStep, hrun, hf, raise_eq]

/-- The opcodes of R60's first condition. -/
theorem not_mem_definedOpcodes_iff {n : Nat} (hn : n < 256) :
    n ∉ definedOpcodes ↔
      (0x02 ≤ n ∧ n ≤ 0x0F) ∨ (0x15 ≤ n ∧ n ≤ 0x17) ∨ (0x1D ≤ n ∧ n ≤ 0x1F) ∨ (0x2C ≤ n ∧ n ≤ 0x2F) ∨ (0x33 ≤ n ∧ n ≤ 0x3F) ∨
        (0x42 ≤ n ∧ n ≤ 0xFF) := by
  simp only [definedOpcodes, List.mem_cons, List.not_mem_nil, or_false, not_or]
  constructor <;> omega

/-- Settles O26: the legal descriptors decode, and a fetch of another one raises `P_BADOP` (`fetch_illegal`). -/
theorem exactlyLegalDescriptorsDecode : Obligations.ExactlyLegalDescriptorsDecode := by
  refine ⟨fun d => ?_, fun n hn => not_mem_definedOpcodes_iff hn, fun s hrun hturn ha hr hbad => ?_⟩
  · rw [exists_decodeDescriptor_iff, legal_iff, mem_wavOpcodes]
    have h3 : d.wm = 3 → d.wm ≠ 0 := by omega
    tauto
  · obtain ⟨e, he⟩ := decode_fetchBytes_error hbad
    exact step_of_fetch_error hrun hturn (fetch_illegal ha hr he)

end Sys2Proof

namespace Sys2Proof.Machine

/-! ## The sequencer -/

/-! How a completed command leaves the sequencer (R69). -/

section
variable {i : Instr} {s t : State}

/-- A command that completes has advanced `CP` and `CMDCNT` (R69). -/
theorem Completes.retired (h : Completes i s t) : t.cp = s.cp + 32 ∧ t.cmdCnt = s.cmdCnt + 1 := by cases h <;> simp

/-- Of the commands that complete, `END` alone stops the chain (R69, R72). -/
theorem Completes.seq_eq (h : Completes i s t) : t.seq = if i = .endChain then .done else s.seq := by cases h <;> simp

/-- In a state of the invariant no command stops the machine. -/
theorem exists_exec_next (hs : s.Inv) : ∃ t, exec i s = .next t := by
  obtain ⟨hrefused, -, hfault⟩ := onlyStrayStreamsFault
  cases h : exec i s with
  | next t => exact ⟨t, rfl⟩
  | fault r => exact absurd h (hfault i s r hs)
  | refused r => exact absurd h (hrefused i s r)

end

/-- Settles O7: a next state there is (`exists_exec_next`), and by `exec_next` it is that of an error or of a completed command. -/
theorem commandRetiresOrStops : Obligations.CommandRetiresOrStops := by
  intro i s hs hrun
  obtain ⟨t, h⟩ := exists_exec_next (i := i) hs
  refine ⟨t, h, ?_⟩
  rcases exec_next h with ⟨e, info, rfl⟩ | ⟨src, len, dst, nout, e, info, -, -, rfl⟩ | hc
  · exact .inr ⟨rfl, rfl, e, info, rfl, rfl⟩
  · exact .inr ⟨rfl, rfl, e, info, rfl, rfl⟩
  · exact .inl ⟨hc.retired.1, hc.retired.2, hc.err, hrun ▸ hc.seq_eq⟩

/-! `NOP` and `END` (R71, R72). -/

/-- Settles O1: a descriptor with `W0 = 0` has the control word of `NOP`, which has no operands, and 32 zero bytes are its encoding. -/
theorem nopOnlyRetires : Obligations.NopOnlyRetires := by
  refine ⟨fun _ => rfl, decodeOfEncode .nop [] rfl, fun d hd => (decodeDescriptor_eq_ok_iff d .nop).2 ⟨rfl, ?_, rfl⟩⟩
  rw [hd]
  rfl

/-- `STATUS` of a chain that is done: `DONE`, and `IRQ` where `IE` is set (R23, R132). -/
theorem statusWord_of_done {s : State} (h : s.seq = .done) : s.statusWord = if s.ie then 0x12 else 0x02 := by
  simp only [State.statusWord, State.busy, State.doneFlag, State.errFlag, State.eclass, State.irq, h]
  cases s.ie <;> rfl

/-- Settles O2: an error does not leave the chain done, and of the commands that complete `END` alone does (`Completes.seq_eq`). -/
theorem endIsTheOnlyGoodEnd : Obligations.EndIsTheOnlyGoodEnd := by
  refine ⟨fun _ => rfl, fun s t h => ?_, fun i s t hrun h hdone => ?_⟩
  · cases h
    exact statusWord_of_done rfl
  · rcases exec_next h with ⟨e, info, rfl⟩ | ⟨src, len, dst, nout, e, info, -, -, rfl⟩ | hc
    · cases hdone
    · cases hdone
    · by_contra hend
      rw [hc.seq_eq, if_neg hend, hrun] at hdone
      cases hdone

/-! Whose turn a step is, and the core's own step (R63, R64, R68; log 5, log 6). -/

section
variable {s : State}

theorem step_of_no_turns (h : s.hostTurns = []) : step s = coreStep s := by rw [step, h]

theorem step_of_core_turn {ts : List HostTurn} (h : s.hostTurns = .core :: ts) : step s = coreStep { s with hostTurns := ts } := by
  rw [step, h]

theorem step_of_host_turn {a : HostAction} {ts : List HostTurn} (h : s.hostTurns = .act a :: ts) :
    step s = hostAct a { s with hostTurns := ts } := by
  rw [step, h]

theorem coreStep_of_stopped (h : s.seq ≠ .running) : coreStep s = .next s := by
  unfold coreStep
  split
  · exact absurd ‹_› h
  · rfl

theorem coreStep_of_fetch_ok (hrun : s.seq = .running) {i : Instr} (hf : s.fetch = .ok i) : coreStep s = exec i s := by
  simp only [coreStep, hrun, hf]

/-- The fetch of a descriptor that decodes to a command. -/
theorem fetch_of_decodeDescriptor (ha : s.cp.toNat % 4 = 0) (hr : s.cp.toNat + 32 ≤ s.params.dmemSize) {i : Instr}
    (hd : decodeDescriptor (descriptorAt s.dmem s.cp.toNat) = .ok i) : s.fetch = .ok i := by
  refine fetch_of_decode ha hr (rest := []) ?_
  rw [decode, takeDescriptor_fetchBytes]
  simp only [hd]

/-- The fetch of a descriptor that is not legal (R60). -/
theorem fetch_of_not_legal (ha : s.cp.toNat % 4 = 0) (hr : s.cp.toNat + 32 ≤ s.params.dmemSize)
    (hl : (descriptorAt s.dmem s.cp.toNat).legal = false) :
    s.fetch = .error (.pBadop, (descriptorAt s.dmem s.cp.toNat).w0) := by
  obtain ⟨e, he⟩ := decode_fetchBytes_error fun i hi =>
    Bool.false_ne_true (hl.symm.trans ((exists_decodeDescriptor_iff _).1 ⟨i, hi⟩))
  exact fetch_illegal ha hr he

/-- A fetch that gives a command has passed the range check (R68). -/
theorem inside_of_fetch_ok {i : Instr} (hf : s.fetch = .ok i) : s.cp.toNat + 32 ≤ s.params.dmemSize := by
  by_contra hr
  by_cases ha : s.cp.toNat % 4 = 0
  · rw [fetch_outside ha (Nat.lt_of_not_le hr)] at hf
    cases hf
  · rw [fetch_unaligned ha] at hf
    cases hf

end

/-- Settles O3: the list of turns is no part of what a fetch reads, so that taking a turn off it leaves the command fetched the same. -/
theorem stepRunsTheDecodedCommand : Obligations.StepRunsTheDecodedCommand := by
  refine ⟨fun s i rest hrun ha hr hd => ?_, fun s hstop => ⟨fun h => ?_, fun ts h => ?_⟩, fun s a ts h => step_of_host_turn h⟩
  · have hcore : ∀ ts, coreStep { s with hostTurns := ts } = exec i { s with hostTurns := ts } := fun ts =>
      coreStep_of_fetch_ok (s := { s with hostTurns := ts }) hrun (fetch_of_decode ha hr hd)
    exact ⟨fun h => (step_of_no_turns h).trans (hcore s.hostTurns), fun ts h => (step_of_core_turn h).trans (hcore ts)⟩
  · exact (step_of_no_turns h).trans (coreStep_of_stopped hstop)
  · exact (step_of_core_turn h).trans (coreStep_of_stopped hstop)

/-- Settles O4: one lemma for each outcome of the fetch. -/
theorem fetchChecksInOrder : Obligations.FetchChecksInOrder := by
  intro s hrun hturn
  refine ⟨fun ha => ?_, fun ha hr => ?_, fun ha hr hl => ?_, fun ha hr hl => ?_⟩
  · exact step_of_fetch_error hrun hturn (fetch_unaligned ha)
  · exact step_of_fetch_error hrun hturn (fetch_outside ha hr)
  · exact step_of_fetch_error hrun hturn (fetch_of_not_legal ha hr hl)
  · obtain ⟨i, hi⟩ := (exists_decodeDescriptor_iff _).2 hl
    exact ⟨i, hi, (step_of_no_turns hturn).trans (coreStep_of_fetch_ok hrun (fetch_of_decodeDescriptor ha hr hi))⟩

/-! A chain with no host turns, to its end (R70). -/

/-- A running chain without host turns either stops in its next step, or goes on 32 bytes further, where it is again in the invariant
and without host turns; it goes on only from a descriptor inside DMEM. -/
theorem step_stops_or_advances {s : State} (hs : s.Inv) (hrun : s.seq = .running) (hturn : s.hostTurns = []) :
    ∃ t, step s = .next t ∧
      (t.seq ≠ .running ∨
        (t.Inv ∧ t.hostTurns = [] ∧ t.params = s.params ∧ s.cp.toNat + 32 ≤ s.params.dmemSize ∧ t.cp = s.cp + 32)) := by
  cases hf : s.fetch with
  | error r => exact ⟨_, step_of_fetch_error hrun hturn hf, .inl nofun⟩
  | ok i =>
    obtain ⟨t, h, hout⟩ := commandRetiresOrStops i s hs hrun
    obtain ⟨hparams, -, hturns, -⟩ := stateHasItsOwnWriters i s t h
    refine ⟨t, (step_of_no_turns hturn).trans ((coreStep_of_fetch_ok hrun hf).trans h), ?_⟩
    rcases hout with ⟨hcp, -, -, -⟩ | ⟨-, -, e, info, hseq, -⟩
    · exact .inr ⟨exec_keeps_inv hrun hs h, hturns.trans hturn, hparams, inside_of_fetch_ok hf, hcp⟩
    · exact .inl (by simp [hseq])

theorem run_succ_of_step {s u : State} (h : step s = .next u) (k : Nat) : core.run (k + 1) s = core.run k u := by
  have hcore : core.step s = .next u := h
  simp only [Host.Core.run, hcore]

/-- With room for at most `n` descriptors from `CP` on, a chain stops within `n + 1` steps. -/
theorem stops_within {n : Nat} {s : State} (hs : s.Inv) (hrun : s.seq = .running) (hturn : s.hostTurns = [])
    (hroom : s.params.dmemSize < s.cp.toNat + 32 * (n + 1)) :
    ∃ (k : Nat) (t : State), k ≤ n + 1 ∧ core.run k s = .next t ∧ t.seq ≠ .running := by
  induction n generalizing s with
  | zero =>
    obtain ⟨t, hstep, hstop | ⟨-, -, -, hinside, -⟩⟩ := step_stops_or_advances hs hrun hturn
    · exact ⟨1, t, le_rfl, run_succ_of_step hstep 0, hstop⟩
    · omega
  | succ n ih =>
    obtain ⟨t, hstep, hnext⟩ := step_stops_or_advances hs hrun hturn
    by_cases hrun' : t.seq = .running
    · obtain ⟨ht, hturn', hparams, hinside, hcp⟩ := hnext.resolve_left (not_not.2 hrun')
      have hsize : s.params.dmemSize ≤ 2147483648 := hs.1.2.1
      have hcp' : t.cp.toNat = s.cp.toNat + 32 := by
        rw [hcp]
        bv_omega
      obtain ⟨k, u, hk, hu, hstop⟩ := ih ht hrun' hturn' (by rw [hparams, hcp']; omega)
      exact ⟨k + 1, u, Nat.succ_le_succ hk, (run_succ_of_step hstep k).trans hu, hstop⟩
    · exact ⟨1, t, by omega, run_succ_of_step hstep 0, hrun'⟩

/-- Settles O10: from any `CP` there is room for at most `DMEM_SIZE / 32` descriptors (`stops_within`). -/
theorem everyChainStops : Obligations.EveryChainStops := fun s hs hrun hturn =>
  stops_within hs hrun hturn (by omega)

/-! A write of `CTRL` (R65, R66, R67). -/

theorem busy_with_ie (s : State) (b : Bool) : State.busy { s with ie := b } = s.busy := rfl

theorem busy_clear (s : State) : s.clear.busy = false := rfl

/-- A `GO` overwrites all that a `CLR` before it has changed. -/
theorem startChain_clear (s : State) : s.clear.startChain = s.startChain := rfl

section
variable {s : State} {v : Word}

/-- Without `SRST`, a busy core takes `IE` alone. -/
theorem writeCtrl_of_busy (hv : v.getLsbD 3 = false) (hbusy : s.busy = true) : s.writeCtrl v = { s with ie := v.getLsbD 1 } := by
  simp only [State.writeCtrl, hv, busy_with_ie, hbusy, Bool.true_eq_false, and_false, Bool.false_eq_true, if_false]

/-- Without `SRST`, a stopped core takes `IE`, and then starts a chain, or is cleared, or neither. -/
theorem writeCtrl_of_stopped (hv : v.getLsbD 3 = false) (hstop : s.busy = false) :
    s.writeCtrl v =
      if v.getLsbD 0 then State.startChain { s with ie := v.getLsbD 1 }
      else if v.getLsbD 2 then State.clear { s with ie := v.getLsbD 1 }
      else { s with ie := v.getLsbD 1 } := by
  cases hclr : v.getLsbD 2 with
  | false => simp only [State.writeCtrl, hv, hclr, busy_with_ie, hstop, Bool.false_eq_true, and_true, if_false]
  | true =>
    simp only [State.writeCtrl, hv, hclr, busy_with_ie, hstop, busy_clear, startChain_clear, Bool.false_eq_true, and_true, if_false,
      if_true]

end

/-- Settles O11: a soft reset, or what `IE`, `CLR` and `GO` do to a busy and to a stopped core. -/
theorem ctrlWriteActsInOrder : Obligations.CtrlWriteActsInOrder := by
  intro s v
  rw [hostAct_writeCtrl]
  refine ⟨fun h3 => ?_, fun h3 hbusy => ?_, fun h3 hstop h2 h0 => ?_, fun h3 hstop h2 h0 => ?_, fun h3 hstop h0 => ?_⟩
  · rw [writeCtrl_srst h3]
  · rw [writeCtrl_of_busy h3 hbusy]
  · rw [writeCtrl_of_stopped h3 hstop, h0, h2]
    rfl
  · rw [writeCtrl_of_stopped h3 hstop, h0, h2]
    rfl
  · rw [writeCtrl_of_stopped h3 hstop, h0]
    rfl

end Sys2Proof.Machine

namespace Sys2Proof.Machine

/-! ## The bit I/O engine -/

/-- The operand `k` of a command is its value where it is not negative (R58). -/
theorem operandK_of_nonneg {k : Word} (hk : 0 ≤ k.toInt) : operandK k = some k.toNat := if_neg (not_lt.2 hk)

theorem toNat_u32_ceil8 (w : Word) : (u32 (ceil8 w.toNat)).toNat = ceil8 w.toNat :=
  Nat.mod_eq_of_lt (by have := w.isLt; unfold ceil8; omega)

/-! The BitReader (R75 to R79). -/

/-- Settles O29: the range check is the only one. -/
theorem brInitMakesAReader : Obligations.BrInitMakesAReader :=
  fun _ _ _ => ⟨fun hin => if_neg (not_not.2 hin), fun hout => if_pos hout⟩

/-- The bytes a read stores hold the bits it takes, and zeros behind them (R76). -/
theorem streamBit_writeBytes_readByte {m : Memory} (h : m.wf = true) (base pos t dst : Nat) {n q : Nat} (hq : q < 8 * n) :
    (m.writeBytes dst n (readByte m base pos t)).streamBit dst q = (decide (q < t) && m.streamBit base (pos + q)) := by
  rw [Memory.streamBit, read_writeBytes h, if_pos (by omega), Nat.add_sub_cancel_left,
    getLsbD_readByte _ _ _ _ _ (Nat.mod_lt q (by decide)), Nat.div_add_mod]

/-- What a `BR_READ` whose checks pass does (R76). -/
theorem exec_brRead {s : State} {k dst : Word} (hk : 0 ≤ k.toInt) (hdst : s.inRange dst.toNat (ceil8 k.toNat))
    (hov : ¬ Overlap dst.toNat (ceil8 k.toNat) s.reader.base.toNat (ceil8 s.reader.n.toNat)) (hr : s.ReaderOk)
    (hraced : s.hostRaced = false) :
    exec (.brRead k dst) s =
      .next ({ s with
        dmem := s.dmem.writeBytes dst.toNat (ceil8 k.toNat)
          (readByte s.dmem s.reader.base.toNat s.reader.pos.toNat (min k.toNat (s.reader.n.toNat - s.reader.pos.toNat)))
        reader := s.reader.advance k.toNat
        res := { s.res with r0 := u32 (min k.toNat (s.reader.n.toNat - s.reader.pos.toNat)) } } : State).retire := by
  rw [exec, execBrRead, operandK_of_nonneg hk]
  simp only [if_neg (not_not.2 hdst), if_neg hov, if_neg (not_and_not_right.2 fun _ => hr.2), commit_clean hraced]
  rfl

/-- `OVR` after a read: set where fewer than `k` bits were left (R76). -/
theorem advance_ovr {r : BitReader} (h : r.pos.toNat ≤ r.n.toNat) (k : Nat) :
    (r.advance k).ovr = (r.ovr || decide (r.n.toNat - r.pos.toNat < k)) := by
  simp only [BitReader.advance, Nat.sub_lt_iff_lt_add' h]

/-- Settles O30: the errors by their checks; the effect by `exec_brRead`, bit by bit and byte by byte. -/
theorem brReadTakesBits : Obligations.BrReadTakesBits := by
  intro k dst s
  refine ⟨fun hk => ?_, fun hk hdst => ?_, fun hk hdst hov => ?_, fun hk hdst hov hr hwf hraced => ?_⟩
  · rw [exec, execBrRead, (operandK_none k).2 hk]
    rfl
  · rw [exec, execBrRead, operandK_of_nonneg hk]
    exact if_pos hdst
  · rw [exec, execBrRead, operandK_of_nonneg hk]
    exact (if_neg (not_not.2 hdst)).trans (if_pos hov)
  · exact ⟨_, _, exec_brRead hk hdst hov hr hraced, fun q hq => streamBit_writeBytes_readByte hwf _ _ _ _ hq,
      fun a ha => read_writeBytes_other hwf _ ha, rfl, rfl, advance_ok hr.1 _, advance_ovr hr.1 _⟩

/-- Settles O31: the seek check is the only one; `BR_REMAIN` subtracts the cursor from the length, which it does not exceed. -/
theorem brCursorCommands : Obligations.BrCursorCommands := fun s _ =>
  ⟨fun hpast => if_pos hpast, fun hin => if_neg (not_lt.2 hin),
    fun hr => ⟨s.reader.n - s.reader.pos, BitVec.toNat_sub_of_le hr.1, rfl⟩,
    _, _, toNat_u32_ceil8 _, toNat_u32_min _ _, rfl⟩

/-! The BitWriter (R81 to R85). -/

/-- What a `BW_INIT` whose check passes does (R81). -/
theorem exec_bwInit {s : State} {base capbits : Word} (hin : s.inRange base.toNat (ceil8 capbits.toNat))
    (hraced : s.hostRaced = false) :
    exec (.bwInit base capbits) s =
      .next ({ s with
        dmem := s.dmem.writeBytes base.toNat (ceil8 capbits.toNat) fun _ => 0
        writer := ⟨base, capbits, 0⟩ } : State).retire := by
  simp only [exec, execBwInit, if_neg (not_not.2 hin), commit_clean hraced]

/-- Settles O32: the range check is the only one, and the bytes written are zeros. -/
theorem bwInitMakesAnEmptyWriter : Obligations.BwInitMakesAnEmptyWriter := fun _ _ _ hwf hraced =>
  ⟨fun hin => ⟨_, exec_bwInit hin hraced, read_writeBytes hwf _ _ _⟩, fun hout => if_pos hout⟩

/-- What a `BW_WRITE` whose checks pass does (R82). -/
theorem exec_bwWrite {s : State} {k src srclen : Word} (hk : 0 ≤ k.toInt) (hlen : k.toNat ≤ 8 * srclen.toNat)
    (hsrc : s.inRange src.toNat srclen.toNat) (hcap : s.writer.pos.toNat + k.toNat ≤ s.writer.cap.toNat)
    (hov : ¬ Overlap src.toNat (ceil8 k.toNat) s.writer.base.toNat (ceil8 s.writer.cap.toNat)) (hw : s.WriterOk)
    (hraced : s.hostRaced = false) :
    exec (.bwWrite k src srclen) s =
      .next ({ s with
        dmem := writeBits s.dmem s.writer.base.toNat s.writer.pos.toNat src.toNat k.toNat
        writer := { s.writer with pos := s.writer.pos + k } } : State).retire := by
  rw [exec, execBwWrite, operandK_of_nonneg hk]
  simp only [if_neg (not_lt.2 hlen), if_neg (not_not.2 hsrc), if_neg (not_lt.2 hcap), if_neg hov,
    if_neg (not_and_not_right.2 fun _ => hw.2), commit_clean hraced, BitVec.ofNat_toNat, BitVec.setWidth_eq]

/-- A write of bits within the capacity touches bytes of the writer only. -/
theorem inBytes_of_writeBitsRange {base pos n cap x : Nat} (hcap : pos + n ≤ cap)
    (hx : InBytes x (writeBitsRange base pos n).1 (writeBitsRange base pos n).2) : InBytes x base (ceil8 cap) := by
  rw [inBytes_writeBitsRange] at hx
  unfold ceil8
  omega

/-- A source apart from the writer's bytes has none of its bits among those bytes. -/
theorem not_inBytes_of_not_overlap {a k b n j : Nat} (hov : ¬ Overlap a (ceil8 k) b n) (hj : j < k) : ¬ InBytes (a + j / 8) b n := by
  unfold ceil8 at hov
  omega

section
variable {m : Memory} {base pos src k cap : Nat} (hwf : m.wf = true) (hcap : pos + k ≤ cap)
include hwf hcap

/-- What a write of bits within the capacity leaves in the writer's bits, when the source is apart from the writer's bytes. -/
theorem streamBit_writeBits_of_not_overlap (hov : ¬ Overlap src (ceil8 k) base (ceil8 cap)) (q : Nat) :
    (writeBits m base pos src k).streamBit base q =
      if pos ≤ q ∧ q < pos + k then m.streamBit src (q - pos) else m.streamBit base q :=
  streamBit_writeBits hwf _ _ _ _ (fun _ hj hx => not_inBytes_of_not_overlap hov hj (inBytes_of_writeBitsRange hcap hx)) q

/-- A write of bits within the capacity leaves the bytes that are not the writer's. -/
theorem read_writeBits_outside {a : Nat} (ha : ¬ InBytes a base (ceil8 cap)) : (writeBits m base pos src k).read a = m.read a :=
  read_writeBits_other hwf _ _ _ _ fun hx => ha (inBytes_of_writeBitsRange hcap hx)

end

/-- Settles O33: the errors by their checks; the effect by `exec_bwWrite`, since the source lies outside the writer's bytes and the
bits written inside them. -/
theorem bwWritePutsBits : Obligations.BwWritePutsBits := by
  intro k src srclen s
  refine ⟨fun hk => ?_, fun hk hlen => ?_, fun hk hlen hsrc => ?_, fun hk hlen hsrc hcap => ?_, fun hk hlen hsrc hcap hov => ?_,
    fun hk hlen hsrc hcap hov hw hwf hraced => ?_⟩
  · rw [exec, execBwWrite, (operandK_none k).2 hk]
    rfl
  · rw [exec, execBwWrite, operandK_of_nonneg hk]
    exact if_pos hlen
  · rw [exec, execBwWrite, operandK_of_nonneg hk]
    exact (if_neg (not_lt.2 hlen)).trans (if_pos hsrc)
  · rw [exec, execBwWrite, operandK_of_nonneg hk]
    exact (if_neg (not_lt.2 hlen)).trans ((if_neg (not_not.2 hsrc)).trans (if_pos hcap))
  · rw [exec, execBwWrite, operandK_of_nonneg hk]
    exact (if_neg (not_lt.2 hlen)).trans ((if_neg (not_not.2 hsrc)).trans ((if_neg (not_lt.2 hcap)).trans (if_pos hov)))
  · exact ⟨_, exec_bwWrite hk hlen hsrc hcap hov hw hraced,
      streamBit_writeBits_of_not_overlap hwf hcap hov, fun _ => read_writeBits_outside hwf hcap⟩

/-- Settles O34: `BW_REMAIN` subtracts the cursor from the capacity, which it does not exceed. -/
theorem bwCursorCommands : Obligations.BwCursorCommands := fun s =>
  ⟨rfl, fun hw => ⟨s.writer.cap - s.writer.pos, BitVec.toNat_sub_of_le hw.1, rfl⟩,
    _, _, toNat_u32_ceil8 _, toNat_u32_min _ _, rfl⟩

/-! Chunks written and read back (R87). -/

theorem execAll_cons {i : Instr} {s t : State} (h : exec i s = .next t) (is : List Instr) : execAll (i :: is) s = execAll is t := by
  rw [execAll, h]

theorem execAll_append {is : List Instr} {s t : State} (h : execAll is s = .next t) (js : List Instr) :
    execAll (is ++ js) s = execAll js t := by
  induction is generalizing s with
  | nil =>
    cases h
    rfl
  | cons i is ih =>
    cases hi : exec i s with
    | next u =>
      rw [execAll_cons hi] at h
      exact (execAll_cons hi _).trans (ih h)
    | _ =>
      rw [execAll, hi] at h
      cases h

/-- What the first command establishes of no chunk, and each chunk's command extends to its chunk, holds of all the chunks at the end
of the chain. -/
theorem execAll_chunks {first : Instr} {cmd : Chunk → Instr} {P : List Chunk → State → Prop} {cs : List Chunk} {s : State}
    (hfirst : ∃ t, exec first s = .next t ∧ P [] t)
    (hnext : ∀ ds c u, ds ++ [c] <+: cs → P ds u → ∃ t, exec (cmd c) u = .next t ∧ P (ds ++ [c]) t) :
    ∃ t, execAll (first :: cs.map cmd) s = .next t ∧ P cs t := by
  suffices h : ∀ ds, ds <+: cs → ∃ t, execAll (first :: ds.map cmd) s = .next t ∧ P ds t from h cs List.prefix_rfl
  intro ds hds
  induction ds using List.reverseRecOn with
  | nil =>
    obtain ⟨t, ht, hP⟩ := hfirst
    exact ⟨t, execAll_cons ht [], hP⟩
  | append_singleton ds c ih =>
    obtain ⟨u, hu, hP⟩ := ih ((List.prefix_append ds [c]).trans hds)
    obtain ⟨t, ht, hP'⟩ := hnext ds c u hds hP
    refine ⟨t, ?_, hP'⟩
    rw [List.map_append, ← List.cons_append, execAll_append hu]
    exact execAll_cons ht []

theorem streamIs_append {m : Memory} {base q : Nat} {xs ys : List Bool} :
    StreamIs m base q (xs ++ ys) ↔ StreamIs m base q xs ∧ StreamIs m base (q + xs.length) ys := by
  refine ⟨fun h => ⟨fun j hj => ?_, fun j hj => ?_⟩, fun ⟨hx, hy⟩ j hj => ?_⟩
  · rw [h j (by simp; omega), List.getD_append _ _ _ _ hj]
  · rw [Nat.add_assoc, h _ (by simp; omega), List.getD_append_right _ _ _ _ (by omega), Nat.add_sub_cancel_left]
  · by_cases hlt : j < xs.length
    · rw [hx j hlt, List.getD_append _ _ _ _ hlt]
    · rw [List.length_append] at hj
      rw [List.getD_append_right _ _ _ _ (by omega), ← hy _ (by omega), Nat.add_assoc, Nat.add_sub_cancel' (by omega)]

/-- The bits a chunk is written from, as `m` has them. -/
def Chunk.bits (m : Memory) (c : Chunk) : List Bool := (List.range c.k.toNat).map (m.streamBit c.src.toNat)

@[simp] theorem Chunk.length_bits (m : Memory) (c : Chunk) : (c.bits m).length = c.k.toNat := by simp [Chunk.bits]

theorem Chunk.streamIs_bits {m m' : Memory} {base p : Nat} {c : Chunk} :
    StreamIs m' base p (c.bits m) ↔ ∀ q, q < c.k.toNat → m'.streamBit base (p + q) = m.streamBit c.src.toNat q := by
  rw [StreamIs, Chunk.length_bits]
  refine forall₂_congr fun q hq => ?_
  rw [List.getD_eq_getElem _ _ (by simpa using hq)]
  simp [Chunk.bits]

/-- The bits the chunks are written from, chunk after chunk. -/
def chunkBits (m : Memory) (cs : List Chunk) : List Bool := cs.flatMap (Chunk.bits m)

theorem length_chunkBits (m : Memory) (cs : List Chunk) : (chunkBits m cs).length = (cs.map fun c => c.k.toNat).sum := by
  simp [chunkBits, List.length_flatMap]

theorem chunkBits_prefix (m : Memory) {ds cs : List Chunk} (h : ds <+: cs) : chunkBits m ds <+: chunkBits m cs := h.flatMap _

theorem chunkBits_snoc (m : Memory) (cs : List Chunk) (c : Chunk) : chunkBits m (cs ++ [c]) = chunkBits m cs ++ c.bits m := by
  simp [chunkBits]

theorem streamIs_chunkBits_snoc {m m' : Memory} {base : Nat} {cs : List Chunk} {c : Chunk} :
    StreamIs m' base 0 (chunkBits m (cs ++ [c])) ↔ StreamIs m' base 0 (chunkBits m cs) ∧
      ∀ q, q < c.k.toNat → m'.streamBit base ((chunkBits m cs).length + q) = m.streamBit c.src.toNat q := by
  rw [chunkBits_snoc, streamIs_append, Nat.zero_add, Chunk.streamIs_bits]

/-- The chunk's bits stand at its destination, with zeros behind them. -/
def Chunk.CameBack (m m' : Memory) (c : Chunk) : Prop :=
  ∀ q, q < 8 * ceil8 c.k.toNat → m'.streamBit c.dst.toNat q = (decide (q < c.k.toNat) && m.streamBit c.src.toNat q)

/-- The premises of R87 about one chunk: its source and its destination lie in DMEM outside the bytes of a writer of `cap` bits at
`w`. -/
def Chunk.Placed (s : State) (w cap : Word) (c : Chunk) : Prop :=
  0 ≤ c.k.toInt ∧ s.inRange c.src.toNat (ceil8 c.k.toNat) ∧ s.inRange c.dst.toNat (ceil8 c.k.toNat) ∧
    ¬ Overlap c.src.toNat (ceil8 c.k.toNat) w.toNat (ceil8 cap.toNat) ∧
    ¬ Overlap c.dst.toNat (ceil8 c.k.toNat) w.toNat (ceil8 cap.toNat)

theorem inRange_congr {s u : State} (h : u.params = s.params) {a n : Nat} : u.inRange a n ↔ s.inRange a n := by
  rw [State.inRange, State.inRange, h]

/-- `Written s w cap cs u`: from state `s` the chunks `cs` have been written to the writer of `cap` bits at `w`, after which the state
is `u`. -/
structure Written (s : State) (w cap : Word) (cs : List Chunk) (u : State) : Prop where
  params : u.params = s.params
  clean : u.hostRaced = false
  wf : u.dmem.wf = true
  base_eq : u.writer.base = w
  cap_eq : u.writer.cap = cap
  pos_eq : u.writer.pos.toNat = (chunkBits s.dmem cs).length
  stream : StreamIs u.dmem w.toNat 0 (chunkBits s.dmem cs)
  frame : ∀ a, ¬ InBytes a w.toNat (ceil8 cap.toNat) → u.dmem.read a = s.dmem.read a

/-- `ReadBack s m w cap cs u`: the chunks `cs`, which were written from state `s` and stand in memory `m` as a stream of `cap` bits at
`w`, have been read to their destinations, after which the state is `u`. -/
structure ReadBack (s : State) (m : Memory) (w cap : Word) (cs : List Chunk) (u : State) : Prop where
  params : u.params = s.params
  clean : u.hostRaced = false
  wf : u.dmem.wf = true
  base_eq : u.reader.base = w
  n_eq : u.reader.n = cap
  pos_eq : u.reader.pos.toNat = (chunkBits s.dmem cs).length
  kept : ∀ a, InBytes a w.toNat (ceil8 cap.toNat) → u.dmem.read a = m.read a
  res : ∀ c ∈ cs.getLast?, u.res.r0 = c.k
  cameBack : ∀ c ∈ cs, c.CameBack s.dmem u.dmem

section
variable {s u : State} {w cap : Word} {cs : List Chunk} {c : Chunk}

/-- `BW_INIT` has written no chunk yet. -/
theorem written_nil (hwf : s.dmem.wf = true) (hraced : s.hostRaced = false) (hin : s.inRange w.toNat (ceil8 cap.toNat)) :
    ∃ t, exec (.bwInit w cap) s = .next t ∧ Written s w cap [] t := by
  refine ⟨_, exec_bwInit hin hraced, rfl, hraced, wf_writeBytes hwf _ _ _, rfl, rfl, rfl, ?_, ?_⟩
  · exact fun j hj => absurd hj (Nat.not_lt_zero j)
  · exact fun a ha => read_writeBytes_other hwf _ ha

/-- `BW_WRITE` appends its chunk to those written. -/
theorem Written.snoc (h : Written s w cap cs u) (hin : s.inRange w.toNat (ceil8 cap.toNat)) (hc : c.Placed s w cap)
    (hfit : (chunkBits s.dmem (cs ++ [c])).length ≤ cap.toNat) :
    ∃ t, exec (.bwWrite c.k c.src (u32 (ceil8 c.k.toNat))) u = .next t ∧ Written s w cap (cs ++ [c]) t := by
  obtain ⟨hk, hsrc, -, hov, -⟩ := hc
  obtain ⟨hparams, hclean, hwf, rfl, rfl, hpos, hstream, hframe⟩ := h
  have hlen : (chunkBits s.dmem (cs ++ [c])).length = u.writer.pos.toNat + c.k.toNat := by
    rw [chunkBits_snoc, List.length_append, Chunk.length_bits, hpos]
  have hcap : u.writer.pos.toNat + c.k.toNat ≤ u.writer.cap.toNat := hlen ▸ hfit
  have hput := streamBit_writeBits_of_not_overlap hwf hcap hov
  refine ⟨_, exec_bwWrite hk ?_ ?_ hcap hov ⟨?_, (inRange_congr hparams).2 hin⟩ hclean, ?_⟩
  · rw [toNat_u32_ceil8]
    unfold ceil8
    omega
  · rw [toNat_u32_ceil8]
    exact (inRange_congr hparams).2 hsrc
  · omega
  · refine ⟨hparams, hclean, wf_writeBits hwf _ _ _ _, rfl, rfl, ?_, ?_, ?_⟩
    · rw [hlen, retire_writer, BitVec.toNat_add, Nat.mod_eq_of_lt (hcap.trans_lt u.writer.cap.isLt)]
    · rw [streamIs_chunkBits_snoc, ← hpos]
      refine ⟨fun j hj => ?_, fun q hq => ?_⟩
      · rw [retire_dmem, hput, if_neg (by omega)]
        exact hstream j hj
      · rw [retire_dmem, hput, if_pos (by omega), Nat.add_sub_cancel_left]
        exact streamBit_congr (hframe _ (not_inBytes_of_not_overlap hov hq))
    · exact fun a ha => (read_writeBits_outside hwf hcap ha).trans (hframe a ha)

/-- `BR_INIT` has read no chunk yet. -/
theorem readBack_nil (hparams : u.params = s.params) (hclean : u.hostRaced = false) (hwf : u.dmem.wf = true)
    (hin : s.inRange w.toNat (ceil8 cap.toNat)) : ∃ t, exec (.brInit w cap) u = .next t ∧ ReadBack s u.dmem w cap [] t :=
  ⟨_, if_neg (not_not.2 ((inRange_congr hparams).2 hin)), hparams, hclean, hwf, rfl, rfl, rfl, fun _ _ => rfl, by simp, by simp⟩

/-- A write apart from a chunk's destination leaves the chunk there. -/
theorem Chunk.CameBack.of_read_eq {m m' m'' : Memory} (h : c.CameBack m m')
    (hread : ∀ a, InBytes a c.dst.toNat (ceil8 c.k.toNat) → m''.read a = m'.read a) : c.CameBack m m'' :=
  fun q hq => (streamBit_congr (hread _ (by omega))).trans (h q hq)

/-- `BR_READ` reads the next chunk and leaves those read before it. -/
theorem ReadBack.snoc {m : Memory} (h : ReadBack s m w cap cs u) (hin : s.inRange w.toNat (ceil8 cap.toNat)) (hc : c.Placed s w cap)
    (hfit : (chunkBits s.dmem (cs ++ [c])).length ≤ cap.toNat)
    (hstream : StreamIs m w.toNat 0 (chunkBits s.dmem (cs ++ [c])))
    (hapart : ∀ d ∈ cs, ¬ Overlap d.dst.toNat (ceil8 d.k.toNat) c.dst.toNat (ceil8 c.k.toNat)) :
    ∃ t, exec (.brRead c.k c.dst) u = .next t ∧ ReadBack s m w cap (cs ++ [c]) t := by
  obtain ⟨hk, -, hdst, -, hov⟩ := hc
  obtain ⟨hparams, hclean, hwf, rfl, rfl, hpos, hkept, -, hback⟩ := h
  have hlen : (chunkBits s.dmem (cs ++ [c])).length = u.reader.pos.toNat + c.k.toNat := by
    rw [chunkBits_snoc, List.length_append, Chunk.length_bits, hpos]
  have hn : u.reader.pos.toNat + c.k.toNat ≤ u.reader.n.toNat := hlen ▸ hfit
  have hmin : min c.k.toNat (u.reader.n.toNat - u.reader.pos.toNat) = c.k.toNat := by omega
  have hr : u.ReaderOk := ⟨by omega, (inRange_congr hparams).2 hin⟩
  rw [streamIs_chunkBits_snoc, ← hpos] at hstream
  refine ⟨_, exec_brRead hk ((inRange_congr hparams).2 hdst) hov hr hclean, hparams, hclean,
    wf_writeBytes hwf _ _ _, rfl, rfl, ?_, ?_, ?_, ?_⟩
  · rw [hlen, retire_reader, advance_ok hr.1, Nat.min_eq_left hn]
  · exact fun a ha => (read_writeBytes_other hwf _ (by omega)).trans (hkept a ha)
  · simp [hmin]
  · intro d hd
    rcases List.mem_append.1 hd with hd | hd
    · exact (hback d hd).of_read_eq fun a ha => read_writeBytes_other hwf _ (by have := hapart d hd; omega)
    · obtain rfl := List.mem_singleton.1 hd
      intro q hq
      rw [retire_dmem, streamBit_writeBytes_readByte hwf _ _ _ _ hq, hmin]
      by_cases hqk : q < d.k.toNat
      · rw [← hstream.2 q hqk, streamBit_congr (hkept _ (by unfold ceil8; omega))]
      · simp [hqk]

end

section
variable {s u : State} {w cap : Word} {cs ds : List Chunk} (hin : s.inRange w.toNat (ceil8 cap.toNat))
  (hfit : (chunkBits s.dmem cs).length ≤ cap.toNat) (hplaced : ∀ c ∈ cs, c.Placed s w cap)
include hin hfit hplaced

/-- A chain that writes the chunks has them written. -/
theorem writeChain_written (hwf : s.dmem.wf = true) (hraced : s.hostRaced = false) :
    ∃ t, execAll (writeChain w cap cs) s = .next t ∧ Written s w cap cs t :=
  execAll_chunks (written_nil hwf hraced hin) fun _ c _ hpre h =>
    h.snoc hin (hplaced c (hpre.subset (by simp))) ((chunkBits_prefix _ hpre).length_le.trans hfit)

/-- A chain that reads the first of the chunks written has them read back. -/
theorem readChain_readBack (h : Written s w cap cs u)
    (hapart : cs.Pairwise fun c c' => ¬ Overlap c.dst.toNat (ceil8 c.k.toNat) c'.dst.toNat (ceil8 c'.k.toNat)) (hds : ds <+: cs) :
    ∃ t, execAll (readChain w cap ds) u = .next t ∧ ReadBack s u.dmem w cap ds t := by
  refine execAll_chunks (readBack_nil h.params h.clean h.wf hin) fun es c _ hes hread => ?_
  have hpre : es ++ [c] <+: cs := hes.trans hds
  obtain ⟨rest, hrest⟩ := chunkBits_prefix s.dmem hpre
  obtain ⟨-, -, hcross⟩ := List.pairwise_append.1 (hapart.sublist hpre.sublist)
  exact hread.snoc hin (hplaced c (hpre.subset (by simp))) ((chunkBits_prefix _ hpre).length_le.trans hfit)
    (streamIs_append.1 (hrest ▸ h.stream)).1 fun d hd => hcross d hd c (by simp)

end

/-- Settles O35: the writes leave the chunks' bits one after another in the writer (`Written`), and each read takes its chunk's bits
from there to its destination (`ReadBack`). -/
theorem bitStreamsRoundTrip : Obligations.BitStreamsRoundTrip := by
  intro s w cap cs hs hraced hin hsum hplaced hapart n _
  obtain ⟨-, ⟨hwf, -⟩, -⟩ := hs
  have hfit : (chunkBits s.dmem cs).length ≤ cap.toNat := (length_chunkBits _ _).trans_le hsum
  obtain ⟨u, hu, hwritten⟩ := writeChain_written hin hfit hplaced hwf hraced
  obtain ⟨t, ht, hread⟩ := readChain_readBack hin hfit hplaced hwritten hapart (List.take_prefix n cs)
  exact ⟨t, (execAll_append hu _).trans ht, hread.res, hread.cameBack⟩

end Sys2Proof.Machine

namespace Sys2Proof.Machine

/-! ## The bitmap and the LUT -/

/-! The bits of the bitmap (R89 to R92). -/

/-- What a `BM_CLEAR` does (R89). -/
theorem exec_bmClear (s : State) :
    exec .bmClear s = .next ({ s with bitmap := .leaf 0, valid := { s.valid with bmv := true } } : State).retire := rfl

section
variable {s : State} {v : Word} (hv : v.toNat ≤ 0xFFFF) (hval : s.valid.bmv = true)
include hv hval

/-- What a `BM_SET` whose checks pass does (R90). -/
theorem exec_bmSet : exec (.bmSet v) s = .next ({ s with bitmap := bitmapPut s.bitmap v.toNat true } : State).retire :=
  (if_neg (not_lt.2 hv)).trans (if_neg (ne_false_of_eq_true hval))

/-- What a `BM_UNSET` whose checks pass does (R91). -/
theorem exec_bmUnset : exec (.bmUnset v) s = .next ({ s with bitmap := bitmapPut s.bitmap v.toNat false } : State).retire :=
  (if_neg (not_lt.2 hv)).trans (if_neg (ne_false_of_eq_true hval))

/-- What a `BM_HAS` whose checks pass does (R92). -/
theorem exec_bmHas : exec (.bmHas v) s = .next (s.setRes0 (flagBit (bitmapHas s.bitmap v.toNat) 0)).retire :=
  (if_neg (not_lt.2 hv)).trans (if_neg (ne_false_of_eq_true hval))

end

theorem flagBit_zero (b : Bool) : flagBit b 0 = if b then 1 else 0 := rfl

/-- Settles O36: the value check comes before the check of `VALID.BMV`; the bits by `bitmapHas_bitmapPut`. -/
theorem bmBitCommands : Obligations.BmBitCommands := by
  intro s v
  refine ⟨⟨_, exec_bmClear s, fun i _ => get_leaf 0 bitmapBits i⟩, fun hv => ⟨if_pos hv, if_pos hv, if_pos hv⟩, fun hv hval => ?_,
    fun hv hval => ⟨⟨_, exec_bmSet hv hval, fun u hu => ?_⟩, ⟨_, exec_bmUnset hv hval, fun u hu => ?_⟩, ?_⟩⟩
  · have hv' : ¬ 0xFFFF < v.toNat := not_lt.2 hv
    exact ⟨(if_neg hv').trans (if_pos hval), (if_neg hv').trans (if_pos hval), (if_neg hv').trans (if_pos hval)⟩
  · rw [bitmapHas_bitmapPut _ (Nat.lt_succ_of_le hv) hu, Bool.if_true_left]
  · rw [bitmapHas_bitmapPut _ (Nat.lt_succ_of_le hv) hu, Bool.if_false_left]
  · rw [exec_bmHas hv hval, flagBit_zero]
    rfl

/-! The scan (R93). -/

/-- The check of a buffer at an odd address, as `BM_SCAN` and `LUT_APPLY` make it on their operands (R43). -/
theorem checkSamples_odd (s : State) {base : Word} (hodd : base.toNat % 2 ≠ 0) (count : Nat) :
    checkSamples s base.toNat count = some (.pAlign, base) := by
  simp [checkSamples, hodd]

/-- The check of a buffer that is not inside DMEM (R44). -/
theorem checkSamples_outside {s : State} {base : Word} {count : Nat} (heven : base.toNat % 2 = 0)
    (hout : ¬ s.inRange base.toNat (2 * count)) : checkSamples s base.toNat count = some (.pRange, base) := by
  simp [checkSamples, heven, hout]

/-- What a `BM_SCAN` whose checks pass does (R93). -/
theorem exec_bmScan {s : State} {base count : Word} (heven : base.toNat % 2 = 0) (hin : s.inRange base.toNat (2 * count.toNat))
    (hval : s.valid.bmv = true) :
    exec (.bmScan base count) s =
      .next ({ s with bitmap := bitmapScan s.dmem base.toNat count.toNat s.bitmap } : State).retire := by
  rw [exec, execBmScan, (checkSamples_none _ _ _).2 ⟨heven, hin⟩]
  exact if_neg (ne_false_of_eq_true hval)

/-- A scan adds exactly the values of the samples (R93). -/
theorem bitmapHas_bitmapScan_iff (m : Memory) (base count : Nat) (bm : BitmapRam) {u : Nat} (hu : u < 65536) :
    bitmapHas (bitmapScan m base count bm) u = true ↔
      bitmapHas bm u = true ∨ ∃ i, i < count ∧ (m.sample (base + 2 * i)).toNat = u := by
  simp only [bitmapHas_bitmapScan m base count bm hu, Bool.or_eq_true, List.any_eq_true, List.mem_range, beq_iff_eq]

/-- Settles O37: the checks of the buffer come before the check of `VALID.BMV`; the bits by `bitmapHas_bitmapScan_iff`. -/
theorem bmScanSetsObservedValues : Obligations.BmScanSetsObservedValues := by
  intro s base count
  refine ⟨fun hodd => ?_, fun heven hout => ?_, fun heven hin hval => ?_, fun heven hin hval =>
    ⟨_, exec_bmScan heven hin hval, fun u hu => bitmapHas_bitmapScan_iff _ _ _ _ hu⟩⟩
  · rw [exec, execBmScan, checkSamples_odd s hodd]
    rfl
  · rw [exec, execBmScan, checkSamples_outside heven hout]
    rfl
  · rw [exec, execBmScan, (checkSamples_none _ _ _).2 ⟨heven, hin⟩]
    exact if_pos hval

/-! The bounds (R94). -/

/-- What a `BM_BOUNDS` of a valid bitmap does (R94). -/
theorem exec_bmBounds {s : State} (hval : s.valid.bmv = true) {lo hi e : Nat} (hb : bitmapBounds s.bitmap = (lo, hi, e)) :
    exec .bmBounds s = .next ({ s with res := ⟨u32 lo, u32 hi, u32 e, s.res.r3⟩ } : State).retire := by
  rw [exec, execBmBounds, hb]
  exact if_neg (ne_false_of_eq_true hval)

/-- A bitmap of zero bytes has no bounds (R94). -/
theorem bitmapBounds_of_zero {bm : BitmapRam} (h : ∀ i, i < 8192 → bitmapByte bm i = 0) : bitmapBounds bm = (0, 0, 1) := by
  have hnil : nonzeroBytes bm = [] := List.eq_nil_iff_forall_not_mem.2 fun i hi =>
    ((mem_nonzeroBytes bm i).1 hi).2 (h i ((mem_nonzeroBytes bm i).1 hi).1)
  rw [bitmapBounds, hnil]
  rfl

/-- The bounds of a bitmap that has a non-zero byte are the first and the last of its non-zero bytes (R94). -/
theorem bitmapBounds_of_nonzero {bm : BitmapRam} (h : ∃ i, i < 8192 ∧ bitmapByte bm i ≠ 0) :
    ∃ lo ∈ nonzeroBytes bm, ∃ hi ∈ nonzeroBytes bm,
      (∀ i ∈ nonzeroBytes bm, lo ≤ i ∧ i ≤ hi) ∧ bitmapBounds bm = (lo, hi, 0) := by
  obtain ⟨i, hi⟩ := h
  have hne : nonzeroBytes bm ≠ [] := List.ne_nil_of_mem ((mem_nonzeroBytes bm i).2 hi)
  have hsorted : (nonzeroBytes bm).Pairwise (· ≤ ·) := (nonzeroBytes_sorted bm).imp Nat.le_of_lt
  refine ⟨_, List.head_mem hne, _, List.getLast_mem hne, fun j hj => ⟨hsorted.rel_head hj, hsorted.rel_getLast hj⟩, ?_⟩
  rw [bitmapBounds, List.head?_eq_some_head hne, List.getLast?_eq_some_getLast hne]

/-- Settles O38: the non-zero bytes are listed ascending, so their bounds are the list's ends. -/
theorem bmBoundsFindsTheEnds : Obligations.BmBoundsFindsTheEnds := by
  refine fun s => ⟨fun hval => if_pos hval, fun hval hzero => exec_bmBounds hval (bitmapBounds_of_zero hzero), fun hval hnz => ?_⟩
  obtain ⟨lo, hlo, hi, hhi, hends, hb⟩ := bitmapBounds_of_nonzero hnz
  simp only [mem_nonzeroBytes] at hlo hhi hends
  exact ⟨lo, hi, hlo.1, hhi.1, hlo.2, hhi.2, fun i hi8 hne => hends i ⟨hi8, hne⟩, exec_bmBounds hval hb⟩

/-! The slices (R95, R96). -/

/-- A slice that is ascending and ends inside the bitmap passes the check of its bounds. -/
theorem slice_passes {lo hi : Nat} (hle : lo ≤ hi) (hhi : hi ≤ 8191) : ¬ (hi < lo ∨ 8191 < hi) := by omega

/-- What a `BM_LOAD` whose checks pass does (R95). -/
theorem exec_bmLoad {s : State} {src lo hi : Word} (hle : lo.toNat ≤ hi.toNat) (hhi : hi.toNat ≤ 8191)
    (hin : s.inRange src.toNat (hi.toNat - lo.toNat + 1)) :
    exec (.bmLoad src lo hi) s =
      .next ({ s with
        bitmap := bitmapLoad s.dmem src.toNat lo.toNat (hi.toNat - lo.toNat + 1)
        valid := { s.valid with bmv := true }
        res := { s.res with r0 := u32 (hi.toNat - lo.toNat + 1) } } : State).retire :=
  (if_neg (slice_passes hle hhi)).trans (if_neg (not_not.2 hin))

/-- Settles O39: the check of the bounds comes before the range check; the bytes by `bitmapByte_bitmapLoad`. -/
theorem bmLoadCopiesTheSlice : Obligations.BmLoadCopiesTheSlice := by
  intro s src lo hi
  refine ⟨fun hbad => if_pos hbad, fun hle hhi hout => (if_neg (slice_passes hle hhi)).trans (if_pos hout), fun hle hhi hin =>
    ⟨_, exec_bmLoad hle hhi hin, fun i hi8 => ?_⟩⟩
  rw [bitmapByte_bitmapLoad _ _ _ _ (by omega) hi8]
  exact if_congr (by omega) rfl rfl

/-- What a `BM_STORE` whose checks pass does (R96). -/
theorem exec_bmStore {s : State} {dst lo hi : Word} (hle : lo.toNat ≤ hi.toNat) (hhi : hi.toNat ≤ 8191)
    (hin : s.inRange dst.toNat (hi.toNat - lo.toNat + 1)) (hval : s.valid.bmv = true) (hraced : s.hostRaced = false) :
    exec (.bmStore dst lo hi) s =
      .next ({ s with
        dmem := s.dmem.writeBytes dst.toNat (hi.toNat - lo.toNat + 1) fun i => bitmapByte s.bitmap (lo.toNat + i)
        res := { s.res with r0 := u32 (hi.toNat - lo.toNat + 1) } } : State).retire := by
  simp only [exec, execBmStore, if_neg (slice_passes hle hhi), if_neg (not_not.2 hin), if_neg (ne_false_of_eq_true hval),
    commit_clean hraced]
  rfl

/-- Settles O40: the checks by their order; the bytes by `read_writeBytes`. -/
theorem bmStoreCopiesTheSlice : Obligations.BmStoreCopiesTheSlice := by
  intro s dst lo hi
  refine ⟨fun hbad => if_pos hbad, fun hle hhi hout => ?_, fun hle hhi hin hval => ?_, fun hle hhi hin hval hwf hraced =>
    ⟨_, exec_bmStore hle hhi hin hval hraced, fun a => read_writeBytes hwf _ _ _ a⟩⟩
  · exact (if_neg (slice_passes hle hhi)).trans (if_pos hout)
  · exact (if_neg (slice_passes hle hhi)).trans ((if_neg (not_not.2 hin)).trans (if_pos hval))

/-! Ranks (R97, R98). -/

/-- The rank of a value is the number of live values below it. -/
theorem rank_eq_length (bm : BitmapRam) (v : Nat) : rank bm v = ((List.range v).filter (live bm)).length :=
  List.countP_eq_length_filter

/-- The number of live values (R97, R98). -/
theorem length_liveValues (bm : BitmapRam) : (liveValues bm).length = rank bm 65536 := by
  rw [liveValues_eq_filter, rank_eq_length]

theorem rank_le (bm : BitmapRam) : rank bm 65536 ≤ 65536 := length_liveValues bm ▸ liveValues_length_le bm

theorem rank_mono (bm : BitmapRam) {u v : Nat} (h : u ≤ v) : rank bm u ≤ rank bm v :=
  (List.range_sublist.2 h).countP_le

theorem rank_succ_of_live {bm : BitmapRam} {v : Nat} (hv : live bm v = true) : rank bm (v + 1) = rank bm v + 1 := by
  simp [rank, List.range_succ, hv]

/-- A live value has a lower rank than every value above it has. -/
theorem rank_lt_rank {bm : BitmapRam} {u v : Nat} (hu : live bm u = true) (huv : u < v) : rank bm u < rank bm v := by
  have hle : rank bm (u + 1) ≤ rank bm v := rank_mono bm huv
  rwa [rank_succ_of_live hu] at hle

/-- A live value stands among the live values at the place that is its rank. -/
theorem liveValues_getElem?_rank {bm : BitmapRam} {v : Nat} (hv : v < 65536) (hl : live bm v = true) :
    (liveValues bm)[rank bm v]? = some v := by
  obtain ⟨n, hn⟩ := Nat.exists_eq_add_of_lt hv
  rw [liveValues_eq_filter, hn, Nat.add_assoc, List.range_add, List.range_succ_eq_map, List.map_cons, Nat.add_zero, List.filter_append,
    rank_eq_length, List.getElem?_append_right (Nat.le_refl _), Nat.sub_self, List.filter_cons_of_pos hl]
  rfl

/-! The LUT's commands (R97, R98). -/

/-- The entry of a value in the forward LUT (R97). -/
theorem toNat_lutForward (bm : BitmapRam) {v : Nat} (hv : v < 65536) :
    ((lutForward bm).get lutBits v).toNat = if live bm v then rank bm v else 0 := by
  cases hl : live bm v with
  | false => rw [lutForward_absent bm hv hl]; rfl
  | true =>
    obtain ⟨hk, hget⟩ := List.getElem?_eq_some_iff.1 (liveValues_getElem?_rank hv hl)
    have hentry := lutForward_live bm _ hk
    rw [hget] at hentry
    rw [hentry, BitVec.toNat_ofNat, Nat.mod_eq_of_lt ((rank_lt_rank hl hv).trans_le (rank_le bm)), if_pos rfl]

/-- The entry of a live value's rank in the reverse LUT (R98). -/
theorem toNat_lutReverse_rank {bm : BitmapRam} {v : Nat} (hv : v < 65536) (hl : live bm v = true) :
    ((lutReverse bm).get lutBits (rank bm v)).toNat = v := by
  obtain ⟨hk, hget⟩ := List.getElem?_eq_some_iff.1 (liveValues_getElem?_rank hv hl)
  rw [lutReverse_rank bm _ hk, hget, BitVec.toNat_ofNat, Nat.mod_eq_of_lt hv]

/-- `LUTMAX` holds the number of live values minus 1 (R27, R97, R98). -/
theorem toNat_lutMaximum (bm : BitmapRam) : (BitVec.ofNat 16 (lutMaximum bm) : Sample).toNat = rank bm 65536 - 1 := by
  have := rank_le bm
  rw [BitVec.toNat_ofNat, lutMaximum, length_liveValues]
  omega

/-- `RES0` of `LUT_FWD` and `LUT_REV` is `LUTMAX` (R97, R98). -/
theorem u32_lutMaximum (bm : BitmapRam) : u32 (lutMaximum bm) = (BitVec.ofNat 16 (lutMaximum bm) : Sample).setWidth 32 := by
  apply BitVec.eq_of_toNat_eq
  rw [BitVec.toNat_setWidth, toNat_lutMaximum, BitVec.toNat_ofNat, lutMaximum, length_liveValues]

/-- What `LUT_FWD` and `LUT_REV` write, with `RES0` as the value of `LUTMAX`. -/
theorem setLut_eq (s : State) (t : LutRam) (kind : Bool) :
    s.setLut t kind =
      { s with
        lut := t
        lutMax := BitVec.ofNat 16 (lutMaximum s.bitmap)
        valid := { s.valid with lutv := true, lutk := kind }
        res := { s.res with r0 := (BitVec.ofNat 16 (lutMaximum s.bitmap) : Sample).setWidth 32 } } := by
  rw [State.setLut, u32_lutMaximum]
  rfl

section
variable {s : State} (hval : s.valid.bmv = true)
include hval

/-- What a `LUT_FWD` whose check passes does (R97). -/
theorem exec_lutFwd : exec .lutFwd s = .next (s.setLut (lutForward s.bitmap) false).retire := if_neg (ne_false_of_eq_true hval)

/-- What a `LUT_REV` whose check passes does (R98). -/
theorem exec_lutRev : exec .lutRev s = .next (s.setLut (lutReverse s.bitmap) true).retire := if_neg (ne_false_of_eq_true hval)

end

/-- Settles O41: the entries by `toNat_lutForward`. -/
theorem lutFwdRanksLiveValues : Obligations.LutFwdRanksLiveValues := fun s =>
  ⟨fun hval => if_pos hval, fun hval =>
    ⟨_, _, toNat_lutMaximum s.bitmap, (exec_lutFwd hval).trans (by rw [setLut_eq]), fun _ hv => toNat_lutForward s.bitmap hv⟩⟩

/-- Settles O42: the entries of the ranks by `toNat_lutReverse_rank`, those past the last rank by `lutReverse_past`. -/
theorem lutRevListsLiveValues : Obligations.LutRevListsLiveValues := fun s =>
  ⟨fun hval => if_pos hval, fun hval =>
    ⟨_, _, toNat_lutMaximum s.bitmap, (exec_lutRev hval).trans (by rw [setLut_eq]), fun _ => toNat_lutReverse_rank,
      fun _ hj => lutReverse_past s.bitmap ((length_liveValues _).trans_le hj)⟩⟩

/-! The laws of the bitmap and the LUT (R101). -/

/-- The values of a buffer but 0: the bitmap of `BM_CLEAR; BM_SCAN; BM_UNSET 0` (R101). -/
def observedBitmap (m : Memory) (base count : Nat) : BitmapRam := bitmapPut (bitmapScan m base count (.leaf 0)) 0 false

theorem bitmapHas_observedBitmap (m : Memory) (base count : Nat) {v : Nat} (hv : v < 65536) :
    bitmapHas (observedBitmap m base count) v = true ↔ v ≠ 0 ∧ ∃ i, i < count ∧ (m.sample (base + 2 * i)).toNat = v := by
  have hempty : bitmapHas (.leaf 0) v = false := BitVec.getLsbD_zero
  rw [observedBitmap, bitmapHas_bitmapPut _ (by decide) hv]
  by_cases h0 : v = 0
  · simp [h0]
  · rw [if_neg h0, bitmapHas_bitmapScan_iff _ _ _ _ hv, hempty]
    simp [h0]

/-- The chain of R101 before its LUT command makes the bitmap of the buffer's values but 0. -/
theorem execAll_observe {s : State} {base count : Word} (heven : base.toNat % 2 = 0)
    (hin : s.inRange base.toNat (2 * count.toNat)) :
    ∃ t, execAll [.bmClear, .bmScan base count, .bmUnset 0] s = .next t ∧ t.valid.bmv = true ∧
      t.bitmap = observedBitmap s.dmem base.toNat count.toNat := by
  refine ⟨_, (execAll_cons (exec_bmClear s) _).trans ((execAll_cons (exec_bmScan heven ?_ ?_) _).trans
    (execAll_cons (exec_bmUnset ?_ ?_) [])), ?_, ?_⟩
  exacts [hin, rfl, by decide, rfl, rfl, rfl]

/-- The reverse LUT undoes the forward LUT on the live values (R101). -/
theorem lutReverse_lutForward {bm : BitmapRam} {v : Nat} (hv : v < 65536) (hl : live bm v = true) :
    ((lutReverse bm).get lutBits ((lutForward bm).get lutBits v).toNat).toNat = v := by
  rw [toNat_lutForward bm hv, if_pos hl, toNat_lutReverse_rank hv hl]

/-- The forward LUT is strictly rising on the live values (R101). -/
theorem lutForward_lt {bm : BitmapRam} {u v : Nat} (huv : u < v) (hv : v < 65536) (hlu : live bm u = true) (hlv : live bm v = true) :
    ((lutForward bm).get lutBits u).toNat < ((lutForward bm).get lutBits v).toNat := by
  rw [toNat_lutForward bm (huv.trans hv), toNat_lutForward bm hv, if_pos hlu, if_pos hlv]
  exact rank_lt_rank hlu huv

/-- No entry of the forward LUT is above `LUTMAX` (R101). -/
theorem lutForward_le (bm : BitmapRam) {v : Nat} (hv : v < 65536) :
    ((lutForward bm).get lutBits v).toNat ≤ (BitVec.ofNat 16 (lutMaximum bm) : Sample).toNat := by
  rw [toNat_lutForward bm hv, toNat_lutMaximum]
  split
  · exact Nat.le_sub_one_of_lt (rank_lt_rank ‹_› hv)
  · exact Nat.zero_le _

/-- Settles O43: the bitmap of the chain by `bitmapHas_observedBitmap`; the laws hold of the LUTs of every bitmap. -/
theorem bitmapAndLutLaws : Obligations.BitmapAndLutLaws := by
  intro s base count heven hin
  obtain ⟨t, ht, hval, hbm⟩ := execAll_observe heven hin
  exact ⟨t, _, _, ht, exec_lutFwd hval, exec_lutRev hval, fun v hv => hbm ▸ bitmapHas_observedBitmap s.dmem _ _ hv,
    fun _ => lutReverse_lutForward, fun _ _ => lutForward_lt, fun _ => lutForward_le t.bitmap, rfl⟩

/-! Applying and reading the LUT (R99, R100). -/

/-- What a `LUT_APPLY` whose checks pass does (R99). -/
theorem exec_lutApply {s : State} {base count : Word} (heven : base.toNat % 2 = 0) (hin : s.inRange base.toNat (2 * count.toNat))
    (hval : s.valid.lutv = true) (hraced : s.hostRaced = false) :
    exec (.lutApply base count) s = .next ({ s with dmem := lutApply s.lut base.toNat count.toNat s.dmem } : State).retire := by
  rw [exec, execLutApply, (checkSamples_none _ _ _).2 ⟨heven, hin⟩, ← commit_clean hraced]
  exact if_neg (ne_false_of_eq_true hval)

/-- What a `LUT_READ` whose checks pass does (R100). -/
theorem exec_lutRead {s : State} {i : Word} (hi : i.toNat ≤ 0xFFFF) (hval : s.valid.lutv = true) :
    exec (.lutRead i) s = .next (s.setRes0 ((s.lut.get lutBits i.toNat).setWidth 32)).retire :=
  (if_neg (not_lt.2 hi)).trans (if_neg (ne_false_of_eq_true hval))

/-- Settles O44: the checks by their order; the samples by `sample_lutApply`, the other bytes by `read_lutApply_other`. -/
theorem lutApplyAndRead : Obligations.LutApplyAndRead := by
  refine ⟨fun s base count => ⟨fun hodd => ?_, fun heven hout => ?_, fun heven hin hval => ?_, fun heven hin hval hwf hraced => ?_⟩,
    fun s i => ⟨fun hi => if_pos hi, fun hi hval => (if_neg (not_lt.2 hi)).trans (if_pos hval), fun hi hval => ?_⟩⟩
  · rw [exec, execLutApply, checkSamples_odd s hodd]
    rfl
  · rw [exec, execLutApply, checkSamples_outside heven hout]
    rfl
  · rw [exec, execLutApply, (checkSamples_none _ _ _).2 ⟨heven, hin⟩]
    exact if_pos hval
  · exact ⟨_, exec_lutApply heven hin hval hraced, fun i hi => sample_lutApply _ _ _ hwf hi,
      fun a ha => read_lutApply_other _ _ _ hwf ha⟩
  · exact ⟨_, BitVec.toNat_setWidth_of_le (by decide), exec_lutRead hi hval⟩

end Sys2Proof.Machine

namespace Sys2Proof.Machine

/-! ## The Huffman decoder -/

/-! `HUF_DECODE` and its checks (R106, R107). -/

theorem u32_toNat (w : Word) : u32 w.toNat = w := by simp

/-- Settles O45: the checks by their order. -/
theorem hufProgrammerChecks : Obligations.HufProgrammerChecks := fun _ _ _ _ _ =>
  ⟨fun hodd => if_pos hodd,
    fun heven hsrc => (if_neg (not_not.2 heven)).trans (if_pos hsrc),
    fun heven hsrc hdst => (if_neg (not_not.2 heven)).trans ((if_neg (not_not.2 hsrc)).trans (if_pos hdst)),
    fun heven hsrc hdst hov => (if_neg (not_not.2 heven)).trans ((if_neg (not_not.2 hsrc)).trans
      ((if_neg (not_not.2 hdst)).trans (if_pos hov)))⟩

section
variable {s : State} {src len dst nout : Word} (hc : HufChecked s src len dst nout)
include hc

/-- What a `HUF_DECODE` whose programmer checks pass does when its block decodes (R113). -/
theorem exec_hufDecode_ok {b : HufBlock} (hb : hufDecodeBlock s.dmem src.toNat len.toNat nout.toNat = .ok b) :
    exec (.hufDecode src len dst nout) s = .next (s.hufDone dst.toNat nout.toNat b).retire := by
  obtain ⟨heven, hsrc, hdst, hov⟩ := hc
  simp only [exec, execHufDecode, if_neg (not_not.2 heven), if_neg (not_not.2 hsrc), if_neg (not_not.2 hdst), if_neg hov, hb]

/-- What a `HUF_DECODE` whose programmer checks pass does when a phase raises (R114). -/
theorem exec_hufDecode_error {e : ErrCode} {info : Word}
    (hb : hufDecodeBlock s.dmem src.toNat len.toNat nout.toNat = .error (e, info)) :
    exec (.hufDecode src len dst nout) s = .next (s.hufFail dst.toNat nout.toNat e info) := by
  obtain ⟨heven, hsrc, hdst, hov⟩ := hc
  simp only [exec, execHufDecode, if_neg (not_not.2 heven), if_neg (not_not.2 hsrc), if_neg (not_not.2 hdst), if_neg hov, hb]

/-- An error of a phase is the command's error (R106). -/
theorem exec_hufDecode_raises :
    ∃ t, exec (.hufDecode src len dst nout) s = .next t ∧
      ∀ e info, hufDecodeBlock s.dmem src.toNat len.toNat nout.toNat = .error (e, info) →
        t.seq = .error e.cls ∧ t.err = ⟨some e, info, s.cp⟩ := by
  cases hb : hufDecodeBlock s.dmem src.toNat len.toNat nout.toNat with
  | ok b => exact ⟨_, exec_hufDecode_ok hc hb, fun _ _ h => nomatch h⟩
  | error r =>
    refine ⟨_, exec_hufDecode_error hc hb, fun e info h => ?_⟩
    cases h
    exact ⟨rfl, rfl⟩

end

/-! The phases of a decode (R106). -/

section
variable {m : Memory} {src len nout : Nat} {h : HufHeader} {ls : List (Nat × Nat)} {t : DecRam} {o : HufOut} {r : Raise}

theorem hufDecodeBlock_of_header_error (hh : hufHeader m src len = .error r) : hufDecodeBlock m src len nout = .error r := by
  rw [hufDecodeBlock, hh]

theorem hufDecodeBlock_of_unpack_error (hh : hufHeader m src len = .ok h) (hu : hufUnpack m src h = .error r) :
    hufDecodeBlock m src len nout = .error r := by
  simp only [hufDecodeBlock, hh, hu]

theorem hufDecodeBlock_of_build_error (hh : hufHeader m src len = .ok h) (hu : hufUnpack m src h = .ok ls)
    (hb : hufBuild (hufPacks ls) ls (.leaf .empty) = .error r) : hufDecodeBlock m src len nout = .error r := by
  simp only [hufDecodeBlock, hh, hu, hb]

end

/-! A phase raises format errors only (R127, R128). -/

/-- An error of the phase `x` is a format error. -/
structure RaisesFormat {α : Type} (x : Checked α) : Prop where
  cls_of_error : ∀ r, x = .error r → r.1.cls = .format

section
variable {α β : Type}

theorem raisesFormat_ok (a : α) : RaisesFormat (.ok a) := ⟨fun _ h => nomatch h⟩

theorem raisesFormat_error {e : ErrCode} (he : e.cls = .format) (info : Word) : RaisesFormat (.error (e, info) : Checked α) where
  cls_of_error
  | _, rfl => he

/-- A phase that hands on the error of an earlier one. -/
theorem RaisesFormat.rethrow {x : Checked α} (hx : RaisesFormat x) {r : Raise} (h : x = .error r) :
    RaisesFormat (.error r : Checked β) where
  cls_of_error
  | _, rfl => hx.cls_of_error r h

/-- A check of a phase, before the rest of it. -/
theorem raisesFormat_check {c : Prop} [Decidable c] {e : ErrCode} (he : e.cls = .format) {info : Word} {x : Checked α}
    (hx : RaisesFormat x) : RaisesFormat (if c then .error (e, info) else x) :=
  iteInduction (motive := RaisesFormat) (fun _ => raisesFormat_error he info) fun _ => hx

end

theorem raisesFormat_hufHeader (m : Memory) (src len : Nat) : RaisesFormat (hufHeader m src len) :=
  raisesFormat_check rfl (raisesFormat_check rfl (raisesFormat_check rfl (raisesFormat_check rfl (raisesFormat_ok _))))

theorem raisesFormat_hufTableGet (m : Memory) (tb tbits q n : Nat) : RaisesFormat (hufTableGet m tb tbits q n) :=
  raisesFormat_check rfl (raisesFormat_ok _)

theorem raisesFormat_hufSkipRun (dMax im run : Nat) : RaisesFormat (hufSkipRun dMax im run) :=
  raisesFormat_check rfl (raisesFormat_ok _)

theorem raisesFormat_hufTableItem (m : Memory) (tb tbits dMax im q : Nat) : RaisesFormat (hufTableItem m tb tbits dMax im q) := by
  unfold hufTableItem
  split
  · exact (raisesFormat_hufTableGet ..).rethrow ‹_›
  · split
    · split
      · exact (raisesFormat_hufTableGet ..).rethrow ‹_›
      · split
        · exact (raisesFormat_hufSkipRun ..).rethrow ‹_›
        · exact raisesFormat_ok _
    · split
      · split
        · exact (raisesFormat_hufSkipRun ..).rethrow ‹_›
        · exact raisesFormat_ok _
      · exact raisesFormat_ok _

theorem raisesFormat_hufLengths (m : Memory) (tb tbits dMax fuel im q : Nat) :
    RaisesFormat (hufLengths m tb tbits dMax fuel im q) := by
  induction fuel generalizing im q with
  | zero => exact raisesFormat_ok _
  | succ fuel ih =>
    unfold hufLengths
    split
    · exact raisesFormat_ok _
    · split
      · exact (raisesFormat_hufTableItem ..).rethrow ‹_›
      · split
        · exact (ih ..).rethrow ‹_›
        · exact raisesFormat_ok _

theorem raisesFormat_hufUnpack (m : Memory) (src : Nat) (h : HufHeader) : RaisesFormat (hufUnpack m src h) := by
  unfold hufUnpack
  split
  · exact (raisesFormat_hufLengths ..).rethrow ‹_›
  · exact raisesFormat_check rfl (raisesFormat_ok _)

theorem raisesFormat_hufEnter (t : DecRam) (s c l : Nat) : RaisesFormat (hufEnter t s c l) := by
  refine raisesFormat_check rfl (iteInduction (motive := RaisesFormat) (fun _ => ?_) fun _ => ?_)
  · exact iteInduction (motive := RaisesFormat) (fun _ => raisesFormat_ok _) fun _ => raisesFormat_error rfl _
  · simp only
    split
    · exact raisesFormat_error rfl _
    · exact raisesFormat_ok _
    · exact raisesFormat_ok _

theorem raisesFormat_hufBuild (packs : PackRam) (ls : List (Nat × Nat)) (t : DecRam) : RaisesFormat (hufBuild packs ls t) := by
  induction ls generalizing t with
  | nil => exact raisesFormat_ok _
  | cons sl ls ih =>
    unfold hufBuild
    split
    · exact (raisesFormat_hufEnter ..).rethrow ‹_›
    · exact ih _

theorem raisesFormat_hufSymbol (m : Memory) (pb pbits : Nat) (packs : PackRam) (t : DecRam) (p : Nat) :
    RaisesFormat (hufSymbol m pb pbits packs t p) := by
  unfold hufSymbol
  split
  · exact raisesFormat_error rfl _
  · exact raisesFormat_check rfl (raisesFormat_ok _)
  · split
    · exact raisesFormat_error rfl _
    · exact raisesFormat_ok _

theorem raisesFormat_hufItem (m : Memory) (pb pbits dMax nout s p : Nat) (o : HufOut) :
    RaisesFormat (hufItem m pb pbits dMax nout s p o) := by
  refine iteInduction (motive := RaisesFormat) (fun _ => raisesFormat_check rfl ?_) fun _ =>
    raisesFormat_check rfl (raisesFormat_ok _)
  simp only
  split
  · exact raisesFormat_error rfl _
  · exact raisesFormat_check rfl (raisesFormat_ok _)

theorem raisesFormat_hufPayload (m : Memory) (pb pbits dMax nout : Nat) (packs : PackRam) (t : DecRam) (fuel p : Nat) (o : HufOut) :
    RaisesFormat (hufPayload m pb pbits dMax nout packs t fuel p o) := by
  induction fuel generalizing p o with
  | zero => exact raisesFormat_ok _
  | succ fuel ih =>
    unfold hufPayload
    split
    · exact raisesFormat_ok _
    · split
      · exact (raisesFormat_hufSymbol ..).rethrow ‹_›
      · split
        · exact (raisesFormat_hufItem ..).rethrow ‹_›
        · exact ih ..

theorem raisesFormat_hufDecodeBlock (m : Memory) (src len nout : Nat) : RaisesFormat (hufDecodeBlock m src len nout) := by
  unfold hufDecodeBlock
  split
  · exact (raisesFormat_hufHeader ..).rethrow ‹_›
  · split
    · exact (raisesFormat_hufUnpack ..).rethrow ‹_›
    · simp only
      split
      · exact (raisesFormat_hufBuild ..).rethrow ‹_›
      · split
        · exact (raisesFormat_hufPayload ..).rethrow ‹_›
        · exact raisesFormat_check rfl (raisesFormat_ok _)

/-- Settles O47: after the programmer checks the command completes, which leaves the chain running, or ends in `State.hufFail`, whose
free values stand in the destination only. -/
theorem hufFailureIsContained : Obligations.HufFailureIsContained := by
  intro s t src len dst nout c hc hwf hrun hexec hseq
  cases hb : hufDecodeBlock s.dmem src.toNat len.toNat nout.toNat with
  | ok b =>
    cases (exec_hufDecode_ok hc hb).symm.trans hexec
    simp [hrun] at hseq
  | error r =>
    cases (exec_hufDecode_error hc hb).symm.trans hexec
    have hfmt : r.1.cls = .format := (raisesFormat_hufDecodeBlock ..).cls_of_error r hb
    refine ⟨?_, rfl, rfl, ⟨r.1, r.2, rfl, hfmt⟩, fun a ha => ?_⟩
    · rw [hufFail_seq, hfmt] at hseq
      exact (Seq.error.inj hseq).symm
    · rw [hufFail_dmem, read_freeRange hwf, if_neg ha]

/-! The header (R102, R108). -/

/-- A framed block passes the checks of R108. -/
theorem hufHeader_of_framed {m : Memory} {src len : Nat} {h : HufHeader} (hf : HufFramed m src len h) :
    hufHeader m src len = .ok h := by
  obtain ⟨hlen, rfl, hle, hmax, htable, hbits⟩ := hf
  exact (if_neg (not_lt.2 hlen)).trans ((if_neg (not_or.2 ⟨not_lt.2 hle, not_lt.2 hmax⟩)).trans
    ((if_neg (not_lt.2 htable)).trans (if_neg (not_lt.2 hbits))))

/-- A header that passes the checks holds the block's words. -/
theorem hufHeader_words {m : Memory} {src len : Nat} {h : HufHeader} (hh : hufHeader m src len = .ok h) :
    h = ⟨m.readLE src 4, m.readLE (src + 4) 4, m.readLE (src + 8) 4, m.readLE (src + 12) 4⟩ := by
  unfold hufHeader at hh
  simp only at hh
  split at hh
  · cases hh
  · split at hh
    · cases hh
    · split at hh
      · cases hh
      · split at hh
        · cases hh
        · cases hh
          rfl

theorem hufDecodeBlock_header {m : Memory} {src len nout : Nat} {b : HufBlock} (h : hufDecodeBlock m src len nout = .ok b) :
    hufHeader m src len = .ok b.header := by
  unfold hufDecodeBlock at h
  split at h
  · cases h
  · rename_i hh
    split at h
    · cases h
    · simp only at h
      split at h
      · cases h
      · split at h
        · cases h
        · split at h
          · cases h
          · cases h
            exact hh

/-- Settles O48: the samples by `sample_writeSamples`, of which there are `nout` by `hufDecodeBlock_length`. -/
theorem hufSuccessWritesTheSamples : Obligations.HufSuccessWritesTheSamples := by
  intro s src len dst nout b hc hwf hraced hb
  have hlen : b.samples.length = nout.toNat := hufDecodeBlock_length hb
  have hwords := hufHeader_words (hufDecodeBlock_header hb)
  refine ⟨hlen, s.dmem.writeSamples dst.toNat b.samples, ?_, fun i hi => ?_, fun a ha => ?_⟩
  · rw [exec_hufDecode_ok hc hb, State.hufDone, commit_clean hraced, hwords]
  · rw [sample_writeSamples hwf _ _ i (by omega), List.getD_eq_getElem _ _ (by omega)]
  · exact read_writeSamples_other hwf (by rwa [hlen])

/-- Settles O46: the header checks by `hufHeader`; an error of a phase is the command's error by `exec_hufDecode_raises`. -/
theorem hufHeaderChecks : Obligations.HufHeaderChecks := by
  refine ⟨fun s src len dst nout dMin dMax tableLength payloadBits hc hmin hmax htl hpb => ?_,
    fun s src len dst nout h e info hc hf hraise => ?_⟩
  · obtain ⟨t, ht, hraises⟩ := exec_hufDecode_raises hc
    have hheader := fun e info hh => hraises e info (hufDecodeBlock_of_header_error hh)
    subst hmin hmax htl hpb
    refine ⟨t, ht, fun hlen => ?_, fun hlen hbad => ?_, fun hlen hle hmax htable => ?_, fun hlen hle hmax htable hbits => ?_⟩
    · exact hheader _ _ ((if_pos hlen).trans (by rw [u32_toNat]))
    · exact hheader _ _ ((if_neg (not_lt.2 hlen)).trans (if_pos hbad))
    · exact hheader _ _ ((if_neg (not_lt.2 hlen)).trans ((if_neg (not_or.2 ⟨not_lt.2 hle, not_lt.2 hmax⟩)).trans (if_pos htable)))
    · exact hheader _ _ ((if_neg (not_lt.2 hlen)).trans ((if_neg (not_or.2 ⟨not_lt.2 hle, not_lt.2 hmax⟩)).trans
        ((if_neg (not_lt.2 htable)).trans (if_pos hbits))))
  · obtain ⟨t, ht, hraises⟩ := exec_hufDecode_raises hc
    refine ⟨t, ht, hraises e info ?_⟩
    rcases hraise with hu | ⟨ls, hu, hb⟩
    · exact hufDecodeBlock_of_unpack_error (hufHeader_of_framed hf) hu
    · exact hufDecodeBlock_of_build_error (hufHeader_of_framed hf) hu hb

/-! The readbacks (R115, R116). -/

/-- What a `HUF_PACK_READ` whose checks pass does (R115). -/
theorem exec_hufPackRead {s : State} {sym : Word} (hsym : sym.toNat ≤ 65536) (hval : s.valid.hufv = true) {p : BitVec 64}
    (hp : p = packAt s.pack sym.toNat) :
    exec (.hufPackRead sym) s =
      .next ({ s with
        res := ⟨p.extractLsb' 0 32, p.extractLsb' 32 32, (p.extractLsb' 0 6).setWidth 32, p.extractLsb' 6 32⟩ } : State).retire :=
  hp ▸ (if_neg (not_lt.2 hsym)).trans (if_neg (ne_false_of_eq_true hval))

/-- What a `HUF_DEC_READ` whose checks pass does (R116). -/
theorem exec_hufDecRead {s : State} {i j : Word} (hi : i.toNat ≤ 16383) (hval : s.valid.hufv = true) {r : Word × Word × Word}
    (hr : r = decEntryWords (s.dec.get decBits i.toNat) j.toNat) :
    exec (.hufDecRead i j) s = .next ({ s with res := ⟨r.1, r.2.1, r.2.2, s.res.r3⟩ } : State).retire :=
  hr ▸ (if_neg (not_lt.2 hi)).trans (if_neg (ne_false_of_eq_true hval))

/-- The symbol word of a list's entry (R116). -/
theorem decEntryWords_long (lits : List Nat) (j : Nat) :
    decEntryWords (.long lits) j = (2, u32 lits.length, (lits[j]?.map u32).getD 0xFFFFFFFF) := by
  by_cases hj : j < lits.length <;> simp [decEntryWords, hj]

/-- The two words of a pack's halves. -/
theorem toNat_eq_halves (p : BitVec 64) :
    p.toNat = (p.extractLsb' 0 32).toNat + 2 ^ 32 * (p.extractLsb' 32 32).toNat := by
  have := p.isLt
  simp only [BitVec.extractLsb'_toNat, Nat.shiftRight_eq_div_pow]
  omega

/-- Settles O53: the checks by their order; the words of a pack by its bits, those of an entry by its kind. -/
theorem hufReadbacks : Obligations.HufReadbacks := by
  refine ⟨fun s sym => ⟨fun hsym => if_pos hsym, fun hsym hval => (if_neg (not_lt.2 hsym)).trans (if_pos hval),
      fun hsym hval => ⟨_, exec_hufPackRead hsym hval rfl, toNat_eq_halves _, ?_, ?_⟩⟩,
    fun s i j => ⟨fun hi => if_pos hi, fun hi hval => (if_neg (not_lt.2 hi)).trans (if_pos hval),
      fun hi hval => ⟨_, _, _, exec_hufDecRead hi hval rfl, fun he => ?_, fun l sy he => ?_, fun lits he => ?_⟩⟩⟩
  · simp only [packLen, BitVec.toNat_setWidth, BitVec.extractLsb'_toNat, Nat.shiftRight_zero]
    omega
  · simp only [packCode, BitVec.extractLsb'_toNat, Nat.shiftRight_eq_div_pow]
  · simp [he, decEntryWords]
  · simp [he, decEntryWords]
  · rw [he, decEntryWords_long]
    refine ⟨rfl, rfl, fun d hd => ?_, fun hj => ?_⟩
    · rw [hd]
      rfl
    · rw [List.getElem?_eq_none hj]
      rfl

end Sys2Proof.Machine

namespace Sys2Proof.Machine

/-! Numbers in a stream of bits (R13, R40). -/

/-- The number whose `n` bits, most significant first, are `f 0 .. f (n - 1)`. -/
def msbFirst (f : Nat → Bool) : Nat → Nat
  | 0 => 0
  | n + 1 => 2 * msbFirst f n + (f n).toNat

theorem streamBits_eq_msbFirst (m : Memory) (base q n : Nat) :
    m.streamBits base q n = msbFirst (fun j => m.streamBit base (q + j)) n := by
  induction n with
  | zero => rfl
  | succ n ih => rw [Memory.streamBits, ih, msbFirst]

theorem hufPeek_eq_msbFirst (m : Memory) (pb pbits p n : Nat) :
    hufPeek m pb pbits p n = msbFirst (fun j => hufPBit m pb pbits (p + j)) n := by
  induction n with
  | zero => rfl
  | succ n ih => rw [hufPeek, ih, msbFirst]

theorem msbFirst_lt (f : Nat → Bool) (n : Nat) : msbFirst f n < 2 ^ n := by
  induction n with
  | zero => exact Nat.one_pos
  | succ n ih =>
    have := Bool.toNat_lt (f n)
    rw [msbFirst, Nat.pow_succ]
    omega

/-- Dropping the last bits leaves the number of the first. -/
theorem msbFirst_add_shiftRight (f : Nat → Bool) (n k : Nat) : msbFirst f (n + k) >>> k = msbFirst f n := by
  induction k with
  | zero => rfl
  | succ k ih =>
    have := Bool.toNat_lt (f (n + k))
    have hhalf : msbFirst f (n + (k + 1)) / 2 = msbFirst f (n + k) := by
      rw [← Nat.add_assoc, msbFirst]
      omega
    rw [Nat.shiftRight_succ_inside, hhalf, ih]

/-- The number is `v` exactly where its bits are those of `v`. -/
theorem msbFirst_eq_iff {f : Nat → Bool} {n v : Nat} (hv : v < 2 ^ n) :
    msbFirst f n = v ↔ ∀ j, j < n → f j = v.testBit (n - 1 - j) := by
  induction n generalizing v with
  | zero => simp [msbFirst]; omega
  | succ n ih =>
    have hbit := Bool.toNat_lt (f n)
    have hlast : f n = v.testBit 0 ↔ (f n).toNat = v % 2 := by
      rw [Nat.testBit_zero]
      cases f n <;> simp <;> omega
    have hsplit : msbFirst f (n + 1) = v ↔ msbFirst f n = v / 2 ∧ f n = v.testBit 0 := by
      rw [hlast, msbFirst]
      omega
    rw [hsplit, ih (by omega), Nat.forall_lt_succ_right]
    refine and_congr (forall₂_congr fun j hj => ?_) (by simp)
    rw [Nat.testBit_div_two, show n - 1 - j + 1 = n + 1 - 1 - j by omega]

theorem getD_bitsOf {n v j : Nat} (hj : j < n) : (bitsOf n v).getD j false = v.testBit (n - 1 - j) := by
  simp [bitsOf, hj]

/-- A number that stands in the stream is the number read there (R13, R40). -/
theorem streamBits_of_streamIs {m : Memory} {base q n v : Nat} (hv : v < 2 ^ n) (h : StreamIs m base q (bitsOf n v)) :
    m.streamBits base q n = v := by
  rw [streamBits_eq_msbFirst, msbFirst_eq_iff hv]
  exact fun j hj => (h j (by simpa using hj)).trans (getD_bitsOf hj)

/-! The packed code-length table (R104, R109). -/

section
variable {m : Memory} {tb tbits dMax im q n v run : Nat}

theorem hufTableGet_of_streamIs (hv : v < 2 ^ n) (h : StreamIs m tb q (bitsOf n v)) (hfit : q + n ≤ tbits) :
    hufTableGet m tb tbits q n = .ok (v, q + n) := by
  rw [hufTableGet, if_neg (not_lt.2 hfit), streamBits_of_streamIs hv h]

theorem hufTableGet_past (hpast : tbits < q + n) : hufTableGet m tb tbits q n = .error (.fHufTable, u32 q) := if_pos hpast

theorem hufSkipRun_inside (h : im + run ≤ dMax + 1) : hufSkipRun dMax im run = .ok (im + run) := if_neg (not_lt.2 h)

theorem hufSkipRun_past (h : dMax + 1 < im + run) : hufSkipRun dMax im run = .error (.fHufTableRun, u32 im) := if_pos h

/-- The first 6 bits of the table's next item are past its end (R109). -/
theorem hufTableItem_no_value (hpast : tbits < q + 6) : hufTableItem m tb tbits dMax im q = .error (.fHufTable, u32 q) := by
  simp only [hufTableItem, hufTableGet_past hpast]

/-- The 8 bits of a long run are past the table's end (R109). -/
theorem hufTableItem_no_count (h : StreamIs m tb q (bitsOf 6 63)) (hfit : q + 6 ≤ tbits) (hpast : tbits < q + 14) :
    hufTableItem m tb tbits dMax im q = .error (.fHufTable, u32 (q + 6)) := by
  simp only [hufTableItem, hufTableGet_of_streamIs (by decide) h hfit, hufTableGet_past (show tbits < q + 6 + 8 from hpast), if_true]

theorem hufTableItem_length (hv : v ≤ 58) (h : StreamIs m tb q (bitsOf 6 v)) (hfit : q + 6 ≤ tbits) :
    hufTableItem m tb tbits dMax im q = .ok (if v = 0 then [] else [(im, v)], im + 1, q + 6) := by
  simp only [hufTableItem, hufTableGet_of_streamIs (by omega) h hfit]
  rw [if_neg (show v ≠ 63 by omega), if_neg (show ¬ 59 ≤ v by omega)]

/-- A run of at most 5 zeros, before its check (R109). -/
theorem hufTableItem_shortRun (hn : 2 ≤ n ∧ n ≤ 5) (h : StreamIs m tb q (bitsOf 6 (n + 57))) (hfit : q + 6 ≤ tbits) :
    hufTableItem m tb tbits dMax im q = (hufSkipRun dMax im n).map fun im' => ([], im', q + 6) := by
  simp only [hufTableItem, hufTableGet_of_streamIs (by omega) h hfit]
  rw [if_neg (show n + 57 ≠ 63 by omega), if_pos (show 59 ≤ n + 57 by omega), Nat.add_sub_cancel]
  cases hufSkipRun dMax im n <;> rfl

/-- A run of at least 6 zeros, before its check (R109). -/
theorem hufTableItem_longRun (hn : n ≤ 255) (h : StreamIs m tb q (bitsOf 6 63 ++ bitsOf 8 n)) (hfit : q + 14 ≤ tbits) :
    hufTableItem m tb tbits dMax im q = (hufSkipRun dMax im (n + 6)).map fun im' => ([], im', q + 14) := by
  obtain ⟨hmark, hcount⟩ := streamIs_append.1 h
  rw [length_bitsOf] at hcount
  simp only [hufTableItem, hufTableGet_of_streamIs (by decide) hmark (show q + 6 ≤ tbits by omega),
    hufTableGet_of_streamIs (by omega) hcount (show q + 6 + 8 ≤ tbits from hfit), if_true]
  cases hufSkipRun dMax im (n + 6) <;> rfl

variable {it : TableItem} (hok : it.Ok) (h : StreamIs m tb q it.bits) (hfit : q + it.bits.length ≤ tbits)
include hok h hfit

/-- An item that passes no symbol above `dMax` gives its length, if it has one (R104, R109). -/
theorem hufTableItem_of_item (hin : im + it.covers ≤ dMax + 1) :
    hufTableItem m tb tbits dMax im q = .ok (tableLengths [it] im, im + it.covers, q + it.bits.length) := by
  cases it with
  | length v => exact hufTableItem_length hok h (by simpa [TableItem.bits] using hfit)
  | shortRun n =>
    rw [hufTableItem_shortRun hok h (by simpa [TableItem.bits] using hfit), hufSkipRun_inside (run := n) hin]
    rfl
  | longRun f =>
    rw [hufTableItem_longRun hok h (by simpa [TableItem.bits] using hfit), hufSkipRun_inside (run := f + 6) hin]
    rfl

/-- A run that passes `dMax` is refused with its first symbol (R109). -/
theorem hufTableItem_of_long_run (hrun : 1 < it.covers) (hpast : dMax + 1 < im + it.covers) :
    hufTableItem m tb tbits dMax im q = .error (.fHufTableRun, u32 im) := by
  cases it with
  | length v => exact absurd hrun (Nat.lt_irrefl 1)
  | shortRun n =>
    rw [hufTableItem_shortRun hok h (by simpa [TableItem.bits] using hfit), hufSkipRun_past (run := n) hpast]
    rfl
  | longRun f =>
    rw [hufTableItem_longRun hok h (by simpa [TableItem.bits] using hfit), hufSkipRun_past (run := f + 6) hpast]
    rfl

end

theorem tableCovers_cons (it : TableItem) (items : List TableItem) : tableCovers (it :: items) = it.covers + tableCovers items := by
  simp [tableCovers]

theorem tableLengths_cons (it : TableItem) (items : List TableItem) (im : Nat) :
    tableLengths (it :: items) im = tableLengths [it] im ++ tableLengths items (im + it.covers) := by
  cases it with
  | length v => by_cases hv : v = 0 <;> simp [tableLengths, hv]
  | shortRun n => rfl
  | longRun f => rfl

theorem TableItem.Ok.one_le_covers {it : TableItem} (hok : it.Ok) : 1 ≤ it.covers := by
  cases it with
  | length v => exact Nat.le_refl 1
  | shortRun n => exact Nat.le_trans (by decide) hok.1
  | longRun f => exact Nat.le_trans (by decide) (Nat.le_add_left 6 f)

theorem length_le_tableCovers {items : List TableItem} (hok : ∀ it ∈ items, it.Ok) : items.length ≤ tableCovers items := by
  induction items with
  | nil => exact Nat.zero_le _
  | cons it items ih =>
    have hone := (hok it List.mem_cons_self).one_le_covers
    have hrest := ih fun it' h' => hok it' (List.mem_cons_of_mem _ h')
    rw [tableCovers_cons, List.length_cons]
    omega

section
variable {m : Memory} {tb tbits dMax im q k : Nat}

/-- The loop ends where the last symbol has been covered (R109). -/
theorem hufLengths_done (h : dMax < im) : hufLengths m tb tbits dMax k im q = .ok ([], q) := by
  cases k with
  | zero => rfl
  | succ k => exact if_pos h

theorem hufLengths_error {r : Raise} (hle : im ≤ dMax) (h : hufTableItem m tb tbits dMax im q = .error r) :
    hufLengths m tb tbits dMax (k + 1) im q = .error r := by
  rw [hufLengths, if_neg (not_lt.2 hle), h]

theorem hufLengths_item {ls : List (Nat × Nat)} {im' q' : Nat} (hle : im ≤ dMax)
    (h : hufTableItem m tb tbits dMax im q = .ok (ls, im', q')) :
    hufLengths m tb tbits dMax (k + 1) im q = (hufLengths m tb tbits dMax k im' q').map fun r => (ls ++ r.1, r.2) := by
  simp only [hufLengths, if_neg (not_lt.2 hle), h]
  cases hufLengths m tb tbits dMax k im' q' <;> rfl

/-- The loop goes over items that stand in the table, one turn an item (R104, R109). -/
theorem hufLengths_items {items : List TableItem} (hok : ∀ it ∈ items, it.Ok)
    (h : StreamIs m tb q (items.flatMap TableItem.bits)) (hfit : q + (items.flatMap TableItem.bits).length ≤ tbits)
    (hin : im + tableCovers items ≤ dMax + 1) :
    hufLengths m tb tbits dMax (k + items.length) im q =
      (hufLengths m tb tbits dMax k (im + tableCovers items) (q + (items.flatMap TableItem.bits).length)).map fun r =>
        (tableLengths items im ++ r.1, r.2) := by
  induction items generalizing im q with
  | nil => cases hr : hufLengths m tb tbits dMax k im q <;> simp [hr, tableCovers, tableLengths, Except.map]
  | cons it items ih =>
    have hit := hok it List.mem_cons_self
    have hone := hit.one_le_covers
    rw [List.flatMap_cons, streamIs_append] at h
    rw [List.flatMap_cons, List.length_append] at hfit ⊢
    rw [tableCovers_cons] at hin ⊢
    rw [List.length_cons, ← Nat.add_assoc,
      hufLengths_item (by omega) (hufTableItem_of_item hit h.1 (by omega) (by omega)),
      ih (fun it' h' => hok it' (List.mem_cons_of_mem _ h')) h.2 (by omega) (by omega), Nat.add_assoc, Nat.add_assoc,
      tableLengths_cons it items]
    cases hufLengths m tb tbits dMax k (im + (it.covers + tableCovers items))
      (q + (it.bits.length + (items.flatMap TableItem.bits).length)) <;> simp [Except.map]

end

section
variable {m : Memory} {src : Nat} {h : HufHeader} {items : List TableItem}

variable (hok : ∀ it ∈ items, it.Ok) (hs : StreamIs m (src + 20) 0 (items.flatMap TableItem.bits))
  (hfit : (items.flatMap TableItem.bits).length ≤ 8 * h.tableLength)
include hok hs hfit

/-- Items that cover `dMin .. dMax` give their lengths (R109). -/
theorem hufLengths_whole (hcov : tableCovers items = h.dMax + 1 - h.dMin) (hle : h.dMin ≤ h.dMax) :
    hufLengths m (src + 20) (8 * h.tableLength) h.dMax (h.dMax + 1 - h.dMin) h.dMin 0 =
      .ok (tableLengths items h.dMin, (items.flatMap TableItem.bits).length) := by
  obtain ⟨k, hk⟩ := Nat.exists_eq_add_of_le' (length_le_tableCovers hok)
  rw [← hcov, hk, hufLengths_items hok hs (by omega) (by omega), hufLengths_done (by omega)]
  simp [Except.map]

/-- A table of items that cover `dMin .. dMax` and take at most its bytes unpacks to their lengths, if they take them all (R109). -/
theorem hufUnpack_whole (hcov : tableCovers items = h.dMax + 1 - h.dMin) (hle : h.dMin ≤ h.dMax) :
    hufUnpack m src h =
      if ceil8 (items.flatMap TableItem.bits).length ≠ h.tableLength then .error (.fHufTableLen, u32 h.tableLength)
      else .ok (tableLengths items h.dMin) := by
  simp only [hufUnpack, hufLengths_whole hok hs hfit hcov hle]

/-- What stops the item after items that do not cover `dMax` is the table's error (R109). -/
theorem hufUnpack_of_item_error (hcov : tableCovers items < h.dMax + 1 - h.dMin) {r : Raise}
    (hr : hufTableItem m (src + 20) (8 * h.tableLength) h.dMax (h.dMin + tableCovers items)
      (items.flatMap TableItem.bits).length = .error r) :
    hufUnpack m src h = .error r := by
  have hlen := length_le_tableCovers hok
  obtain ⟨k, hk⟩ := Nat.exists_eq_add_of_le' (show items.length + 1 ≤ h.dMax + 1 - h.dMin by omega)
  have hl : hufLengths m (src + 20) (8 * h.tableLength) h.dMax (h.dMax + 1 - h.dMin) h.dMin 0 = .error r := by
    rw [hk, ← Nat.add_assoc, Nat.add_right_comm, hufLengths_items hok hs (by omega) (by omega), Nat.zero_add,
      hufLengths_error (by omega) hr]
    rfl
  simp only [hufUnpack, hl]

end

theorem le_mul_of_ceil8_le {n k : Nat} (h : ceil8 n ≤ k) : n ≤ 8 * k := by
  unfold ceil8 at h
  omega

/-- Settles O49: the loop goes over the items by `hufLengths_items`; the item after them stops it. -/
theorem hufTableUnpacks : Obligations.HufTableUnpacks := by
  refine ⟨fun m src h items hle hok hcov hs => ⟨fun hfill => ?_, fun hless => ?_⟩, fun m src h items q hle hok hcov hs hq hfit =>
    ⟨fun hpast => ?_, fun h6 hpast hmark => ?_, fun it hit hrun hbits hend hpast => ?_⟩⟩
  · rw [hufUnpack_whole hok hs (le_mul_of_ceil8_le hfill.le) hcov hle, if_neg (not_not.2 hfill)]
  · rw [hufUnpack_whole hok hs (le_mul_of_ceil8_le hless.le) hcov hle, if_pos hless.ne]
  all_goals subst hq
  · exact hufUnpack_of_item_error hok hs hfit hcov (hufTableItem_no_value hpast)
  · exact hufUnpack_of_item_error hok hs hfit hcov (hufTableItem_no_count hmark h6 hpast)
  · exact hufUnpack_of_item_error hok hs hfit hcov (hufTableItem_of_long_run hit hbits hend hrun (by omega))

end Sys2Proof.Machine

namespace Sys2Proof.Machine

/-! The canonical codes (R110). -/

section
variable {ls : List (Nat × Nat)}

theorem hufStart_step (ls : List (Nat × Nat)) {l : Nat} (hl : l < 58) :
    hufStart ls l = (hufStart ls (l + 1) + hufFreq ls (l + 1)) / 2 := by
  obtain ⟨k, hk⟩ := Nat.exists_eq_add_of_lt hl
  rw [hufStart, hufStart, show 58 - l = k + 1 by omega, show 58 - (l + 1) = k by omega, hufStartAfter,
    show Config.maxCodeLen - k = l + 1 by unfold Config.maxCodeLen; omega]

/-- The number of symbols with codes of at least `l` bits. -/
def atLeast (ls : List (Nat × Nat)) (l : Nat) : Nat := ls.countP fun sl => decide (l ≤ sl.2)

theorem atLeast_eq (ls : List (Nat × Nat)) (l : Nat) : atLeast ls l = atLeast ls (l + 1) + hufFreq ls l := by
  unfold atLeast hufFreq
  induction ls with
  | nil => rfl
  | cons sl ls ih =>
    simp only [List.countP_cons, ih, decide_eq_true_eq, beq_iff_eq]
    split_ifs <;> omega

/-- The first code of a length is at most the number of symbols with longer codes. -/
theorem hufStart_le_atLeast (ls : List (Nat × Nat)) {l : Nat} (hl : l ≤ 58) : hufStart ls l ≤ atLeast ls (l + 1) := by
  induction hl using Nat.decreasingInduction with
  | self => exact Nat.zero_le _
  | of_succ l hl ih =>
    rw [hufStart_step ls hl, atLeast_eq ls (l + 1)]
    omega

/-- The codes of a length are numbered below the number of the symbols. -/
theorem hufStart_add_hufFreq_le (ls : List (Nat × Nat)) {l : Nat} (hl : l ≤ 58) : hufStart ls l + hufFreq ls l ≤ ls.length :=
  calc hufStart ls l + hufFreq ls l ≤ atLeast ls (l + 1) + hufFreq ls l := Nat.add_le_add_right (hufStart_le_atLeast ls hl) _
    _ = atLeast ls l := (atLeast_eq ls l).symm
    _ ≤ ls.length := List.countP_le_length

/-- Ascending symbols up to 65536 are no more than 65537. -/
theorem length_le_of_ascending (hasc : (ls.map (·.1)).Pairwise (· < ·)) {n : Nat} (hmax : ∀ sl ∈ ls, sl.1 < n) : ls.length ≤ n := by
  have hnodup : (ls.map (·.1)).Nodup := hasc.imp Nat.ne_of_lt
  have hsub : (ls.map (·.1)) ⊆ List.range n := fun x hx => by
    obtain ⟨sl, hsl, rfl⟩ := List.mem_map.1 hx
    exact List.mem_range.2 (hmax sl hsl)
  simpa using (hnodup.subperm hsub).length_le

/-- One more in entry `l`. -/
theorem getD_set_succ {start : List Nat} {l : Nat} (hl : l < start.length) (l' : Nat) :
    (start.set l (start.getD l 0 + 1)).getD l' 0 = start.getD l' 0 + if l = l' then 1 else 0 := by
  simp only [List.getD_eq_getElem?_getD, List.getElem?_set]
  by_cases h : l = l'
  · subst h
    simp [hl]
  · simp [h]

/-- The number of earlier symbols with the length of `sl`. -/
def earlierSameLength (ls : List (Nat × Nat)) (sl : Nat × Nat) : Nat :=
  ls.countP fun sl' => decide (sl'.1 < sl.1) && sl'.2 == sl.2

/-- The pack of a symbol: the next code of its length, after one for each earlier symbol of the same length (R110). -/
theorem packAt_hufAssign {start : List Nat} {t : PackRam} (hasc : (ls.map (·.1)).Pairwise (· < ·))
    (hls : ∀ sl ∈ ls, sl.1 < 2 ^ packBits ∧ sl.2 < start.length) {sl : Nat × Nat} (hsl : sl ∈ ls) :
    packAt (hufAssign ls start t) sl.1 = packOf (start.getD sl.2 0 + earlierSameLength ls sl) sl.2 := by
  induction ls generalizing start t with
  | nil => cases hsl
  | cons x ls ih =>
    rw [List.map_cons, List.pairwise_cons] at hasc
    obtain ⟨hfirst, hrest⟩ := hasc
    have habove : ∀ y ∈ ls, x.1 < y.1 := fun y hy => hfirst _ (List.mem_map_of_mem hy)
    have hx := hls x List.mem_cons_self
    have htail := fun y hy => hls y (List.mem_cons_of_mem x hy)
    rcases List.mem_cons.1 hsl with rfl | hsl
    · have hnone : earlierSameLength (sl :: ls) sl = 0 := List.countP_eq_zero.2 fun y hy => by
        rcases List.mem_cons.1 hy with rfl | hy
        · simp
        · simp [Nat.not_lt.2 (habove y hy).le]
      rw [hnone, Nat.add_zero, hufAssign]
      rcases hufAssign_get ls _ _ hx.1 fun y hy => (htail y hy).1 with h | ⟨y, hy, hsame, -⟩
      · rw [h, packAt, get_set_same _ hx.1]
      · exact absurd hsame (habove y hy).ne'
    · have hbefore : x.1 < sl.1 := habove sl hsl
      rw [hufAssign, ih hrest (fun y hy => by simpa using htail y hy) hsl, getD_set_succ hx.2, earlierSameLength, earlierSameLength,
        List.countP_cons]
      simp only [hbefore, decide_true, Bool.true_and, beq_iff_eq]
      rw [Nat.add_assoc, Nat.add_comm (ite _ _ _)]

end

section
variable {ls : List (Nat × Nat)} (hasc : (ls.map (·.1)).Pairwise (· < ·))
include hasc

theorem hufStart_add_earlierSameLength_lt (hls : LengthsOk ls) {sl : Nat × Nat} (hsl : sl ∈ ls) :
    hufStart ls sl.2 + earlierSameLength ls sl < 2 ^ 18 := by
  have hnum := hufStart_add_hufFreq_le ls (hls sl hsl).2.2
  have hlen := length_le_of_ascending hasc fun y hy => Nat.lt_succ_of_le (hls y hy).1
  have hearlier : earlierSameLength ls sl ≤ hufFreq ls sl.2 := List.countP_mono_left fun y _ hy => (Bool.and_eq_true_iff.1 hy).2
  unfold Config.maxSymbol at hlen
  omega

/-- The pack that phase 4 gives a symbol (R110). -/
theorem packAt_hufPacks (hls : LengthsOk ls) {sl : Nat × Nat} (hsl : sl ∈ ls) :
    packAt (hufPacks ls) sl.1 = packOf (hufStart ls sl.2 + earlierSameLength ls sl) sl.2 := by
  have hrange : ∀ y ∈ ls, y.1 < 2 ^ packBits ∧ y.2 < ((List.range 59).map (hufStart ls)).length := fun y hy => by
    obtain ⟨hsym, -, hlen⟩ := hls y hy
    unfold Config.maxSymbol Config.maxCodeLen at *
    simp
    omega
  rw [hufPacks, packAt_hufAssign hasc hrange hsl, List.getD_eq_getElem _ _ (hrange sl hsl).2]
  simp

theorem packLen_hufPacks (hls : LengthsOk ls) {sl : Nat × Nat} (hsl : sl ∈ ls) : packLen (packAt (hufPacks ls) sl.1) = sl.2 := by
  rw [packAt_hufPacks hasc hls hsl, packLen_packOf _ (hls sl hsl).2.2]

theorem packCode_hufPacks (hls : LengthsOk ls) {sl : Nat × Nat} (hsl : sl ∈ ls) :
    packCode (packAt (hufPacks ls) sl.1) = hufStart ls sl.2 + earlierSameLength ls sl := by
  have hcode := hufStart_add_earlierSameLength_lt hasc hls hsl
  have hlen := (hls sl hsl).2.2
  unfold Config.maxCodeLen at hlen
  rw [packAt_hufPacks hasc hls hsl, packCode, packOf, BitVec.toNat_ofNat]
  omega

end

/-- A symbol that has no length has no pack (R107, R110). -/
theorem packAt_hufPacks_absent {ls : List (Nat × Nat)} (hls : LengthsOk ls) {s : Nat} (hs : s ≤ 65536) (habs : ∀ l, (s, l) ∉ ls) :
    packAt (hufPacks ls) s = 0 := by
  have hrange : ∀ sl ∈ ls, sl.1 < 2 ^ packBits := fun sl hsl => (hls sl hsl).1.trans_lt (by decide)
  rcases hufAssign_get ls _ (.leaf 0) (hs.trans_lt (by decide)) hrange with h | ⟨sl, hsl, rfl, -⟩
  · exact h
  · exact absurd hsl (habs sl.2)

/-- Settles O50: the packs by `packAt_hufPacks`, the bound by the number of the symbols. -/
theorem hufCodesAreCanonical : Obligations.HufCodesAreCanonical := fun ls hasc hls =>
  ⟨rfl, fun _ _ hl => hufStart_step ls hl, fun _ hsl => ⟨packLen_hufPacks hasc hls hsl, packCode_hufPacks hasc hls hsl,
    packCode_hufPacks hasc hls hsl ▸ hufStart_add_earlierSameLength_lt hasc hls hsl⟩, fun _ => packAt_hufPacks_absent hls⟩

end Sys2Proof.Machine

namespace Sys2Proof.Machine

/-! Blocks of a table's entries, by the entries' first bits. -/

section
variable {α : Type} [DecidableEq α] {n k c : Nat} (hc : c < 2 ^ n)
include hc

theorem block_iff {i : Nat} (hi : i < 2 ^ (n + k)) : i / 2 ^ k % 2 ^ n = c % 2 ^ n ↔ i >>> k = c := by
  have hdiv : i / 2 ^ k < 2 ^ n := Nat.div_lt_of_lt_mul (by rwa [← Nat.pow_add, Nat.add_comm k])
  rw [Nat.mod_eq_of_lt hc, Nat.mod_eq_of_lt hdiv, Nat.shiftRight_eq_div_pow]

theorem get_setBlock_of_lt (t : Tab α) (a : α) {i : Nat} (hi : i < 2 ^ (n + k)) :
    (Tab.setBlock n t c a).get (n + k) i = if i >>> k = c then a else t.get (n + k) i := by
  rw [get_setBlock]
  exact if_congr (block_iff hc hi) rfl rfl

theorem allBlock_iff_of_lt (p : α → Bool) {t : Tab α} (ht : t.wf (n + k) = true) :
    Tab.allBlock p n t c = true ↔ ∀ i, i < 2 ^ (n + k) → i >>> k = c → p (t.get (n + k) i) = true := by
  rw [allBlock_iff p n k ht]
  refine ⟨fun h i hi hik => h i ((block_iff hc hi).2 hik), fun h i hik => ?_⟩
  have hlt := Nat.mod_lt i (Nat.two_pow_pos (n + k))
  rw [get_congr ht (Nat.mod_mod i _).symm]
  refine h _ hlt ((block_iff hc hlt).1 ?_)
  rw [← hik, Nat.add_comm n k, Nat.pow_add, Nat.mod_mul_right_div_self, Nat.mod_mod]

end

/-! The decoding table (R111, R117). -/

/-- Entry `i` of the decoding table begins with the code of `x` (a symbol with its length), or is its first 14 bits when it is
longer: the entries that R111 enters `x` in. -/
abbrev Claims (packs : PackRam) (i : Nat) (x : Nat × Nat) : Prop :=
  packCode (packAt packs x.1) >>> (x.2 - 14) = i >>> (14 - x.2)

/-- The code of `x` fits its length (R31, R111). -/
abbrev CodeFits (packs : PackRam) (x : Nat × Nat) : Prop := packCode (packAt packs x.1) >>> x.2 = 0

/-- The symbols that claim entry `i`, in their order. -/
def claimants (packs : PackRam) (ls : List (Nat × Nat)) (i : Nat) : List (Nat × Nat) :=
  ls.filter fun x => decide (Claims packs i x)

/-- The entry that the claimants make (R32, R111). -/
def entryOf : List (Nat × Nat) → DecEntry
  | [] => .empty
  | x :: xs => if x.2 ≤ 14 then .short x.2 x.1 else .long ((x :: xs).map (·.1))

theorem mem_claimants {packs : PackRam} {ls : List (Nat × Nat)} {i : Nat} {x : Nat × Nat} :
    x ∈ claimants packs ls i ↔ x ∈ ls ∧ Claims packs i x := by simp [claimants]

theorem claimants_snoc (packs : PackRam) (ls : List (Nat × Nat)) (x : Nat × Nat) (i : Nat) :
    claimants packs (ls ++ [x]) i = claimants packs ls i ++ if Claims packs i x then [x] else [] := by
  rw [claimants, List.filter_append, ← claimants]
  simp only [List.filter_cons, List.filter_nil, decide_eq_true_eq]

theorem entryOf_eq_empty {xs : List (Nat × Nat)} : entryOf xs = .empty ↔ xs = [] := by
  cases xs with
  | nil => simp [entryOf]
  | cons x xs =>
    rw [entryOf]
    split <;> simp

/-- Claimants that all have long codes make a list (R111). -/
theorem entryOf_long {xs : List (Nat × Nat)} (hne : xs ≠ []) (hlong : ∀ x ∈ xs, 14 < x.2) : entryOf xs = .long (xs.map (·.1)) := by
  cases xs with
  | nil => exact absurd rfl hne
  | cons x xs => exact if_neg (not_le.2 (hlong x List.mem_cons_self))

section
variable {packs : PackRam} {x y : Nat × Nat} {i : Nat}

theorem clash_comm : Clash packs x y ↔ Clash packs y x := by
  rw [Clash, Clash, Nat.min_comm, eq_comm]

/-- Two symbols that claim one entry clash, unless both codes are long (R111). -/
theorem clash_of_claims (hx : Claims packs i x) (hy : Claims packs i y) (hshort : min x.2 y.2 ≤ 14) : Clash packs x y := by
  refine ⟨hshort, ?_⟩
  have key : ∀ z : Nat × Nat, Claims packs i z → min x.2 y.2 ≤ z.2 →
      packCode (packAt packs z.1) >>> (z.2 - min x.2 y.2) = i >>> (14 - min x.2 y.2) := fun z hz hle => by
    rw [show z.2 - min x.2 y.2 = (z.2 - 14) + (min z.2 14 - min x.2 y.2) by omega, Nat.shiftRight_add, hz, ← Nat.shiftRight_add]
    congr 1
    omega
  rw [key x hx (Nat.min_le_left _ _), key y hy (Nat.min_le_right _ _)]

theorem CodeFits.lt (hx : CodeFits packs x) : packCode (packAt packs x.1) < 2 ^ x.2 := by
  rw [CodeFits, Nat.shiftRight_eq_div_pow, Nat.div_eq_zero_iff] at hx
  exact hx.resolve_left (Nat.two_pow_pos _).ne'

theorem CodeFits.firstBits_lt (hx : CodeFits packs x) : packCode (packAt packs x.1) >>> (x.2 - 14) < 2 ^ min x.2 14 := by
  rw [Nat.shiftRight_eq_div_pow, Nat.div_lt_iff_lt_mul (Nat.two_pow_pos _), ← Nat.pow_add,
    show min x.2 14 + (x.2 - 14) = x.2 by omega]
  exact hx.lt

/-- The first 14 bits of a code are an index of the table. -/
theorem CodeFits.firstBits_lt_index (hx : CodeFits packs x) : packCode (packAt packs x.1) >>> (x.2 - 14) < 2 ^ 14 :=
  hx.firstBits_lt.trans_le (Nat.pow_le_pow_right (by decide) (Nat.min_le_right _ _))

/-- The entry in common: the longer code's first 14 bits, or that code with zeros behind it. -/
theorem Clash.exists_claims_of_le (h : Clash packs x y) (hle : x.2 ≤ y.2) (hy : CodeFits packs y) :
    ∃ i, i < 2 ^ 14 ∧ Claims packs i x ∧ Claims packs i y := by
  obtain ⟨hshort, hcode⟩ := h
  rw [Nat.min_eq_left hle] at hshort hcode
  rw [Nat.sub_self, Nat.shiftRight_zero] at hcode
  by_cases hy14 : y.2 ≤ 14
  · refine ⟨packCode (packAt packs y.1) <<< (14 - y.2), ?_, ?_, ?_⟩
    · rw [Nat.shiftLeft_eq]
      calc _ < 2 ^ y.2 * 2 ^ (14 - y.2) := Nat.mul_lt_mul_of_pos_right hy.lt (Nat.two_pow_pos _)
        _ = 2 ^ 14 := by rw [← Nat.pow_add, Nat.add_sub_cancel' hy14]
    · rw [Claims, hcode, Nat.sub_eq_zero_of_le hshort, Nat.shiftRight_zero, show 14 - x.2 = 14 - y.2 + (y.2 - x.2) by omega,
        Nat.shiftRight_add, Nat.shiftLeft_shiftRight]
    · rw [Claims, Nat.sub_eq_zero_of_le hy14, Nat.shiftRight_zero, Nat.shiftLeft_shiftRight]
  · refine ⟨packCode (packAt packs y.1) >>> (y.2 - 14), hy.firstBits_lt_index, ?_, ?_⟩
    · rw [Claims, hcode, Nat.sub_eq_zero_of_le hshort, Nat.shiftRight_zero, ← Nat.shiftRight_add]
      congr 1
      omega
    · rw [Claims, Nat.sub_eq_zero_of_le (not_le.1 hy14).le, Nat.shiftRight_zero]

/-- Symbols that clash claim an entry in common, if their codes fit. -/
theorem Clash.exists_claims (h : Clash packs x y) (hx : CodeFits packs x) (hy : CodeFits packs y) :
    ∃ i, i < 2 ^ 14 ∧ Claims packs i x ∧ Claims packs i y := by
  rcases Nat.le_total x.2 y.2 with hle | hle
  · exact h.exists_claims_of_le hle hy
  · obtain ⟨i, hi, hcy, hcx⟩ := (clash_comm.1 h).exists_claims_of_le hle hx
    exact ⟨i, hi, hcx, hcy⟩

end

/-- The decoding table `t` is that of the symbols `ls`: every entry is what its claimants make, and no two symbols clash. -/
structure Built (packs : PackRam) (ls : List (Nat × Nat)) (t : DecRam) : Prop where
  wf : t.wf decBits = true
  entry : ∀ i, i < 2 ^ 14 → t.get decBits i = entryOf (claimants packs ls i)
  fits : ∀ x ∈ ls, CodeFits packs x
  apart : ls.Pairwise fun x y => ¬ Clash packs x y

theorem built_nil (packs : PackRam) : Built packs [] (.leaf .empty) := ⟨wf_leaf _ _, fun _ _ => rfl, by simp, .nil⟩

section
variable {packs : PackRam} {ls : List (Nat × Nat)} {t t' : DecRam} {x y : Nat × Nat} {i : Nat}

theorem Built.not_clash (h : Built packs ls t) (hx : x ∈ ls) (hy : y ∈ ls) (hne : x ≠ y) : ¬ Clash packs x y := by
  have : Std.Symm fun x y => ¬ Clash packs x y := ⟨fun _ _ hxy hyx => hxy (clash_comm.1 hyx)⟩
  exact h.apart.forall hx hy hne

/-- A symbol with a short code is the only claimant of its entries. -/
theorem Built.claimants_short (h : Built packs ls t) (hx : x ∈ ls) (hshort : x.2 ≤ 14) (hi : Claims packs i x) :
    claimants packs ls i = [x] := by
  have hapart : (claimants packs ls i).Pairwise fun x y => ¬ Clash packs x y := h.apart.filter _
  have hmem : x ∈ claimants packs ls i := mem_claimants.2 ⟨hx, hi⟩
  obtain ⟨before, after, hsplit⟩ := List.append_of_mem hmem
  have hclaims : ∀ y ∈ before ++ x :: after, Claims packs i y := fun y hy => (mem_claimants.1 (hsplit ▸ hy)).2
  rw [hsplit, List.pairwise_append, List.pairwise_cons] at hapart
  obtain ⟨-, ⟨hafter, -⟩, hbefore⟩ := hapart
  have hb : before = [] := List.eq_nil_iff_forall_not_mem.2 fun y hy =>
    hbefore y hy x List.mem_cons_self (clash_of_claims (hclaims y (by simp [hy])) hi (by omega))
  have ha : after = [] := List.eq_nil_iff_forall_not_mem.2 fun y hy =>
    hafter y hy (clash_of_claims hi (hclaims y (by simp [hy])) (by omega))
  rw [hsplit, hb, ha, List.nil_append]

/-- The entries that a short code claims hold it. -/
theorem Built.get_short (h : Built packs ls t) (hi : i < 2 ^ 14) (hx : x ∈ ls) (hshort : x.2 ≤ 14) (hc : Claims packs i x) :
    t.get decBits i = .short x.2 x.1 := by
  rw [h.entry i hi, h.claimants_short hx hshort hc]
  exact if_pos hshort

/-- An entry is empty where no symbol claims it. -/
theorem Built.get_empty (h : Built packs ls t) (hi : i < 2 ^ 14) : t.get decBits i = .empty ↔ ∀ x ∈ ls, ¬ Claims packs i x := by
  rw [h.entry i hi, entryOf_eq_empty, claimants, List.filter_eq_nil_iff]
  simp

/-- The claimants of an entry that a long code claims have long codes, and stand in its list. -/
theorem Built.get_long (h : Built packs ls t) (hi : i < 2 ^ 14) (hx : x ∈ ls) (hlong : 14 < x.2) (hc : Claims packs i x) :
    (∀ y ∈ claimants packs ls i, 14 < y.2) ∧ t.get decBits i = .long ((claimants packs ls i).map (·.1)) := by
  have hmem : x ∈ claimants packs ls i := mem_claimants.2 ⟨hx, hc⟩
  have hall : ∀ y ∈ claimants packs ls i, 14 < y.2 := fun y hy => by
    by_contra hy14
    obtain ⟨hy, hcy⟩ := mem_claimants.1 hy
    rw [h.claimants_short hy (not_lt.1 hy14) hcy, List.mem_singleton] at hmem
    subst hmem
    exact hy14 hlong
  exact ⟨hall, (h.entry i hi).trans (entryOf_long (List.ne_nil_of_mem hmem) hall)⟩

/-- The table of one symbol more, which clashes with no earlier one: the entries it claims have it as their last claimant. -/
theorem Built.snoc (h : Built packs ls t) (hfit : CodeFits packs x) (hapart : ∀ y ∈ ls, ¬ Clash packs y x)
    (hwf : t'.wf decBits = true)
    (hclaimed : ∀ i, i < 2 ^ 14 → Claims packs i x → t'.get decBits i = entryOf (claimants packs ls i ++ [x]))
    (hother : ∀ i, i < 2 ^ 14 → ¬ Claims packs i x → t'.get decBits i = t.get decBits i) : Built packs (ls ++ [x]) t' where
  wf := hwf
  entry i hi := by
    rw [claimants_snoc]
    by_cases hc : Claims packs i x
    · rw [if_pos hc, hclaimed i hi hc]
    · rw [if_neg hc, List.append_nil, hother i hi hc, h.entry i hi]
  fits y hy := by
    rcases List.mem_append.1 hy with hy | hy
    · exact h.fits y hy
    · exact List.mem_singleton.1 hy ▸ hfit
  apart := List.pairwise_append.2 ⟨h.apart, List.pairwise_singleton _ _, fun y hy z hz => List.mem_singleton.1 hz ▸ hapart y hy⟩

/-- R111 enters the symbol `x`. -/
abbrev enterSymbol (packs : PackRam) (t : DecRam) (x : Nat × Nat) : Checked DecRam :=
  hufEnter t x.1 (packCode (packAt packs x.1)) x.2

theorem enterSymbol_not_fits (hfit : ¬ CodeFits packs x) : enterSymbol packs t x = .error (.fHufCode, u32 x.1) := if_pos hfit

theorem claims_short_iff (hshort : x.2 ≤ 14) {k : Nat} (hk : 14 = x.2 + k) (i : Nat) :
    Claims packs i x ↔ i >>> k = packCode (packAt packs x.1) := by
  rw [Claims, Nat.sub_eq_zero_of_le hshort, Nat.shiftRight_zero, show 14 - x.2 = k by omega, eq_comm]

section
variable (hfit : CodeFits packs x) (hshort : x.2 ≤ 14)
include hfit hshort

theorem allBlock_empty_iff (ht : t.wf decBits = true) :
    t.allBlock (fun e => e == .empty) x.2 (packCode (packAt packs x.1)) = true ↔
      ∀ i, i < 2 ^ 14 → Claims packs i x → t.get decBits i = .empty := by
  obtain ⟨k, hk⟩ := Nat.exists_eq_add_of_le hshort
  rw [allBlock_iff_of_lt hfit.lt _ (k := k) (by rwa [← hk]), ← hk]
  simp only [claims_short_iff hshort hk, beq_iff_eq]

theorem get_setBlock_claims {i : Nat} (hi : i < 2 ^ 14) (e : DecEntry) :
    (t.setBlock x.2 (packCode (packAt packs x.1)) e).get decBits i = if Claims packs i x then e else t.get decBits i := by
  obtain ⟨k, hk⟩ := Nat.exists_eq_add_of_le hshort
  have hset := get_setBlock_of_lt hfit.lt (k := k) t e (i := i) (by rwa [← hk])
  rw [← hk] at hset
  rw [hset]
  exact if_congr (claims_short_iff hshort hk i).symm rfl rfl

theorem enterSymbol_short :
    enterSymbol packs t x =
      if t.allBlock (fun e => e == .empty) x.2 (packCode (packAt packs x.1)) then
        .ok (t.setBlock x.2 (packCode (packAt packs x.1)) (.short x.2 x.1))
      else .error (.fHufOverlap, u32 x.1) :=
  (if_neg (not_not.2 hfit)).trans (if_pos hshort)

end

section
variable (hfit : CodeFits packs x) (hlong : 14 < x.2) (hi : i = packCode (packAt packs x.1) >>> (x.2 - 14))
include hfit hlong hi

theorem enterSymbol_long_of_short {l s : Nat} (hget : t.get decBits i = .short l s) :
    enterSymbol packs t x = .error (.fHufOverlap, u32 x.1) := by
  rw [hi] at hget
  simp only [hufEnter, if_neg (not_not.2 hfit), if_neg (not_le.2 hlong), hget]

/-- A long code is appended to the long codes that claim its entry (R111). -/
theorem enterSymbol_long_of_long {xs : List (Nat × Nat)} (hxs : ∀ y ∈ xs, 14 < y.2) (hget : t.get decBits i = entryOf xs) :
    enterSymbol packs t x = .ok (t.set decBits i (entryOf (xs ++ [x]))) := by
  have hsnoc : ∀ y ∈ xs ++ [x], 14 < y.2 := List.forall_mem_append.2 ⟨hxs, by simpa using hlong⟩
  rw [entryOf_long (by simp) hsnoc, List.map_append]
  rcases eq_or_ne xs [] with rfl | hne
  · rw [entryOf, hi] at hget
    simp only [hufEnter, if_neg (not_not.2 hfit), if_neg (not_le.2 hlong), hget, hi]
    rfl
  · rw [entryOf_long hne hxs, hi] at hget
    simp only [hufEnter, if_neg (not_not.2 hfit), if_neg (not_le.2 hlong), hget, hi]
    rfl

end

theorem claims_long_iff (hlong : 14 < x.2) : Claims packs i x ↔ i = packCode (packAt packs x.1) >>> (x.2 - 14) := by
  rw [Claims, Nat.sub_eq_zero_of_le hlong.le, Nat.shiftRight_zero, eq_comm]

/-- A symbol that clashes with an earlier one is refused (R111). -/
theorem Built.enter_clash (h : Built packs ls t) (hfit : CodeFits packs x) (hy : y ∈ ls) (hclash : Clash packs y x) :
    enterSymbol packs t x = .error (.fHufOverlap, u32 x.1) := by
  obtain ⟨i, hi, hcy, hcx⟩ := hclash.exists_claims (h.fits y hy) hfit
  by_cases hshort : x.2 ≤ 14
  · have hfull : t.get decBits i ≠ .empty := fun he => (h.get_empty hi).1 he y hy hcy
    rw [enterSymbol_short hfit hshort, if_neg]
    exact fun hall => hfull ((allBlock_empty_iff hfit hshort h.wf).1 hall i hi hcx)
  · have hy14 : y.2 ≤ 14 := by
      have := hclash.1
      omega
    have hlong := not_le.1 hshort
    exact enterSymbol_long_of_short hfit hlong ((claims_long_iff hlong).1 hcx) (h.get_short hi hy hy14 hcy)

/-- A symbol that clashes with no earlier one is entered (R111). -/
theorem Built.enter_apart (h : Built packs ls t) (hfit : CodeFits packs x) (hapart : ∀ y ∈ ls, ¬ Clash packs y x) :
    ∃ t', enterSymbol packs t x = .ok t' ∧ Built packs (ls ++ [x]) t' := by
  have hwf := fun t' (he : enterSymbol packs t x = .ok t') => wf_hufEnter h.wf he
  by_cases hshort : x.2 ≤ 14
  · have hfree : ∀ i, Claims packs i x → ∀ y ∈ ls, ¬ Claims packs i y := fun i hcx y hy hcy =>
      hapart y hy (clash_of_claims hcy hcx (by omega))
    have he : enterSymbol packs t x = .ok (t.setBlock x.2 (packCode (packAt packs x.1)) (.short x.2 x.1)) := by
      rw [enterSymbol_short hfit hshort, if_pos]
      exact (allBlock_empty_iff hfit hshort h.wf).2 fun i hi hc => (h.get_empty hi).2 (hfree i hc)
    refine ⟨_, he, h.snoc hfit hapart (hwf _ he) (fun i hi hc => ?_) fun i hi hc => ?_⟩
    · have hnil : claimants packs ls i = [] := List.eq_nil_iff_forall_not_mem.2 fun y hy =>
        hfree i hc y (mem_claimants.1 hy).1 (mem_claimants.1 hy).2
      rw [get_setBlock_claims hfit hshort hi, if_pos hc, hnil]
      exact (if_pos hshort).symm
    · rw [get_setBlock_claims hfit hshort hi, if_neg hc]
  · obtain ⟨i, hi⟩ : ∃ i, i = packCode (packAt packs x.1) >>> (x.2 - 14) := ⟨_, rfl⟩
    have hlong := not_le.1 hshort
    have hi14 : i < 2 ^ 14 := hi ▸ hfit.firstBits_lt_index
    have hcx : Claims packs i x := (claims_long_iff hlong).2 hi
    have hall : ∀ y ∈ claimants packs ls i, 14 < y.2 := fun y hy => by
      by_contra hy14
      obtain ⟨hy, hcy⟩ := mem_claimants.1 hy
      exact hapart y hy (clash_of_claims hcy hcx (by omega))
    have he := enterSymbol_long_of_long hfit hlong hi hall (h.entry i hi14)
    refine ⟨_, he, h.snoc hfit hapart (hwf _ he) (fun j hj hc => ?_) fun j hj hc => ?_⟩
    · rw [(claims_long_iff hlong).1 hc, ← hi, get_set_same _ hi14]
    · rw [get_set_other _ hi14 hj fun hji => hc (hji ▸ hcx)]

/-- The symbols that a build enters, it enters apart (R111). -/
theorem Built.build {later : List (Nat × Nat)} (h : Built packs ls t) (hb : hufBuild packs later t = .ok t') :
    Built packs (ls ++ later) t' := by
  induction later generalizing ls t with
  | nil =>
    cases hb
    rwa [List.append_nil]
  | cons x later ih =>
    have hfit : CodeFits packs x := hufBuild_codes_fit hb x List.mem_cons_self
    unfold hufBuild at hb
    split at hb
    · cases hb
    · rename_i t1 he
      have hapart : ∀ y ∈ ls, ¬ Clash packs y x := fun y hy hclash => nomatch (h.enter_clash hfit hy hclash).symm.trans he
      obtain ⟨t2, he', h'⟩ := h.enter_apart hfit hapart
      cases he'.symm.trans he
      simpa using ih h' hb

/-- A table that has been built from no entries is that of its symbols. -/
theorem built_of_hufBuild (hb : hufBuild packs ls (.leaf .empty) = .ok t) : Built packs ls t := (built_nil packs).build hb

theorem hufBuild_cons_ok {later : List (Nat × Nat)} (he : enterSymbol packs t x = .ok t') :
    hufBuild packs (x :: later) t = hufBuild packs later t' := by
  simp only [hufBuild, he]

theorem hufBuild_cons_error {later : List (Nat × Nat)} {r : Raise} (he : enterSymbol packs t x = .error r) :
    hufBuild packs (x :: later) t = .error r := by
  simp only [hufBuild, he]

end

/-- Settles O51: no two symbols of a built table clash; the next symbol is refused or entered by `Built.enter_clash` and
`Built.enter_apart`. -/
theorem hufShortCodesArePrefixFree : Obligations.HufShortCodesArePrefixFree := by
  refine ⟨fun packs ls t _ _ hb x hx y hy hxy hshort hle hprefix => ?_, fun packs earlier later x t _ _ hb =>
    ⟨fun hfit => ?_, fun hfit ⟨y, hy, hclash⟩ => ?_, fun hfit hapart => ?_⟩⟩
  · refine (built_of_hufBuild hb).not_clash hx hy (ne_of_apply_ne _ hxy) ⟨(Nat.min_le_left _ _).trans hshort, ?_⟩
    rw [Nat.min_eq_left hle, Nat.sub_self, Nat.shiftRight_zero, hprefix]
  · rw [hufBuild_append _ hb, hufBuild_cons_error (enterSymbol_not_fits hfit)]
  · rw [hufBuild_append _ hb, hufBuild_cons_error ((built_of_hufBuild hb).enter_clash hfit hy hclash)]
  · obtain ⟨t', he, -⟩ := (built_of_hufBuild hb).enter_apart hfit hapart
    exact ⟨t', by rw [hufBuild_append _ hb, hufBuild_cons_ok he]; rfl⟩

end Sys2Proof.Machine

namespace Sys2Proof.Machine

/-! The code at the cursor (R112). -/

section
variable {m : Memory} {pb pbits p : Nat}

theorem hufPeek_lt (m : Memory) (pb pbits p n : Nat) : hufPeek m pb pbits p n < 2 ^ n := by
  rw [hufPeek_eq_msbFirst]
  exact msbFirst_lt _ n

theorem hufPeek_shiftRight (m : Memory) (pb pbits p : Nat) {n k : Nat} (h : k ≤ n) :
    hufPeek m pb pbits p n >>> (n - k) = hufPeek m pb pbits p k := by
  obtain ⟨d, rfl⟩ := Nat.exists_eq_add_of_le h
  rw [Nat.add_sub_cancel_left, hufPeek_eq_msbFirst, hufPeek_eq_msbFirst, msbFirst_add_shiftRight]

/-- Inside the payload, peeking is reading the stream. -/
theorem hufPeek_eq_streamBits {n : Nat} (h : p + n ≤ pbits) : hufPeek m pb pbits p n = m.streamBits pb p n := by
  rw [hufPeek_eq_msbFirst, msbFirst_eq_iff (streamBits_lt m pb p n)]
  intro j hj
  rw [hufPBit, decide_eq_true (by omega), Bool.true_and]
  exact (msbFirst_eq_iff (streamBits_lt m pb p n)).1 (streamBits_eq_msbFirst m pb p n).symm j hj

variable {packs : PackRam} {x : Nat × Nat} (hfit : CodeFits packs x)
include hfit

/-- A symbol claims the entry that the next 14 bits index exactly where its code, or the first 14 bits of it, begins them (R112). -/
theorem claims_hufPeek_iff : Claims packs (hufPeek m pb pbits p 14) x ↔ CodeIndexed m pb pbits packs p x := by
  rw [Claims, show 14 - x.2 = 14 - min x.2 14 by omega, hufPeek_shiftRight _ _ _ _ (Nat.min_le_right _ _), eq_comm,
    hufPeek_eq_msbFirst, msbFirst_eq_iff hfit.firstBits_lt]
  refine forall₂_congr fun j hj => ?_
  rw [getD_bitsOf (by omega), Nat.testBit_shiftRight, show x.2 - 14 + (min x.2 14 - 1 - j) = x.2 - 1 - j by omega, hufPBit]

theorem codeAt_iff : CodeAt m pb pbits packs p x ↔ p + x.2 ≤ pbits ∧ hufPeek m pb pbits p x.2 = packCode (packAt packs x.1) := by
  refine and_congr_right fun hin => ?_
  rw [hufPeek_eq_streamBits hin, streamBits_eq_msbFirst, msbFirst_eq_iff hfit.lt, StreamIs, length_bitsOf]
  exact forall₂_congr fun j hj => by rw [getD_bitsOf hj]

end

/-- The tables that a decode has when its payload begins: the decoding table of the symbols `ls`, which ascend, with codes of at least
one bit and their lengths in their packs. -/
structure Coded (packs : PackRam) (ls : List (Nat × Nat)) (t : DecRam) : Prop where
  built : Built packs ls t
  ascending : (ls.map (·.1)).Pairwise (· < ·)
  length : ∀ x ∈ ls, packLen (packAt packs x.1) = x.2
  one_le : ∀ x ∈ ls, 1 ≤ x.2

/-- What the search of a list of long codes tests symbol `d` for (R112). -/
def codeMatches (m : Memory) (pb pbits : Nat) (packs : PackRam) (p d : Nat) : Bool :=
  decide (p + packLen (packAt packs d) ≤ pbits) && (hufPeek m pb pbits p (packLen (packAt packs d)) == packCode (packAt packs d))

section
variable {m : Memory} {pb pbits p : Nat} {packs : PackRam} {t : DecRam} {lits : List Nat}
  (hget : t.get decBits (hufPeek m pb pbits p 14) = .long lits)
include hget

theorem hufSymbol_long_none (hfind : lits.find? (codeMatches m pb pbits packs p) = none) :
    hufSymbol m pb pbits packs t p = .error (.fHufLongmiss, u32 p) := by
  unfold codeMatches at hfind
  simp only [hufSymbol, hget, hfind]

theorem hufSymbol_long_some {s : Nat} (hfind : lits.find? (codeMatches m pb pbits packs p) = some s) :
    hufSymbol m pb pbits packs t p = .ok (s, p + packLen (packAt packs s)) := by
  unfold codeMatches at hfind
  simp only [hufSymbol, hget, hfind]

end

section
variable {m : Memory} {pb pbits p : Nat} {packs : PackRam} {ls : List (Nat × Nat)} {t : DecRam} {x : Nat × Nat}
  (hc : Coded packs ls t)
include hc

/-- No code begins the next 14 bits (R112). -/
theorem Coded.symbol_empty (h : ∀ x ∈ ls, ¬ CodeIndexed m pb pbits packs p x) :
    hufSymbol m pb pbits packs t p = .error (.fHufEmpty, u32 p) := by
  have hget : t.get decBits (hufPeek m pb pbits p decBits) = .empty := (hc.built.get_empty (hufPeek_lt ..)).2 fun x hx hcl =>
    h x hx ((claims_hufPeek_iff (hc.built.fits x hx)).1 hcl)
  rw [hufSymbol, hget]

/-- What a short code that begins the next 14 bits gives (R112). -/
theorem Coded.symbol_short (hx : x ∈ ls) (hshort : x.2 ≤ 14) (h : CodeIndexed m pb pbits packs p x) :
    hufSymbol m pb pbits packs t p = if pbits < p + x.2 then .error (.fHufTrunc, u32 p) else .ok (x.1, p + x.2) := by
  have hget := hc.built.get_short (hufPeek_lt ..) hx hshort ((claims_hufPeek_iff (hc.built.fits x hx)).2 h)
  rw [hufSymbol, hget]

theorem Coded.matches_iff (hx : x ∈ ls) : codeMatches m pb pbits packs p x.1 = true ↔ CodeAt m pb pbits packs p x := by
  rw [codeMatches, codeAt_iff (hc.built.fits x hx), hc.length x hx, Bool.and_eq_true, decide_eq_true_eq, beq_iff_eq]

/-- No long code matches and fits (R112). -/
theorem Coded.symbol_longmiss (hx : x ∈ ls) (hlong : 14 < x.2) (h : CodeIndexed m pb pbits packs p x)
    (hno : ∀ y ∈ ls, 14 < y.2 → ¬ CodeAt m pb pbits packs p y) :
    hufSymbol m pb pbits packs t p = .error (.fHufLongmiss, u32 p) := by
  obtain ⟨hall, hget⟩ := hc.built.get_long (hufPeek_lt ..) hx hlong ((claims_hufPeek_iff (hc.built.fits x hx)).2 h)
  refine hufSymbol_long_none hget (List.find?_eq_none.2 fun d hd => ?_)
  obtain ⟨y, hy, rfl⟩ := List.mem_map.1 hd
  rw [hc.matches_iff (mem_claimants.1 hy).1]
  exact hno y (mem_claimants.1 hy).1 (hall y hy)

/-- A code that stands whole gives its symbol; a long one, if it is the first that does (R112). -/
theorem Coded.symbol_code (hx : x ∈ ls) (h : CodeAt m pb pbits packs p x)
    (hfirst : 14 < x.2 → NoEarlierLongCode m pb pbits packs ls p x.1) :
    hufSymbol m pb pbits packs t p = .ok (x.1, p + x.2) := by
  have hidx := codeIndexed_of_codeAt h
  by_cases hshort : x.2 ≤ 14
  · rw [hc.symbol_short hx hshort hidx, if_neg (not_lt.2 h.1)]
  · have hlong := not_le.1 hshort
    have hclaims := (claims_hufPeek_iff (hc.built.fits x hx)).2 hidx
    obtain ⟨hall, hget⟩ := hc.built.get_long (hufPeek_lt ..) hx hlong hclaims
    obtain ⟨before, after, hsplit⟩ := List.append_of_mem (mem_claimants.2 ⟨hx, hclaims⟩)
    have hbefore : ∀ y ∈ before, y.1 < x.1 := fun y hy => by
      have hasc : (claimants packs ls (hufPeek m pb pbits p 14)).Pairwise (·.1 < ·.1) := (List.pairwise_map.1 hc.ascending).filter _
      rw [hsplit] at hasc
      exact (List.pairwise_append.1 hasc).2.2 y hy x List.mem_cons_self
    have hnone : ∀ d ∈ before.map (·.1), (!codeMatches m pb pbits packs p d) = true := fun d hd => by
      obtain ⟨y, hy, rfl⟩ := List.mem_map.1 hd
      have hmem : y ∈ claimants packs ls (hufPeek m pb pbits p 14) := hsplit ▸ List.mem_append_left _ hy
      obtain ⟨hyls, -⟩ := mem_claimants.1 hmem
      rw [Bool.not_eq_true', Bool.eq_false_iff]
      exact fun hmatch => hfirst hlong y hyls (hall y hmem) (hbefore y hy) ((hc.matches_iff hyls).1 hmatch)
    have hlist := congrArg (List.map (·.1)) hsplit
    rw [List.map_append, List.map_cons] at hlist
    have hfind := List.find?_eq_some_iff_append.2 ⟨(hc.matches_iff hx).2 h, _, _, hlist, hnone⟩
    rw [hufSymbol_long_some hget hfind, hc.length x hx]

end

/-! The items of a payload (R105, R112). -/

/-- The decode loop's samples when it has put out `out`. -/
def outOf (out : List Sample) : HufOut := ⟨out.reverse, out.length⟩

section
variable {m : Memory} {pb pbits dMax nout s p : Nat} {out : List Sample}

theorem hufItem_literal (hs : s ≠ dMax) (hroom : out.length < nout) :
    hufItem m pb pbits dMax nout s p (outOf out) = .ok (outOf (out ++ [BitVec.ofNat 16 s]), p) := by
  rw [hufItem, if_neg hs, if_neg (not_le.2 (show (outOf out).cnt < nout from hroom))]
  simp [outOf]

theorem hufItem_literal_toomuch (hs : s ≠ dMax) (hfull : out.length = nout) :
    hufItem m pb pbits dMax nout s p (outOf out) = .error (.fHufToomuch, u32 p) :=
  (if_neg hs).trans (if_pos hfull.ge)

theorem hufItem_escape_trunc (hs : s = dMax) (hpast : pbits < p + 8) :
    hufItem m pb pbits dMax nout s p (outOf out) = .error (.fHufTrunc, u32 p) :=
  (if_pos hs).trans (if_pos hpast)

theorem hufItem_escape_noprev (hs : s = dMax) (hin : p + 8 ≤ pbits) (hnil : out = []) :
    hufItem m pb pbits dMax nout s p (outOf out) = .error (.fHufRleNoprev, u32 (p + 8)) := by
  subst hnil
  exact (if_pos hs).trans (if_neg (not_lt.2 hin))

/-- An escape with its count and a sample to repeat, before its check (R112). -/
theorem hufItem_escape (hs : s = dMax) (hin : p + 8 ≤ pbits) (hne : out ≠ []) :
    hufItem m pb pbits dMax nout s p (outOf out) =
      if nout < out.length + m.streamBits pb p 8 then .error (.fHufToomuch, u32 (p + 8))
      else .ok (outOf (out ++ List.replicate (m.streamBits pb p 8) (out.getLastD 0)), p + 8) := by
  obtain ⟨init, last, rfl⟩ := List.eq_nil_or_concat out |>.resolve_left hne
  rw [hufItem, if_pos hs, if_neg (not_lt.2 hin), hufPeek_eq_streamBits hin]
  simp [outOf, Nat.add_assoc, Nat.add_comm 1]

end

section
variable {m : Memory} {pb pbits dMax nout k p : Nat} {packs : PackRam} {t : DecRam} {o : HufOut}

theorem hufPayload_end (h : pbits ≤ p) : hufPayload m pb pbits dMax nout packs t k p o = .ok o := by
  cases k with
  | zero => rfl
  | succ k => exact if_pos h

theorem hufPayload_symbol_error {r : Raise} (hp : p < pbits) (hs : hufSymbol m pb pbits packs t p = .error r) :
    hufPayload m pb pbits dMax nout packs t (k + 1) p o = .error r := by
  simp only [hufPayload, if_neg (not_le.2 hp), hs]

section
variable {s p1 : Nat} (hp : p < pbits) (hs : hufSymbol m pb pbits packs t p = .ok (s, p1))
include hp hs

theorem hufPayload_item_error {r : Raise} (hi : hufItem m pb pbits dMax nout s p1 o = .error r) :
    hufPayload m pb pbits dMax nout packs t (k + 1) p o = .error r := by
  simp only [hufPayload, if_neg (not_le.2 hp), hs, hi]

theorem hufPayload_item {o' : HufOut} {p2 : Nat} (hi : hufItem m pb pbits dMax nout s p1 o = .ok (o', p2)) :
    hufPayload m pb pbits dMax nout packs t (k + 1) p o = hufPayload m pb pbits dMax nout packs t k p2 o' := by
  simp only [hufPayload, if_neg (not_le.2 hp), hs, hi]

end

end

theorem payloadSamples_append (items items' : List PayloadItem) (out : List Sample) :
    payloadSamples (items ++ items') out = payloadSamples items' (payloadSamples items out) := by
  induction items generalizing out with
  | nil => rfl
  | cons it items ih => cases it <;> exact ih _

/-- Items put out samples and take none back. -/
theorem length_le_payloadSamples (items : List PayloadItem) (out : List Sample) : out.length ≤ (payloadSamples items out).length := by
  induction items generalizing out with
  | nil => exact Nat.le_refl _
  | cons it items ih => cases it <;> exact Nat.le_trans (by simp) (ih _)

/-- The bit that items end at. -/
abbrev payloadEnd (packs : PackRam) (dMax : Nat) (items : List PayloadItem) : Nat :=
  (items.flatMap (PayloadItem.bits packs dMax)).length

section
variable {m : Memory} {pb pbits dMax nout : Nat} {packs : PackRam} {ls : List (Nat × Nat)} {t : DecRam} {items items' : List PayloadItem}
  {it : PayloadItem}

theorem PayloadBegins.of_append (h : PayloadBegins m pb pbits packs ls dMax (items ++ items')) :
    PayloadBegins m pb pbits packs ls dMax items := by
  obtain ⟨hfirst, hitems, hstream, hlen, hlong⟩ := h
  rw [List.flatMap_append] at hstream hlen
  refine ⟨fun n rest he => hfirst n (rest ++ items') (by rw [he, List.cons_append]),
    fun it hit => hitems it (List.mem_append_left _ hit), (streamIs_append.1 hstream).1, ?_,
    fun before it after he => hlong before it (after ++ items') (by rw [he, List.append_assoc, List.cons_append])⟩
  rw [List.length_append] at hlen
  omega

/-- An escape has a sample to repeat, as the first item is a literal (R105). -/
theorem PayloadBegins.samples_ne_nil {n : Nat} (h : PayloadBegins m pb pbits packs ls dMax (items ++ [.again n])) :
    payloadSamples items [] ≠ [] := by
  obtain ⟨hfirst, -⟩ := h
  cases items with
  | nil => exact absurd rfl (hfirst n [])
  | cons it items =>
    cases it with
    | again n' => exact absurd rfl (hfirst n' (items ++ [.again n]))
    | literal s => exact List.ne_nil_of_length_pos (length_le_payloadSamples items [BitVec.ofNat 16 s])

/-- The bits of an item after its code (R105). -/
def PayloadItem.countBits : PayloadItem → List Bool
  | .literal _ => []
  | .again n => bitsOf 8 n

theorem PayloadItem.bits_eq (packs : PackRam) (dMax : Nat) (it : PayloadItem) :
    it.bits packs dMax =
      bitsOf (packLen (packAt packs (it.symbol dMax))) (packCode (packAt packs (it.symbol dMax))) ++ it.countBits := by
  cases it with
  | literal s => exact (List.append_nil _).symm
  | again n => rfl

theorem PayloadBegins.last_symbol (h : PayloadBegins m pb pbits packs ls dMax (items ++ [it])) :
    it.Ok dMax ∧ ∃ x ∈ ls, x.1 = it.symbol dMax := by
  obtain ⟨-, hitems, -⟩ := h
  obtain ⟨hok, l, hl⟩ := hitems it (by simp)
  exact ⟨hok, _, hl, rfl⟩

section
variable {x : Nat × Nat} (hc : Coded packs ls t) (hx : x ∈ ls) (hsym : x.1 = it.symbol dMax)
include hc hx hsym

theorem Coded.payloadEnd_snoc :
    payloadEnd packs dMax (items ++ [it]) = payloadEnd packs dMax items + x.2 + it.countBits.length := by
  simp only [payloadEnd, List.flatMap_append, List.flatMap_singleton, List.length_append, PayloadItem.bits_eq, length_bitsOf, ← hsym,
    hc.length x hx, Nat.add_assoc]

variable (h : PayloadBegins m pb pbits packs ls dMax (items ++ [it]))
include h

theorem PayloadBegins.last_fits : payloadEnd packs dMax items + x.2 + it.countBits.length ≤ pbits := by
  rw [← hc.payloadEnd_snoc hx hsym]
  exact h.2.2.2.1

/-- The code of the last item stands where the items before it end, and its count after the code (R105). -/
theorem PayloadBegins.last_stands :
    CodeAt m pb pbits packs (payloadEnd packs dMax items) x ∧
      StreamIs m pb (payloadEnd packs dMax items + x.2) it.countBits := by
  have hfits := h.last_fits hc hx hsym
  obtain ⟨-, -, hstream, -, -⟩ := h
  rw [List.flatMap_append, List.flatMap_singleton, PayloadItem.bits_eq, streamIs_append, streamIs_append, ← hsym, hc.length x hx,
    length_bitsOf, Nat.zero_add] at hstream
  obtain ⟨-, hcode, hcount⟩ := hstream
  exact ⟨⟨by omega, hcode⟩, hcount⟩

/-- The last item gives its samples and ends where the items end (R112). -/
theorem PayloadBegins.last_item (hroom : (payloadSamples (items ++ [it]) []).length ≤ nout) :
    hufItem m pb pbits dMax nout x.1 (payloadEnd packs dMax items + x.2) (outOf (payloadSamples items [])) =
      .ok (outOf (payloadSamples (items ++ [it]) []), payloadEnd packs dMax (items ++ [it])) := by
  have hfits := h.last_fits hc hx hsym
  obtain ⟨hok, -⟩ := h.last_symbol
  rw [hc.payloadEnd_snoc hx hsym]
  rw [payloadSamples_append] at hroom ⊢
  cases it with
  | literal s =>
    have hlen : (payloadSamples items [] ++ [BitVec.ofNat 16 s]).length ≤ nout := hroom
    have hne : x.1 ≠ dMax := hsym ▸ Nat.ne_of_lt hok
    rw [List.length_append] at hlen
    rw [hufItem_literal hne hlen, hsym]
    rfl
  | again n =>
    obtain ⟨-, hcount⟩ := h.last_stands hc hx hsym
    have hlen : (payloadSamples items [] ++ List.replicate n ((payloadSamples items []).getLastD 0)).length ≤ nout := hroom
    have hn : m.streamBits pb (payloadEnd packs dMax items + x.2) 8 = n := streamBits_of_streamIs (Nat.lt_succ_of_le hok) hcount
    rw [List.length_append, List.length_replicate] at hlen
    rw [PayloadItem.countBits, length_bitsOf] at hfits ⊢
    rw [hufItem_escape (show x.1 = dMax from hsym) hfits h.samples_ne_nil, hn, if_neg (not_lt.2 hlen)]
    rfl

/-- The last item is read by one turn of the loop (R112). -/
theorem PayloadBegins.last_turn {k : Nat} (hroom : (payloadSamples (items ++ [it]) []).length ≤ nout) :
    hufPayload m pb pbits dMax nout packs t (k + 1) (payloadEnd packs dMax items) (outOf (payloadSamples items [])) =
      hufPayload m pb pbits dMax nout packs t k (payloadEnd packs dMax (items ++ [it]))
        (outOf (payloadSamples (items ++ [it]) [])) := by
  have hitem := h.last_item hc hx hsym hroom
  obtain ⟨hcode, -⟩ := h.last_stands hc hx hsym
  obtain ⟨-, -, -, -, hlong⟩ := h
  have hfirst : 14 < x.2 → NoEarlierLongCode m pb pbits packs ls (payloadEnd packs dMax items) x.1 := fun h14 =>
    hsym ▸ hlong items it [] rfl x.2 (hsym ▸ hx) h14
  have hmore : payloadEnd packs dMax items < pbits := (Nat.lt_add_of_pos_right (hc.one_le x hx)).trans_le hcode.1
  exact hufPayload_item hmore (hc.symbol_code hx hcode hfirst) hitem

end

/-- The loop goes over items that begin the payload, one turn an item (R112). -/
theorem hufPayload_items (hc : Coded packs ls t) (h : PayloadBegins m pb pbits packs ls dMax items)
    (hroom : (payloadSamples items []).length ≤ nout) (k : Nat) :
    hufPayload m pb pbits dMax nout packs t (k + items.length) 0 ⟨[], 0⟩ =
      hufPayload m pb pbits dMax nout packs t k (payloadEnd packs dMax items) (outOf (payloadSamples items [])) := by
  induction items using List.reverseRecOn generalizing k with
  | nil => rfl
  | append_singleton items it ih =>
    obtain ⟨-, x, hx, hsym⟩ := h.last_symbol
    have hprefix : (payloadSamples items []).length ≤ nout := by
      rw [payloadSamples_append] at hroom
      exact (length_le_payloadSamples [it] _).trans hroom
    rw [List.length_append, List.length_singleton, ← Nat.add_assoc, Nat.add_right_comm, ih h.of_append hprefix,
      h.last_turn hc hx hsym hroom]

/-- Every item has at least one bit. -/
theorem Coded.length_le_payloadEnd (hc : Coded packs ls t) (h : PayloadBegins m pb pbits packs ls dMax items) :
    items.length ≤ payloadEnd packs dMax items := by
  induction items using List.reverseRecOn with
  | nil => exact Nat.zero_le _
  | append_singleton items it ih =>
    obtain ⟨-, x, hx, hsym⟩ := h.last_symbol
    have hpos := hc.one_le x hx
    have hrest := ih h.of_append
    rw [hc.payloadEnd_snoc hx hsym, List.length_append, List.length_singleton]
    omega

end

end Sys2Proof.Machine

namespace Sys2Proof.Machine

/-! Whole blocks (R105, R106, R113). -/

theorem hufUnpack_ascending {m : Memory} {src : Nat} {h : HufHeader} {ls : List (Nat × Nat)} (hu : hufUnpack m src h = .ok ls) :
    (ls.map (·.1)).Pairwise (· < ·) := by
  unfold hufUnpack at hu
  split at hu
  · cases hu
  · rename_i hl
    split at hu
    · cases hu
    · cases hu
      exact (hufLengths_range hl).2

/-- Phases 2 to 5 of the block of `len` bytes at `src` have succeeded, with the header `h`, the lengths `ls` and the decoding table
`t`. -/
structure Unpacked (m : Memory) (src len : Nat) (h : HufHeader) (ls : List (Nat × Nat)) (t : DecRam) : Prop where
  header : hufHeader m src len = .ok h
  lengths : hufUnpack m src h = .ok ls
  build : hufBuild (hufPacks ls) ls (.leaf .empty) = .ok t

section
variable {m : Memory} {src len nout : Nat} {h : HufHeader} {ls : List (Nat × Nat)} {t : DecRam}

theorem unpacked_of_items {table : List TableItem} (hf : HufFramed m src len h) (ht : HufTabled m src h table)
    (hls : ls = tableLengths table h.dMin) (hb : hufBuild (hufPacks ls) ls (.leaf .empty) = .ok t) : Unpacked m src len h ls t := by
  obtain ⟨-, -, hle, -⟩ := id hf
  obtain ⟨hok, hcov, hs, hfill⟩ := ht
  have hlengths := hufUnpack_whole hok hs (le_mul_of_ceil8_le hfill.le) hcov hle
  rw [if_neg (not_not.2 hfill), ← hls] at hlengths
  exact ⟨hufHeader_of_framed hf, hlengths, hb⟩

variable (hu : Unpacked m src len h ls t)
include hu

theorem Unpacked.coded : Coded (hufPacks ls) ls t := by
  obtain ⟨hheader, hlengths, hbuild⟩ := hu
  have hls : LengthsOk ls := hufUnpack_range (hufHeader_dMax hheader) hlengths
  have hasc := hufUnpack_ascending hlengths
  exact ⟨built_of_hufBuild hbuild, hasc, fun x => packLen_hufPacks hasc hls, fun x hx => (hls x hx).2.1⟩

/-- An error of the payload's decode is the block's (R106). -/
theorem Unpacked.decode_error {r : Raise}
    (hp : hufPayload m (src + 20 + h.tableLength) h.payloadBits h.dMax nout (hufPacks ls) t h.payloadBits 0 ⟨[], 0⟩ = .error r) :
    hufDecodeBlock m src len nout = .error r := by
  simp only [hufDecodeBlock, hu.header, hu.lengths, hu.build, hp]

/-- A payload that gives too few samples is refused (R113). -/
theorem Unpacked.decode_notenough {o : HufOut}
    (hp : hufPayload m (src + 20 + h.tableLength) h.payloadBits h.dMax nout (hufPacks ls) t h.payloadBits 0 ⟨[], 0⟩ = .ok o)
    (hne : o.cnt ≠ nout) : hufDecodeBlock m src len nout = .error (.fHufNotenough, u32 o.cnt) := by
  simp only [hufDecodeBlock, hu.header, hu.lengths, hu.build, hp, if_pos hne]

theorem Unpacked.decode_ok {o : HufOut}
    (hp : hufPayload m (src + 20 + h.tableLength) h.payloadBits h.dMax nout (hufPacks ls) t h.payloadBits 0 ⟨[], 0⟩ = .ok o)
    (hcnt : o.cnt = nout) : hufDecodeBlock m src len nout = .ok ⟨h, hufPacks ls, t, o.rev.reverse⟩ := by
  simp only [hufDecodeBlock, hu.header, hu.lengths, hu.build, hp, if_neg (not_not.2 hcnt)]

variable {items : List PayloadItem}
  (hbegins : PayloadBegins m (src + 20 + h.tableLength) h.payloadBits (hufPacks ls) ls h.dMax items)
  (hroom : (payloadSamples items []).length ≤ nout)
include hbegins hroom

/-- Items that fill the payload leave the loop with their samples (R112). -/
theorem Unpacked.payload_filled (hfill : payloadEnd (hufPacks ls) h.dMax items = h.payloadBits) :
    hufPayload m (src + 20 + h.tableLength) h.payloadBits h.dMax nout (hufPacks ls) t h.payloadBits 0 ⟨[], 0⟩ =
      .ok (outOf (payloadSamples items [])) := by
  obtain ⟨k, hk⟩ := Nat.exists_eq_add_of_le' (hu.coded.length_le_payloadEnd hbegins)
  have hturns : h.payloadBits = k + items.length := hfill ▸ hk
  have hloop := hufPayload_items hu.coded hbegins hroom k
  rw [← hturns] at hloop
  rw [hloop, hufPayload_end hfill.ge]

/-- Items that leave payload bits are followed by a turn that reads at their end (R112). -/
theorem Unpacked.payload_next (hmore : payloadEnd (hufPacks ls) h.dMax items < h.payloadBits) :
    ∃ k, hufPayload m (src + 20 + h.tableLength) h.payloadBits h.dMax nout (hufPacks ls) t h.payloadBits 0 ⟨[], 0⟩ =
      hufPayload m (src + 20 + h.tableLength) h.payloadBits h.dMax nout (hufPacks ls) t (k + 1)
        (payloadEnd (hufPacks ls) h.dMax items) (outOf (payloadSamples items [])) := by
  obtain ⟨k, hk⟩ := Nat.exists_eq_add_of_le' ((hu.coded.length_le_payloadEnd hbegins).trans_lt hmore)
  have hturns : h.payloadBits = k + 1 + items.length := by omega
  have hloop := hufPayload_items hu.coded hbegins hroom (k + 1)
  rw [← hturns] at hloop
  exact ⟨k, hloop⟩

/-- No symbol stands where the items end (R112). -/
theorem Unpacked.decode_symbol_error {r : Raise} (hmore : payloadEnd (hufPacks ls) h.dMax items < h.payloadBits)
    (hs : hufSymbol m (src + 20 + h.tableLength) h.payloadBits (hufPacks ls) t (payloadEnd (hufPacks ls) h.dMax items) = .error r) :
    hufDecodeBlock m src len nout = .error r := by
  obtain ⟨k, hk⟩ := hu.payload_next hbegins hroom hmore
  exact hu.decode_error (hk.trans (hufPayload_symbol_error hmore hs))

/-- The symbol whose code stands where the items end cannot be put out (R112). -/
theorem Unpacked.decode_item_error {r : Raise} {x : Nat × Nat} (hx : x ∈ ls)
    (hcode : CodeAt m (src + 20 + h.tableLength) h.payloadBits (hufPacks ls) (payloadEnd (hufPacks ls) h.dMax items) x)
    (hlong : 14 < x.2 → NoEarlierLongCode m (src + 20 + h.tableLength) h.payloadBits (hufPacks ls) ls
      (payloadEnd (hufPacks ls) h.dMax items) x.1)
    (hr : hufItem m (src + 20 + h.tableLength) h.payloadBits h.dMax nout x.1 (payloadEnd (hufPacks ls) h.dMax items + x.2)
      (outOf (payloadSamples items [])) = .error r) :
    hufDecodeBlock m src len nout = .error r := by
  have hmore : payloadEnd (hufPacks ls) h.dMax items < h.payloadBits :=
    (Nat.lt_add_of_pos_right (hu.coded.one_le x hx)).trans_le hcode.1
  obtain ⟨k, hk⟩ := hu.payload_next hbegins hroom hmore
  exact hu.decode_error (hk.trans (hufPayload_item_error hmore (hu.coded.symbol_code hx hcode hlong) hr))

end

/-- Settles O52: the table's items by `hufUnpack_whole`, the payload's by `hufPayload_items`. -/
theorem hufRoundTrip : Obligations.HufRoundTrip := by
  intro s src len dst nout h table ls payload t hc hwf hraced hf ht hls hb hbegins hfill hlen
  have hu := unpacked_of_items hf ht hls hb
  have hblock := hu.decode_ok (hu.payload_filled hbegins hlen.le hfill) hlen
  refine ⟨_, exec_hufDecode_ok hc hblock, by simp, rfl, rfl, fun i hi => ?_⟩
  rw [retire_dmem, hufDone_dmem, commit_clean hraced]
  simp only [outOf, List.reverse_reverse]
  rw [sample_writeSamples hwf _ _ i (by omega), List.getD_eq_getElem _ _ (by omega)]

/-- Settles O6: the errors where the items end, by the table's entry there, by the symbol's item, and by the number of samples. -/
theorem hufPayloadErrors : Obligations.HufPayloadErrors := by
  intro s src len dst nout h table ls items t pb p out packs hc hf ht hls hpacks hb hpb hbegins hp hout hroom
  subst hpacks hpb hp hout
  have hu := unpacked_of_items hf ht hls hb
  have hcoded := hu.coded
  obtain ⟨u, hexec, hraises⟩ := exec_hufDecode_raises hc
  have hsymbol := fun hmore {r : Raise} hs => hraises r.1 r.2 (hu.decode_symbol_error hbegins hroom (r := r) hmore hs)
  have hitem := fun {r : Raise} {x : Nat × Nat} hx hcode hlong hr =>
    hraises r.1 r.2 (hu.decode_item_error hbegins hroom (r := r) (x := x) hx hcode hlong hr)
  refine ⟨u, hexec, fun hend hless => ?_, fun hmore hno => ?_, fun hmore ⟨x, hx, hshort, hidx, hcut⟩ => ?_,
    fun hmore ⟨x, hx, hlong, hidx⟩ hno => ?_, fun x hx hcode hfirst =>
      ⟨fun hesc hcut => ?_, fun hesc hin hnil => ?_, fun hesc hin hne hmany => ?_, fun hlit hfull => ?_⟩⟩
  · exact hraises _ _ (hu.decode_notenough (hu.payload_filled hbegins hroom hend) hless.ne)
  · exact hsymbol hmore (hcoded.symbol_empty hno)
  · exact hsymbol hmore ((hcoded.symbol_short hx hshort hidx).trans (if_pos hcut))
  · exact hsymbol hmore (hcoded.symbol_longmiss hx hlong hidx hno)
  · exact hitem hx hcode hfirst (hufItem_escape_trunc hesc hcut)
  · exact hitem hx hcode hfirst (hufItem_escape_noprev hesc hin hnil)
  · exact hitem hx hcode hfirst ((hufItem_escape hesc hin hne).trans (if_pos hmany))
  · exact hitem hx hcode hfirst (hufItem_literal_toomuch hlit hfull)

end Sys2Proof.Machine

namespace Sys2Proof.Machine

/-! ## The wavelet unit -/

/-! The checks of both commands (R119, R120). -/

theorem ne_reserved_of_wellFormed {wm : WavMode} (h : wm.wellFormed = true) : wm ≠ .reserved := by
  rintro rfl
  cases h

/-- The choice of the variant (R120). -/
theorem wavIs16_iff (wm : WavMode) (s : State) : wavIs16 wm s = true ↔ wm = .w16 ∨ (wm = .auto ∧ 16384 ≤ s.lutMax.toNat) := by
  cases wm <;> simp [wavIs16]

theorem wavIs16_eq {wm : WavMode} {s : State} {is16 : Bool} (h : is16 = true ↔ wm = .w16 ∨ (wm = .auto ∧ 16384 ≤ s.lutMax.toNat)) :
    wavIs16 wm s = is16 := Bool.eq_iff_iff.2 ((wavIs16_iff wm s).trans h.symm)

section
variable {wm : WavMode} {pl : Plane} {s : State}

theorem wavCheck_odd (hodd : pl.base % 2 ≠ 0) : wavCheck wm pl s = some (.pAlign, u32 pl.base) := if_pos hodd

variable (heven : pl.base % 2 = 0)
include heven

theorem wavCheck_geometry (hgeo : ¬ pl.Geometry) : wavCheck wm pl s = some (.pGeom, 0) := by
  rw [wavCheck, if_neg (not_not.2 heven), if_pos hgeo]

variable (hgeo : pl.Geometry)
include hgeo

theorem wavCheck_outside (hout : ¬ s.inRange pl.base pl.span) : wavCheck wm pl s = some (.pRange, u32 pl.base) := by
  rw [wavCheck, if_neg (not_not.2 heven), if_neg (not_not.2 hgeo), if_pos hout]

variable (hin : s.inRange pl.base pl.span)
include hin

theorem wavCheck_no_lut (hauto : wm = .auto) (hval : s.valid.lutv = false) : wavCheck wm pl s = some (.pState, 1) := by
  rw [wavCheck, if_neg (not_not.2 heven), if_neg (not_not.2 hgeo), if_neg (not_not.2 hin), if_pos ⟨hauto, hval⟩]

theorem wavCheck_passes (hval : wm = .auto → s.valid.lutv = true) : wavCheck wm pl s = none :=
  wavCheck_none.2 ⟨heven, hgeo, hin, fun ⟨hauto, hno⟩ => by simp [hval hauto] at hno⟩

end

section
variable {f : Bool → Plane → Memory → Memory} {opc : Byte} {wm : WavMode} {pl : Plane} {s : State} (hwm : wm.wellFormed = true)
include hwm

theorem wavCommand_small (hmin : min pl.nx pl.ny < 2) : wavCommand f opc wm pl s = .next s.retire := by
  rw [wavCommand, if_neg (ne_reserved_of_wellFormed hwm), if_pos hmin]

variable (hmin : 2 ≤ min pl.nx pl.ny)
include hmin

theorem wavCommand_raises {e : ErrCode} {info : Word} (hc : wavCheck wm pl s = some (e, info)) :
    wavCommand f opc wm pl s = .next (s.errorStep e info) := by
  rw [wavCommand, if_neg (ne_reserved_of_wellFormed hwm), if_neg (not_lt.2 hmin), hc]
  rfl

/-- A wavelet command that passes its checks stores its transform's DMEM and retires. -/
theorem wavCommand_completes (hc : wavCheck wm pl s = none) (hraced : s.hostRaced = false) :
    wavCommand f opc wm pl s = .next ({ s with dmem := f (wavIs16 wm s) pl s.dmem } : State).retire := by
  rw [wavCommand, if_neg (ne_reserved_of_wellFormed hwm), if_neg (not_lt.2 hmin), hc, ← commit_clean hraced _ pl.written]

end

/-- Both commands are `wavCommand` of a transform that keeps whatever storing the samples it writes keeps. -/
theorem exec_eq_wavCommand {wm : WavMode} {base nx ny ox oy : Word} {i : Instr}
    (hi : i = .wavFwd wm base nx ny ox oy ∨ i = .wavInv wm base nx ny ox oy) :
    ∃ f opc, (∀ s, exec i s = wavCommand f opc wm (planeOf base nx ny ox oy) s) ∧
      ∀ Q : Memory → Prop, (planeOf base nx ny ox oy).Keeps Q → ∀ is16 m, Q m → Q (f is16 (planeOf base nx ny ox oy) m) := by
  rcases hi with rfl | rfl
  · exact ⟨wavForwardOf, 0x40, fun _ => rfl, fun _ hQ is16 _ => wavForward_keeps hQ is16⟩
  · exact ⟨wavInverseOf, 0x41, fun _ => rfl, fun _ hQ is16 _ => wavInverse_keeps hQ is16⟩

/-- Settles O54: the checks by their order; a byte of no sample written is kept by every store of the transform. -/
theorem wavChecksInOrder : Obligations.WavChecksInOrder := by
  intro s wm base nx ny ox oy i hwm hi
  obtain ⟨f, opc, hexec, hkeeps⟩ := exec_eq_wavCommand hi
  simp only [hexec]
  refine ⟨fun hmin => wavCommand_small hwm hmin, fun hmin hodd => ?_, fun hmin heven hgeo => ?_, fun hmin heven hgeo hout => ?_,
    fun hmin heven hgeo hin hauto hval => ?_, fun hmin heven hgeo hin hval hwf hraced => ?_⟩
  · rw [wavCommand_raises hwm hmin (wavCheck_odd hodd), planeOf, u32_toNat]
  · exact wavCommand_raises hwm hmin (wavCheck_geometry heven hgeo)
  · rw [wavCommand_raises hwm hmin (wavCheck_outside heven hgeo hout), planeOf, u32_toNat]
  · exact wavCommand_raises hwm hmin (wavCheck_no_lut heven hgeo hin hauto hval)
  · exact ⟨_, wavCommand_completes hwm hmin (wavCheck_passes heven hgeo hin hval) hraced,
      fun a ha => (hkeeps _ (plane_keeps_byte ha _) _ _ ⟨hwf, rfl⟩).2⟩

/-! The scales (R123). -/

theorem mem_wavLevels_iff (nx ny : Word) (p : Nat) :
    p ∈ wavLevels nx.toNat ny.toNat ↔ (∃ j, p = 2 ^ j) ∧ 2 * p ≤ min nx.toNat ny.toNat := by
  constructor
  · intro h
    obtain ⟨⟨j, -, hj⟩, hle⟩ := mem_wavLevels h
    exact ⟨⟨j, hj⟩, hle⟩
  · rintro ⟨⟨j, rfl⟩, hle⟩
    have hj : j < 32 := (Nat.pow_lt_pow_iff_right (by decide)).1 (show 2 ^ j < 2 ^ 32 by omega)
    exact List.mem_filter.2 ⟨List.mem_map.2 ⟨j, List.mem_range.2 hj, rfl⟩, decide_eq_true hle⟩

/-- The block size of a scale divides every later scale. -/
theorem wavLevels_pairwise_dvd (nx ny : Nat) : (wavLevels nx ny).Pairwise fun p p' => 2 * p ∣ p' :=
  .filter _ (List.pairwise_map.2 (List.pairwise_lt_range.imp fun {i j} hij => by
    rw [← Nat.pow_succ']
    exact Nat.pow_dvd_pow 2 hij))

theorem pos_of_mem_wavLevels {nx ny p : Nat} (h : p ∈ wavLevels nx ny) : 0 < p := by
  obtain ⟨⟨j, -, rfl⟩, -⟩ := mem_wavLevels h
  exact Nat.two_pow_pos j

theorem wavLevels_pairwise_lt (nx ny : Nat) : (wavLevels nx ny).Pairwise (· < ·) :=
  (wavLevels_pairwise_dvd nx ny).imp_of_mem fun {p p'} hp hp' hdvd => by
    have hpos := pos_of_mem_wavLevels hp
    have hle := Nat.le_of_dvd (pos_of_mem_wavLevels hp') hdvd
    omega

/-- Settles O56: the scales are a filter of the ascending powers of two, and the transforms are folds over them. -/
theorem wavRunsItsScales : Obligations.WavRunsItsScales := by
  refine ⟨mem_wavLevels_iff, wavLevels_pairwise_lt, ?_⟩
  rintro s wm base nx ny ox oy is16 _ hwm his16 hval rfl hmin heven hgeo hin hraced
  have hc := wavCheck_passes (wm := wm) heven hgeo hin hval
  rw [← wavIs16_eq his16]
  exact ⟨wavCommand_completes hwm hmin hc hraced, wavCommand_completes hwm hmin hc hraced⟩

/-! The pair operations (R121, R122). -/

/-- An arithmetic right shift by one is the halving that rounds down. -/
theorem int_shiftRight_one (x : Int) : x >>> (1 : Int) = x / 2 :=
  (Int.shiftRight_natCast_right x 1).trans (Int.shiftRight_eq_div_pow x 1)

theorem toInt_u16 {x : Int} (hlo : -32768 ≤ x) (hhi : x < 32768) : (u16 x).toInt = x :=
  BitVec.toInt_ofInt_eq_self (by decide) hlo hhi

theorem u16_eq_of_emod_eq {x : Int} {a : Sample} (h : x % 65536 = a.toNat) : u16 x = a := by
  apply BitVec.eq_of_toNat_eq
  rw [BitVec.toNat_ofInt]
  omega

section
variable {a b : Sample} (hlo : -32768 ≤ a.toInt - b.toInt) (hhi : a.toInt - b.toInt ≤ 32767)

/-- The average that `enc14` gives, in signed arithmetic. -/
theorem toInt_enc14_fst (a b : Sample) : (enc14 a b).1.toInt = (a.toInt + b.toInt) / 2 := by
  have ha := And.intro a.le_toInt a.toInt_lt
  have hb := And.intro b.le_toInt b.toInt_lt
  simp only [enc14, s16, int_shiftRight_one]
  exact toInt_u16 (by omega) (by omega)

include hlo hhi

/-- The difference that `enc14` gives, when it fits. -/
theorem toInt_enc14_snd : (enc14 a b).2.toInt = a.toInt - b.toInt := toInt_u16 hlo (show a.toInt - b.toInt < 32768 by omega)

/-- `dec14` recovers a pair whose difference fits: the parity of the difference is the bit that the average has lost. -/
theorem dec14_enc14 : dec14 (enc14 a b).1 (enc14 a b).2 = (a, b) := by
  have hfst : (a.toInt + b.toInt) / 2 + (a.toInt - b.toInt) % 2 + (a.toInt - b.toInt) / 2 = a.toInt := by omega
  simp only [dec14, s16, int_shiftRight_one, Nat.cast_ofNat, toInt_enc14_fst, toInt_enc14_snd hlo hhi, hfst,
    Int.sub_sub_self, BitVec.ofInt_toInt]

end

/-- `dec16` recovers every pair: `h` is the difference modulo 2^16, and `enc16` has added half of what the modulus added to it. -/
theorem dec16_enc16 (a b : Sample) : dec16 (enc16 a b).1 (enc16 a b).2 = (a, b) := by
  have ha := a.isLt
  have hb := b.isLt
  have hsnd : u16 (((enc16 a b).1.toNat : Int) - ((enc16 a b).2.toNat / 2 : Nat)) = b := by
    apply u16_eq_of_emod_eq
    simp only [enc16]
    split <;> simp only [BitVec.toNat_ofNat, BitVec.toNat_ofInt] <;> omega
  have hfst : u16 (((enc16 a b).2.toNat : Int) + b.toNat - 0x8000) = a := by
    apply u16_eq_of_emod_eq
    simp only [enc16, BitVec.toNat_ofInt]
    omega
  simp only [dec16, hsnd, hfst]

/-- A sample below 2^14 is the same number signed. -/
theorem toInt_of_lt_w14 {a : Sample} (h : a.toNat < 16384) : a.toInt = a.toNat := BitVec.toInt_eq_toNat_of_lt (by omega)

/-- Settles O58: the pairs whose difference fits, which it does below 2^14. -/
theorem pairOperationsInvert : Obligations.PairOperationsInvert := by
  refine ⟨dec16_enc16, fun _ _ => dec14_enc14, fun a b ha hb => ?_⟩
  have ha' := toInt_of_lt_w14 ha
  have hb' := toInt_of_lt_w14 hb
  exact dec14_enc14 (by omega) (by omega)

end Sys2Proof.Machine

namespace Sys2Proof.Machine

/-! A plane as its samples (R118, R119). -/

/-- The position of a sample that the plane has. -/
abbrev Plane.Has (pl : Plane) (q : Nat × Nat) : Prop := q.1 < pl.nx ∧ q.2 < pl.ny

/-- Rows of `n` samples at stride `s`, a row's length apart at least, tell their positions by the offset. -/
theorem grid_injective {n s t x y x' y' : Nat} (hs : 1 ≤ s) (ht : n * s ≤ t) (hx : x < n) (hx' : x' < n)
    (h : x * s + y * t = x' * s + y' * t) : x = x' ∧ y = y' := by
  have hrow : ∀ v, v < n → v * s < t := fun v hv => (Nat.mul_lt_mul_of_pos_right hv hs).trans_le ht
  have hpos : 0 < t := (hrow x hx).pos
  have hy := congrArg (· / t) h
  simp only [Nat.add_mul_div_right _ _ hpos, Nat.div_eq_of_lt (hrow x hx), Nat.div_eq_of_lt (hrow x' hx'), Nat.zero_add] at hy
  subst hy
  exact ⟨Nat.eq_of_mul_eq_mul_right hs (Nat.add_right_cancel h), rfl⟩

/-- Distinct samples of a plane do not overlap (R119). -/
theorem addr_apart {pl : Plane} (hgeo : pl.Geometry) {q q' : Nat × Nat} (hq : pl.Has q) (hq' : pl.Has q') (hne : q ≠ q') :
    pl.addr q.1 q.2 + 2 ≤ pl.addr q'.1 q'.2 ∨ pl.addr q'.1 q'.2 + 2 ≤ pl.addr q.1 q.2 := by
  have hoffset : q.1 * pl.ox + q.2 * pl.oy ≠ q'.1 * pl.ox + q'.2 * pl.oy := by
    intro h
    rcases hgeo with ⟨hs, ht⟩ | ⟨hs, ht⟩
    · obtain ⟨h1, h2⟩ := grid_injective hs ht hq.1 hq'.1 h
      exact hne (Prod.ext h1 h2)
    · rw [Nat.add_comm, Nat.add_comm (q'.1 * pl.ox)] at h
      obtain ⟨h2, h1⟩ := grid_injective hs ht hq.2 hq'.2 h
      exact hne (Prod.ext h1 h2)
  simp only [Plane.addr]
  omega

section
variable {pl : Plane} {m : Memory} (hwf : m.wf = true)
include hwf

theorem wf_put (x y : Nat) (v : Sample) : (pl.put m x y v).wf = true := wf_setSample hwf _ _

theorem get_put_same (x y : Nat) (v : Sample) : pl.get (pl.put m x y v) x y = v := sample_setSample_same hwf _ _

theorem get_put_other (hgeo : pl.Geometry) {q q' : Nat × Nat} (hq : pl.Has q) (hq' : pl.Has q') (hne : q' ≠ q) (v : Sample) :
    pl.get (pl.put m q.1 q.2 v) q'.1 q'.2 = pl.get m q'.1 q'.2 :=
  sample_setSample_other hwf v (addr_apart hgeo hq' hq hne)

end

/-- The samples at some positions. -/
def Plane.samples (pl : Plane) (m : Memory) (qs : List (Nat × Nat)) : List Sample := qs.map fun q => pl.get m q.1 q.2

/-- Samples stored at some positions, one after another. -/
def Plane.putAll (pl : Plane) : List (Nat × Nat) → List Sample → Memory → Memory
  | q :: qs, v :: vs, m => pl.putAll qs vs (pl.put m q.1 q.2 v)
  | _, _, m => m

section
variable {pl : Plane} {qs : List (Nat × Nat)} {vs : List Sample} {m : Memory} (hwf : m.wf = true)
include hwf

theorem wf_putAll : (pl.putAll qs vs m).wf = true := by
  induction qs, vs, m using Plane.putAll.induct pl with
  | case1 q qs v vs m ih => exact ih (wf_put hwf _ _ _)
  | case2 => simpa only [Plane.putAll]

variable (hgeo : pl.Geometry) (hqs : ∀ q ∈ qs, pl.Has q)
include hgeo hqs

theorem get_putAll_other {q' : Nat × Nat} (hq' : pl.Has q') (hnot : q' ∉ qs) :
    pl.get (pl.putAll qs vs m) q'.1 q'.2 = pl.get m q'.1 q'.2 := by
  induction qs, vs, m using Plane.putAll.induct pl with
  | case1 q qs v vs m ih =>
    obtain ⟨hne, hnot⟩ := not_or.1 (List.mem_cons.not.1 hnot)
    obtain ⟨hq, hqs⟩ := List.forall_mem_cons.1 hqs
    exact (ih (wf_put hwf _ _ _) hqs hnot).trans (get_put_other hwf hgeo hq hq' hne v)
  | case2 => simp only [Plane.putAll]

theorem samples_putAll (hnodup : qs.Nodup) (hlen : vs.length = qs.length) : pl.samples (pl.putAll qs vs m) qs = vs := by
  induction qs generalizing vs m with
  | nil => exact (List.length_eq_zero_iff.1 hlen).symm
  | cons q qs ih =>
    obtain ⟨v, vs, rfl⟩ := List.exists_cons_of_length_eq_add_one hlen
    obtain ⟨hq, hqs⟩ := List.forall_mem_cons.1 hqs
    obtain ⟨hnot, hnodup⟩ := List.nodup_cons.1 hnodup
    have hwf' := wf_put (pl := pl) hwf q.1 q.2 v
    refine congrArg₂ List.cons ?_ (ih hwf' hqs hnodup (Nat.succ.inj hlen))
    exact (get_putAll_other hwf' hgeo hqs hq hnot).trans (get_put_same hwf _ _ _)

end

/-- The samples at some positions replaced by `F` of them, one set of positions after another. -/
def Plane.rewriteAll (pl : Plane) (F : List Sample → List Sample) (ts : List (List (Nat × Nat))) (m : Memory) : Memory :=
  ts.foldl (fun m qs => pl.putAll qs (F (pl.samples m qs)) m) m

/-- Sets of positions of a plane, none of which is in two sets or in one set twice. -/
structure Plane.Tiled (pl : Plane) (ts : List (List (Nat × Nat))) : Prop where
  has : ∀ qs ∈ ts, ∀ q ∈ qs, pl.Has q
  nodup : ∀ qs ∈ ts, qs.Nodup
  disjoint : ts.Pairwise List.Disjoint

section
variable {pl : Plane} {F : List Sample → List Sample} {ts : List (List (Nat × Nat))} {m : Memory} (hwf : m.wf = true)
include hwf

theorem wf_rewriteAll : (pl.rewriteAll F ts m).wf = true :=
  foldl_keeps (Q := fun m' => m'.wf = true) (fun _ _ _ hm => wf_putAll hm) hwf

variable (hgeo : pl.Geometry)
include hgeo

/-- A sample at none of the positions is untouched. -/
theorem get_rewriteAll_other (hts : ∀ qs ∈ ts, ∀ q ∈ qs, pl.Has q) {q : Nat × Nat} (hq : pl.Has q) (hnot : ∀ qs ∈ ts, q ∉ qs) :
    pl.get (pl.rewriteAll F ts m) q.1 q.2 = pl.get m q.1 q.2 :=
  (foldl_keeps (Q := fun m' => m'.wf = true ∧ pl.get m' q.1 q.2 = pl.get m q.1 q.2)
    (fun qs hqs _ hm => ⟨wf_putAll hm.1, (get_putAll_other hm.1 hgeo (hts qs hqs) hq (hnot qs hqs)).trans hm.2⟩) ⟨hwf, rfl⟩).2

/-- Disjoint sets of samples are each replaced once. -/
theorem samples_rewriteAll (hF : ∀ vs, (F vs).length = vs.length) (hts : pl.Tiled ts) {qs : List (Nat × Nat)} (hqs : qs ∈ ts) :
    pl.samples (pl.rewriteAll F ts m) qs = F (pl.samples m qs) := by
  induction ts generalizing m with
  | nil => cases hqs
  | cons t ts ih =>
    obtain ⟨ht, hhas⟩ := List.forall_mem_cons.1 hts.has
    obtain ⟨htn, hnodup⟩ := List.forall_mem_cons.1 hts.nodup
    obtain ⟨htd, hdisjoint⟩ := List.pairwise_cons.1 hts.disjoint
    have hwf' := wf_putAll (pl := pl) (qs := t) (vs := F (pl.samples m t)) hwf
    rcases List.mem_cons.1 hqs with rfl | hqs
    · have hlast := fun q (hq : q ∈ qs) => get_rewriteAll_other (F := F) hwf' hgeo hhas (ht q hq)
        fun qs' hqs' hin => htd qs' hqs' hq hin
      exact (List.map_congr_left hlast).trans (samples_putAll hwf hgeo ht htn ((hF _).trans (List.length_map _)))
    · have hfirst := fun q (hq : q ∈ qs) => get_putAll_other (vs := F (pl.samples m t)) hwf hgeo ht (hhas qs hqs q hq)
        fun hin => htd qs hqs hin hq
      exact (ih hwf' ⟨hhas, hnodup, hdisjoint⟩ hqs).trans (congrArg F (List.map_congr_left hfirst))

end

/-! The samples one scale acts on (R124, R125). -/

theorem mem_wavStarts_iff {p2 n v : Nat} (hp2 : 0 < p2) : v ∈ wavStarts p2 n ↔ v % p2 = 0 ∧ v + p2 ≤ n := by
  refine ⟨fun h => ⟨?_, mem_wavStarts h⟩, fun ⟨hmod, hle⟩ => ?_⟩
  · obtain ⟨i, -, rfl⟩ := List.mem_map.1 h
    exact Nat.mul_mod_left i p2
  · obtain ⟨i, rfl⟩ := Nat.dvd_of_mod_eq_zero hmod
    refine List.mem_map.2 ⟨i, List.mem_range.2 ?_, Nat.mul_comm i p2⟩
    rw [← Nat.mul_succ, Nat.mul_comm] at hle
    exact (Nat.le_div_iff_mul_le hp2).2 hle

theorem nodup_wavStarts {p2 : Nat} (hp2 : 0 < p2) (n : Nat) : (wavStarts p2 n).Nodup :=
  List.nodup_range.map fun _ _ => Nat.eq_of_mul_eq_mul_right hp2

/-- The start of the odd column or line of scale `p`. -/
abbrev oddStart (p n : Nat) : Nat := n / (2 * p) * (2 * p)

/-- No block begins at the odd column or line. -/
theorem oddStart_not_mem {p : Nat} (hp : 0 < p) (n : Nat) : oddStart p n ∉ wavStarts (2 * p) n := by
  intro h
  have hle := mem_wavStarts h
  exact (Nat.lt_div_mul_add (show 0 < 2 * p by omega)).not_ge hle

/-- Coordinate `v` of a side of `n` samples is one that scale `p` may touch, in the tile that begins at `s`. -/
structure OnSide (p n s v : Nat) : Prop where
  lt : v < n
  multiple : v % p = 0
  start : v / (2 * p) * (2 * p) = s

theorem onSide_block {p n s v : Nat} (hp : 0 < p) (hs : s ∈ wavStarts (2 * p) n) (hv : v = s ∨ v = s + p) : OnSide p n s v := by
  obtain ⟨hfirst, hsecond⟩ := inBlock_start hp hs
  obtain ⟨i, -, rfl⟩ := List.mem_map.1 hs
  rcases hv with rfl | rfl
  · exact ⟨inBlock_lt hp hfirst, hfirst.1, by rw [Nat.mul_div_cancel _ (by omega)]⟩
  · refine ⟨inBlock_lt hp hsecond, hsecond.1, ?_⟩
    rw [Nat.add_comm, Nat.add_mul_div_right _ _ (by omega), Nat.div_eq_of_lt (by omega), Nat.zero_add]

theorem onSide_odd {j n : Nat} (hodd : n &&& 2 ^ j ≠ 0) : OnSide (2 ^ j) n (oddStart (2 ^ j) n) (oddStart (2 ^ j) n) where
  lt := odd_start_lt hodd
  multiple := by rw [oddStart, ← Nat.mul_assoc, Nat.mul_mod_left]
  start := by rw [oddStart, Nat.mul_div_cancel _ (Nat.mul_pos two_pos (Nat.two_pow_pos j))]

/-- What one step of a scale acts on: a block, a pair of the odd column or a pair of the odd line, by where it begins. -/
inductive WavTile where
  | block (xb yb : Nat)
  | column (yb : Nat)
  | line (xb : Nat)

/-- The samples of a tile of scale `p`, in the order they are stored. -/
def WavTile.positions (pl : Plane) (p : Nat) : WavTile → List (Nat × Nat)
  | .block xb yb => [(xb, yb), (xb + p, yb), (xb, yb + p), (xb + p, yb + p)]
  | .column yb => [(oddStart p pl.nx, yb), (oddStart p pl.nx, yb + p)]
  | .line xb => [(xb, oddStart p pl.ny), (xb + p, oddStart p pl.ny)]

section
variable {pl : Plane} {p xb yb : Nat} {q : Nat × Nat}

theorem mem_positions_block :
    q ∈ WavTile.positions pl p (.block xb yb) ↔ (q.1 = xb ∨ q.1 = xb + p) ∧ (q.2 = yb ∨ q.2 = yb + p) := by
  simp only [WavTile.positions, List.mem_cons, List.not_mem_nil, Prod.ext_iff]
  tauto

theorem mem_positions_column :
    q ∈ WavTile.positions pl p (.column yb) ↔ q.1 = oddStart p pl.nx ∧ (q.2 = yb ∨ q.2 = yb + p) := by
  simp only [WavTile.positions, List.mem_cons, List.not_mem_nil, Prod.ext_iff]
  tauto

theorem mem_positions_line :
    q ∈ WavTile.positions pl p (.line xb) ↔ (q.1 = xb ∨ q.1 = xb + p) ∧ q.2 = oddStart p pl.ny := by
  simp only [WavTile.positions, List.mem_cons, List.not_mem_nil, Prod.ext_iff]
  tauto

end

/-- The first sample of a tile, which stands at multiples of `2*p`. -/
def WavTile.origin (pl : Plane) (p : Nat) : WavTile → Nat × Nat
  | .block xb yb => (xb, yb)
  | .column yb => (oddStart p pl.nx, yb)
  | .line xb => (xb, oddStart p pl.ny)

/-- The tiles of scale `p`, in the order of its steps. -/
def wavTiles (pl : Plane) (p : Nat) : List WavTile :=
  ((wavStarts (2 * p) pl.ny).flatMap fun yb =>
    (wavStarts (2 * p) pl.nx).map (.block · yb) ++ if pl.nx &&& p ≠ 0 then [.column yb] else []) ++
  if pl.ny &&& p ≠ 0 then (wavStarts (2 * p) pl.nx).map .line else []

/-- The sets of samples that a scale replaces. -/
def wavCells (pl : Plane) (p : Nat) : List (List (Nat × Nat)) := (wavTiles pl p).map (WavTile.positions pl p)

/-- A scale's steps replace the samples of its tiles, one tile after another. -/
theorem wavScale_eq_rewriteAll {f : Sample → Sample → Sample × Sample} {block : Nat → Nat → Memory → Memory}
    {F : List Sample → List Sample} {pl : Plane} {p : Nat} (hpair : ∀ a b, F [a, b] = [(f a b).1, (f a b).2])
    (hblock : ∀ xb yb m, block xb yb m =
      pl.putAll (WavTile.positions pl p (.block xb yb)) (F (pl.samples m (WavTile.positions pl p (.block xb yb)))) m)
    (m : Memory) : wavScale f block pl p m = pl.rewriteAll F (wavCells pl p) m := by
  have htwo : ∀ x0 y0 x1 y1 m, wavPair f pl x0 y0 x1 y1 m =
      pl.putAll [(x0, y0), (x1, y1)] (F (pl.samples m [(x0, y0), (x1, y1)])) m := by
    intro x0 y0 x1 y1 m
    simp only [Plane.samples, List.map_cons, List.map_nil, hpair]
    rfl
  have hrow : ∀ yb m, wavBlockRow f block pl p yb m =
      ((wavStarts (2 * p) pl.nx).map (WavTile.block · yb) ++ if pl.nx &&& p ≠ 0 then [WavTile.column yb] else []).foldl
        (fun m t => pl.putAll (WavTile.positions pl p t) (F (pl.samples m (WavTile.positions pl p t))) m) m := by
    intro yb m
    rw [wavBlockRow, List.foldl_append, List.foldl_map]
    simp only [hblock, htwo]
    split <;> rfl
  rw [wavScale, Plane.rewriteAll, wavCells, List.foldl_map, wavTiles, List.foldl_append, List.foldl_flatMap]
  simp only [hrow, htwo]
  split
  · rw [List.foldl_map]
    rfl
  · rfl

section
variable {pl : Plane} {p : Nat}

theorem mem_wavTiles_block {xb yb : Nat} :
    .block xb yb ∈ wavTiles pl p ↔ xb ∈ wavStarts (2 * p) pl.nx ∧ yb ∈ wavStarts (2 * p) pl.ny := by
  simp [wavTiles, and_comm]

theorem mem_wavTiles_column {yb : Nat} : .column yb ∈ wavTiles pl p ↔ pl.nx &&& p ≠ 0 ∧ yb ∈ wavStarts (2 * p) pl.ny := by
  simp [wavTiles, and_comm]

theorem mem_wavTiles_line {xb : Nat} : .line xb ∈ wavTiles pl p ↔ pl.ny &&& p ≠ 0 ∧ xb ∈ wavStarts (2 * p) pl.nx := by
  simp [wavTiles]

theorem nodup_wavTiles (hp : 0 < p) : (wavTiles pl p).Nodup := by
  have hstarts := nodup_wavStarts (show 0 < 2 * p by omega)
  have hblocks : ∀ yb, ((wavStarts (2 * p) pl.nx).map (WavTile.block · yb)).Nodup := fun yb =>
    (hstarts pl.nx).map fun _ _ h => (WavTile.block.inj h).1
  have hlines : ((wavStarts (2 * p) pl.nx).map WavTile.line).Nodup := (hstarts pl.nx).map fun _ _ => WavTile.line.inj
  rw [wavTiles, List.nodup_append, List.nodup_flatMap]
  refine ⟨⟨fun yb _ => ?row, (hstarts pl.ny).imp fun {yb yb'} hne t ht ht' => ?rows⟩, ?line, fun t ht t' ht' => ?apart⟩
  case row => split <;> simp [List.nodup_append, hblocks]
  case rows => grind
  case line => split <;> simp [hlines]
  case apart => grind

variable {t t' : WavTile}

/-- A tile begins at its origin. -/
theorem head_positions (t : WavTile) : (t.positions pl p).head? = some (t.origin pl p) := by
  cases t <;> rfl

/-- Where the samples of a scale's tile stand. -/
theorem onSide_of_mem_positions {j : Nat} (hp : p = 2 ^ j) (ht : t ∈ wavTiles pl p) {q : Nat × Nat} (hq : q ∈ t.positions pl p) :
    OnSide p pl.nx (t.origin pl p).1 q.1 ∧ OnSide p pl.ny (t.origin pl p).2 q.2 := by
  subst hp
  have hpos := Nat.two_pow_pos j
  cases t with
  | block xb yb =>
    obtain ⟨hx, hy⟩ := mem_wavTiles_block.1 ht
    obtain ⟨hqx, hqy⟩ := mem_positions_block.1 hq
    exact ⟨onSide_block hpos hx hqx, onSide_block hpos hy hqy⟩
  | column yb =>
    obtain ⟨hodd, hy⟩ := mem_wavTiles_column.1 ht
    obtain ⟨hqx, hqy⟩ := mem_positions_column.1 hq
    exact ⟨hqx ▸ onSide_odd hodd, onSide_block hpos hy hqy⟩
  | line xb =>
    obtain ⟨hodd, hx⟩ := mem_wavTiles_line.1 ht
    obtain ⟨hqx, hqy⟩ := mem_positions_line.1 hq
    exact ⟨onSide_block hpos hx hqx, hqy ▸ onSide_odd hodd⟩

/-- Distinct tiles begin at distinct samples: tiles of one kind differ in where they begin, and no block begins at the odd column or
line. -/
theorem eq_of_origin_eq (hp : 0 < p) (ht : t ∈ wavTiles pl p) (ht' : t' ∈ wavTiles pl p) (h : t.origin pl p = t'.origin pl p) :
    t = t' := by
  have hx := oddStart_not_mem hp pl.nx
  have hy := oddStart_not_mem hp pl.ny
  cases t <;> cases t' <;>
    simp only [mem_wavTiles_block, mem_wavTiles_column, mem_wavTiles_line, WavTile.origin, Prod.mk.injEq] at ht ht' h <;> grind

theorem tiled_wavCells (hp : p ∈ wavLevels pl.nx pl.ny) : pl.Tiled (wavCells pl p) := by
  have hpos := pos_of_mem_wavLevels hp
  obtain ⟨⟨j, -, hj⟩, -⟩ := mem_wavLevels hp
  refine ⟨List.forall_mem_map.2 fun t ht q hq => ?_, List.forall_mem_map.2 fun t ht => ?_, List.pairwise_map.2 ?_⟩
  · obtain ⟨hx, hy⟩ := onSide_of_mem_positions hj ht hq
    exact ⟨hx.lt, hy.lt⟩
  · cases t <;> simp [WavTile.positions, hpos.ne']
  · refine (nodup_wavTiles hpos).pairwise_of_forall_ne fun t ht t' ht' hne q hq hq' => hne ?_
    obtain ⟨hx, hy⟩ := onSide_of_mem_positions hj ht hq
    obtain ⟨hx', hy'⟩ := onSide_of_mem_positions hj ht' hq'
    exact eq_of_origin_eq hpos ht ht' (Prod.ext (hx.start.symm.trans hx'.start) (hy.start.symm.trans hy'.start))

end

end Sys2Proof.Machine

namespace Sys2Proof.Machine

/-! One scale of a transform (R124, R125). -/

/-- What the forward transform makes of the samples of a tile: of a pair, and of a block by rows, then columns (R124). -/
def fwdSamples (enc : Sample → Sample → Sample × Sample) : List Sample → List Sample
  | [a, b] => [(enc a b).1, (enc a b).2]
  | [a, b, c, d] =>
    [(enc (enc a b).1 (enc c d).1).1, (enc (enc a b).2 (enc c d).2).1, (enc (enc a b).1 (enc c d).1).2,
      (enc (enc a b).2 (enc c d).2).2]
  | vs => vs

/-- What the inverse transform makes of the samples of a tile: of a pair, and of a block by columns, then rows (R125). -/
def invSamples (dec : Sample → Sample → Sample × Sample) : List Sample → List Sample
  | [a, b] => [(dec a b).1, (dec a b).2]
  | [a, b, c, d] =>
    [(dec (dec a c).1 (dec b d).1).1, (dec (dec a c).1 (dec b d).1).2, (dec (dec a c).2 (dec b d).2).1,
      (dec (dec a c).2 (dec b d).2).2]
  | vs => vs

section
variable (f : Sample → Sample → Sample × Sample)

theorem length_fwdSamples (vs : List Sample) : (fwdSamples f vs).length = vs.length := by
  unfold fwdSamples
  split <;> rfl

theorem length_invSamples (vs : List Sample) : (invSamples f vs).length = vs.length := by
  unfold invSamples
  split <;> rfl

theorem wavScale_forward_eq (pl : Plane) (p : Nat) (m : Memory) :
    wavScale f (wavFwdBlock f pl p) pl p m = pl.rewriteAll (fwdSamples f) (wavCells pl p) m :=
  wavScale_eq_rewriteAll (fun _ _ => rfl)
    (fun xb yb m => by simp only [wavFwdBlock, wavPutBlock, WavTile.positions, Plane.samples, List.map, fwdSamples, Plane.putAll]) m

theorem wavScale_inverse_eq (pl : Plane) (p : Nat) (m : Memory) :
    wavScale f (wavInvBlock f pl p) pl p m = pl.rewriteAll (invSamples f) (wavCells pl p) m :=
  wavScale_eq_rewriteAll (fun _ _ => rfl)
    (fun xb yb m => by simp only [wavInvBlock, wavPutBlock, WavTile.positions, Plane.samples, List.map, invSamples, Plane.putAll]) m

end

section
variable {pl : Plane} {p : Nat} (hp : p ∈ wavLevels pl.nx pl.ny)
include hp

/-- No tile has a sample at a coordinate that is no multiple of the scale. -/
theorem multiple_of_mem_positions {t : WavTile} (ht : t ∈ wavTiles pl p) {q : Nat × Nat} (hq : q ∈ t.positions pl p) :
    q.1 % p = 0 ∧ q.2 % p = 0 := by
  obtain ⟨⟨j, -, hj⟩, -⟩ := mem_wavLevels hp
  obtain ⟨hx, hy⟩ := onSide_of_mem_positions hj ht hq
  exact ⟨hx.multiple, hy.multiple⟩

/-- A sample of a tile at multiples of the block size is the tile's first. -/
theorem eq_origin_of_mem_positions {t : WavTile} (ht : t ∈ wavTiles pl p) {q : Nat × Nat} (hq : q ∈ t.positions pl p)
    (hx : 2 * p ∣ q.1) (hy : 2 * p ∣ q.2) : q = t.origin pl p := by
  obtain ⟨⟨j, -, hj⟩, -⟩ := mem_wavLevels hp
  obtain ⟨hsx, hsy⟩ := onSide_of_mem_positions hj ht hq
  exact Prod.ext ((Nat.div_mul_cancel hx).symm.trans hsx.start) ((Nat.div_mul_cancel hy).symm.trans hsy.start)

/-- No tile has the corner of the odd column and line. -/
theorem corner_not_mem_positions {t : WavTile} (ht : t ∈ wavTiles pl p) :
    (oddStart p pl.nx, oddStart p pl.ny) ∉ t.positions pl p := by
  intro hq
  have hpos := pos_of_mem_wavLevels hp
  have horigin := eq_origin_of_mem_positions hp ht hq ⟨_, Nat.mul_comm _ _⟩ ⟨_, Nat.mul_comm _ _⟩
  have hx : (t.origin pl p).1 ∉ wavStarts (2 * p) pl.nx := horigin ▸ oddStart_not_mem hpos pl.nx
  have hy : (t.origin pl p).2 ∉ wavStarts (2 * p) pl.ny := horigin ▸ oddStart_not_mem hpos pl.ny
  cases t with
  | block => exact hx (mem_wavTiles_block.1 ht).1
  | column => exact hy (mem_wavTiles_column.1 ht).2
  | line => exact hx (mem_wavTiles_line.1 ht).2

variable (hgeo : pl.Geometry) {m : Memory} (hwf : m.wf = true) {F : List Sample → List Sample}
include hgeo hwf

theorem get_scale_other {q : Nat × Nat} (hq : pl.Has q) (hnot : ∀ t ∈ wavTiles pl p, q ∉ t.positions pl p) :
    pl.get (pl.rewriteAll F (wavCells pl p) m) q.1 q.2 = pl.get m q.1 q.2 :=
  get_rewriteAll_other hwf hgeo (tiled_wavCells hp).has hq (List.forall_mem_map.2 hnot)

theorem samples_scale (hF : ∀ vs, (F vs).length = vs.length) {t : WavTile} (ht : t ∈ wavTiles pl p) :
    pl.samples (pl.rewriteAll F (wavCells pl p) m) (t.positions pl p) = F (pl.samples m (t.positions pl p)) :=
  samples_rewriteAll hwf hgeo hF (tiled_wavCells hp) (List.mem_map_of_mem ht)

end

/-- Settles O57: a scale's tiles are disjoint sets of samples, each replaced once (`samples_scale`). -/
theorem wavScaleActsOnDisjointSamples : Obligations.WavScaleActsOnDisjointSamples := by
  intro f pl m m' p forward hwf hgeo hp hm'
  have hp2 : 0 < 2 * p := Nat.mul_pos two_pos (pos_of_mem_wavLevels hp)
  obtain ⟨F, hF, rfl, hfwd, hinv, hpair⟩ : ∃ F : List Sample → List Sample, (∀ vs, (F vs).length = vs.length) ∧
      m' = pl.rewriteAll F (wavCells pl p) m ∧ (forward = true → F = fwdSamples f) ∧ (forward = false → F = invSamples f) ∧
      ∀ a b, F [a, b] = [(f a b).1, (f a b).2] := by
    cases forward with
    | true => exact ⟨_, length_fwdSamples f, hm'.trans (wavScale_forward_eq f pl p m), fun _ => rfl, nofun, fun _ _ => rfl⟩
    | false => exact ⟨_, length_invSamples f, hm'.trans (wavScale_inverse_eq f pl p m), nofun, fun _ => rfl, fun _ _ => rfl⟩
  clear hm'
  have htile := fun {t} => samples_scale hp hgeo hwf hF (t := t)
  have hother := fun {q} => get_scale_other hp hgeo hwf (F := F) (q := q)
  refine ⟨?_, ?_, ?_, fun hoddx hoddy => ?_, fun x y hx hy hno => ?_, fun x y hx hy hblock hcolumn hline => ?_⟩
  · rintro xb yb _ _ _ _ hxb hyb hx hy rfl rfl rfl rfl
    have h := htile (mem_wavTiles_block.2 ⟨(mem_wavStarts_iff hp2).2 ⟨hxb, hx⟩, (mem_wavStarts_iff hp2).2 ⟨hyb, hy⟩⟩)
    refine ⟨fun hf => ?_, fun hf => ?_⟩
    · simpa [Plane.samples, WavTile.positions, hfwd hf, fwdSamples] using h
    · simpa [Plane.samples, WavTile.positions, hinv hf, invSamples] using h
  · rintro _ yb rfl hodd hyb hy
    have h := htile (mem_wavTiles_column.2 ⟨hodd, (mem_wavStarts_iff hp2).2 ⟨hyb, hy⟩⟩)
    simpa [Plane.samples, WavTile.positions, hpair] using h
  · rintro xb _ rfl hodd hxb hx
    have h := htile (mem_wavTiles_line.2 ⟨hodd, (mem_wavStarts_iff hp2).2 ⟨hxb, hx⟩⟩)
    simpa [Plane.samples, WavTile.positions, hpair] using h
  · obtain ⟨⟨j, -, rfl⟩, -⟩ := mem_wavLevels hp
    exact hother (q := (_, _)) ⟨(onSide_odd hoddx).lt, (onSide_odd hoddy).lt⟩ fun t ht => corner_not_mem_positions hp ht
  · refine hother (q := (x, y)) ⟨hx, hy⟩ fun t ht hq => ?_
    obtain ⟨hmx, hmy⟩ := multiple_of_mem_positions hp ht hq
    exact hno.elim (· hmx) (· hmy)
  · refine hother (q := (x, y)) ⟨hx, hy⟩ fun t ht hq => ?_
    cases t with
    | block xb yb =>
      obtain ⟨hxs, hys⟩ := mem_wavTiles_block.1 ht
      obtain ⟨hxb, hxle⟩ := (mem_wavStarts_iff hp2).1 hxs
      obtain ⟨hyb, hyle⟩ := (mem_wavStarts_iff hp2).1 hys
      exact hblock xb yb hxb hyb hxle hyle (mem_positions_block.1 hq)
    | column yb =>
      obtain ⟨hodd, hys⟩ := mem_wavTiles_column.1 ht
      obtain ⟨hyb, hyle⟩ := (mem_wavStarts_iff hp2).1 hys
      exact hcolumn yb hodd hyb hyle (mem_positions_column.1 hq)
    | line xb =>
      obtain ⟨hodd, hxs⟩ := mem_wavTiles_line.1 ht
      obtain ⟨hxb, hxle⟩ := (mem_wavStarts_iff hp2).1 hxs
      exact hline xb hodd hxb hxle (mem_positions_line.1 hq)

/-- Settles O55: a 2x2 plane has one scale, which is one block (`wavRunsItsScales`, `wavScaleActsOnDisjointSamples`). -/
theorem wavTwoByTwoPlane : Obligations.WavTwoByTwoPlane := by
  intro s wm base ox oy is16 a b c d hwm his16 hval heven hgeo hin hwf hraced ha hb hc hd
  have hone : wavLevels (planeOf base 2 2 ox oy).nx (planeOf base 2 2 ox oy).ny = [1] := (by decide : wavLevels 2 2 = [1])
  have hscale := fun f m' forward => wavScaleActsOnDisjointSamples f (planeOf base 2 2 ox oy) s.dmem m' 1 forward hwf hgeo
    (hone ▸ List.mem_singleton_self 1)
  obtain ⟨hfwd, hinv⟩ := wavRunsItsScales.2.2 s wm base 2 2 ox oy is16 _ hwm his16 hval rfl (by decide) heven hgeo hin hraced
  rw [hone] at hfwd hinv
  refine ⟨⟨_, hfwd, ?_⟩, _, hinv, ?_⟩
  · exact ((hscale _ _ true rfl).1 0 0 a b c d rfl rfl le_rfl le_rfl ha hb hc hd).1 rfl
  · exact ((hscale _ _ false rfl).1 0 0 a b c d rfl rfl le_rfl le_rfl ha hb hc hd).2 rfl

end Sys2Proof.Machine

namespace Sys2Proof.Machine

/-! The round trips (R126). -/

/-- `dec` inverts `enc` on the pairs that a transform of samples satisfying `P` comes to: the pairs of such samples, whose averages
satisfy `P` too, and the pairs of their differences, which satisfy `D` (R126). -/
structure PairInverse (enc dec : Sample → Sample → Sample × Sample) (P D : Sample → Prop) : Prop where
  average {a b : Sample} (ha : P a) (hb : P b) : P (enc a b).1
  difference {a b : Sample} (ha : P a) (hb : P b) : D (enc a b).2
  inverts {a b : Sample} (ha : P a) (hb : P b) : dec (enc a b).1 (enc a b).2 = (a, b)
  inverts_differences {a b : Sample} (ha : D a) (hb : D b) : dec (enc a b).1 (enc a b).2 = (a, b)

theorem pairInverse16 : PairInverse enc16 dec16 (fun _ => True) (fun _ => True) :=
  ⟨fun _ _ => trivial, fun _ _ => trivial, fun _ _ => dec16_enc16 _ _, fun _ _ => dec16_enc16 _ _⟩

/-- Below 2^14 the averages stay below 2^14, and the differences and the differences of differences fit (R126). -/
theorem pairInverse14 : PairInverse enc14 dec14 (fun a => a.toNat < 16384) (fun d => -16384 < d.toInt ∧ d.toInt < 16384) where
  average {a b} ha hb := by
    have ha' := toInt_of_lt_w14 ha
    have hb' := toInt_of_lt_w14 hb
    have hint := toInt_enc14_fst a b
    have hcases := BitVec.toInt_eq_toNat_cond (enc14 a b).1
    split at hcases <;> omega
  difference {a b} ha hb := by
    have ha' := toInt_of_lt_w14 ha
    have hb' := toInt_of_lt_w14 hb
    rw [toInt_enc14_snd (by omega) (by omega)]
    omega
  inverts {a b} ha hb := pairOperationsInvert.2.2 a b ha hb
  inverts_differences {a b} ha hb := dec14_enc14 (by omega) (by omega)

section
variable {enc dec : Sample → Sample → Sample × Sample} {P D : Sample → Prop} (hpair : PairInverse enc dec P D)
include hpair

/-- The inverse of a tile takes back the forward step: the columns of a block first, then the rows. -/
theorem invSamples_fwdSamples {vs : List Sample} (hvs : ∀ v ∈ vs, P v) : invSamples dec (fwdSamples enc vs) = vs := by
  unfold fwdSamples
  split
  case h_1 a b =>
    obtain ⟨ha, hb⟩ : P a ∧ P b := by simpa using hvs
    simp only [invSamples, hpair.inverts ha hb]
  case h_2 a b c d =>
    obtain ⟨ha, hb, hc, hd⟩ : P a ∧ P b ∧ P c ∧ P d := by simpa using hvs
    simp only [invSamples, hpair.inverts (hpair.average ha hb) (hpair.average hc hd),
      hpair.inverts_differences (hpair.difference ha hb) (hpair.difference hc hd), hpair.inverts ha hb, hpair.inverts hc hd]
  case h_3 hnotpair hnotblock =>
    unfold invSamples
    split
    · exact (hnotpair _ _ rfl).elim
    · exact (hnotblock _ _ _ _ rfl).elim
    · rfl

/-- The first sample of a tile becomes an average. -/
theorem head_fwdSamples {vs : List Sample} (hvs : ∀ v ∈ vs, P v) : ∀ v ∈ (fwdSamples enc vs).head?, P v := by
  unfold fwdSamples
  split
  case h_1 a b =>
    obtain ⟨ha, hb⟩ : P a ∧ P b := by simpa using hvs
    simpa using hpair.average ha hb
  case h_2 a b c d =>
    obtain ⟨ha, hb, hc, hd⟩ : P a ∧ P b ∧ P c ∧ P d := by simpa using hvs
    simpa using hpair.average (hpair.average ha hb) (hpair.average hc hd)
  case h_3 => exact fun v hv => hvs v (List.mem_of_mem_head? hv)

end

/-- Equal samples are equal bytes. -/
theorem read_eq_of_sample_eq {m m' : Memory} {a x : Nat} (h : m.sample a = m'.sample a) (hx : InBytes x a 2) :
    m.read x = m'.read x := by
  have h0 := (m.read a).isLt
  have h1 := (m.read (a + 1)).isLt
  have h0' := (m'.read a).isLt
  have h1' := (m'.read (a + 1)).isLt
  have hnat := congrArg BitVec.toNat h
  simp only [Memory.sample, Memory.readLE, BitVec.toNat_ofNat] at hnat
  apply BitVec.eq_of_toNat_eq
  obtain rfl | rfl : x = a ∨ x = a + 1 := by omega
  · omega
  · omega

/-- Memories with the same samples in a plane and the same bytes outside its samples are equal. -/
theorem plane_ext {pl : Plane} {m m' : Memory} (hwf : m.wf = true) (hwf' : m'.wf = true)
    (hget : ∀ q : Nat × Nat, pl.Has q → pl.get m q.1 q.2 = pl.get m' q.1 q.2)
    (hread : ∀ a, ¬ pl.WritesByte a → m.read a = m'.read a) : m = m' := by
  refine memory_ext hwf hwf' fun a => ?_
  by_cases ha : pl.WritesByte a
  · obtain ⟨x, y, hw, hin⟩ := ha
    exact read_eq_of_sample_eq (hget (x, y) (lt_of_writes hw)) hin
  · exact hread a ha

section
variable {pl : Plane} {p : Nat} (hp : p ∈ wavLevels pl.nx pl.ny) {m : Memory} (hwf : m.wf = true)
include hp hwf

/-- A scale keeps the bytes of no sample that its transform writes. -/
theorem read_wavScale_other (f : Sample → Sample → Sample × Sample) {block : Nat → Nat → Memory → Memory}
    (hblock : ∀ xb ∈ wavStarts (2 * p) pl.nx, ∀ yb ∈ wavStarts (2 * p) pl.ny, ∀ Q : Memory → Prop, pl.Keeps Q →
      ∀ m, Q m → Q (block xb yb m)) {a : Nat} (ha : ¬ pl.WritesByte a) :
    (wavScale f block pl p m).read a = m.read a :=
  (wavScale_keeps (plane_keeps_byte ha _) f hp (fun xb hx yb hy => hblock xb hx yb hy _ (plane_keeps_byte ha _)) ⟨hwf, rfl⟩).2

end

/-- The samples at multiples of scale `p`, which are those that it and the scales above it transform, satisfy `P`. -/
def SamplesAt (P : Sample → Prop) (pl : Plane) (p : Nat) (m : Memory) : Prop :=
  ∀ q : Nat × Nat, pl.Has q → p ∣ q.1 → p ∣ q.2 → P (pl.get m q.1 q.2)

section
variable {pl : Plane} {p : Nat} (hp : p ∈ wavLevels pl.nx pl.ny) {P D : Sample → Prop} {m : Memory} (hm : SamplesAt P pl p m)
include hp hm

theorem SamplesAt.of_tile {t : WavTile} (ht : t ∈ wavTiles pl p) : ∀ v ∈ pl.samples m (t.positions pl p), P v :=
  List.forall_mem_map.2 fun q hq => by
    obtain ⟨hx, hy⟩ := multiple_of_mem_positions hp ht hq
    exact hm q ((tiled_wavCells hp).has _ (List.mem_map_of_mem ht) q hq) (Nat.dvd_of_mod_eq_zero hx) (Nat.dvd_of_mod_eq_zero hy)

variable {enc dec : Sample → Sample → Sample × Sample} (hpair : PairInverse enc dec P D) (hgeo : pl.Geometry) (hwf : m.wf = true)
include hpair hgeo hwf

/-- What a scale leaves at multiples of the block size are averages, or untouched. -/
theorem SamplesAt.after_scale {p' : Nat} (hdvd : 2 * p ∣ p') :
    SamplesAt P pl p' (wavScale enc (wavFwdBlock enc pl p) pl p m) := by
  intro q hq hx hy
  rw [wavScale_forward_eq]
  by_cases htile : ∃ t ∈ wavTiles pl p, q ∈ t.positions pl p
  · obtain ⟨t, ht, hmem⟩ := htile
    refine head_fwdSamples hpair (hm.of_tile hp ht) _ ?_
    rw [← samples_scale hp hgeo hwf (length_fwdSamples enc) ht, Plane.samples, List.head?_map, head_positions,
      ← eq_origin_of_mem_positions hp ht hmem (hdvd.trans hx) (hdvd.trans hy)]
    rfl
  · rw [get_scale_other hp hgeo hwf hq fun t ht hmem => htile ⟨t, ht, hmem⟩]
    have hp' : p ∣ p' := (Nat.dvd_mul_left p 2).trans hdvd
    exact hm q hq (hp'.trans hx) (hp'.trans hy)

/-- The inverse of a scale takes back the scale: it takes back every tile, and the rest is untouched. -/
theorem wavScale_inverts :
    wavScale dec (wavInvBlock dec pl p) pl p (wavScale enc (wavFwdBlock enc pl p) pl p m) = m := by
  have hwf1 : (wavScale enc (wavFwdBlock enc pl p) pl p m).wf = true := wavScale_forward_eq enc pl p m ▸ wf_rewriteAll hwf
  refine plane_ext (pl := pl) (wavScale_inverse_eq dec pl p _ ▸ wf_rewriteAll hwf1) hwf (fun q hq => ?_) fun a ha => ?_
  · rw [wavScale_inverse_eq]
    by_cases htile : ∃ t ∈ wavTiles pl p, q ∈ t.positions pl p
    · obtain ⟨t, ht, hmem⟩ := htile
      have hsamples := samples_scale hp hgeo hwf1 (length_invSamples dec) ht
      rw [wavScale_forward_eq, samples_scale hp hgeo hwf (length_fwdSamples enc) ht,
        invSamples_fwdSamples hpair (hm.of_tile hp ht)] at hsamples
      rw [wavScale_forward_eq]
      exact List.map_inj_left.1 hsamples q hmem
    · have hnot := fun t ht hmem => htile ⟨t, ht, hmem⟩
      rw [get_scale_other hp hgeo hwf1 hq hnot, wavScale_forward_eq, get_scale_other hp hgeo hwf hq hnot]
  · exact (read_wavScale_other hp hwf1 dec (fun _ hx _ hy _ hQ _ => wavPutBlock_keeps hQ hp hx hy _ _ _ _) ha).trans
      (read_wavScale_other hp hwf enc (fun _ hx _ hy _ hQ _ => wavPutBlock_keeps hQ hp hx hy _ _ _ _) ha)

end

/-- Steps taken back in reverse order, when each keeps what the later ones need. -/
theorem foldl_reverse_foldl {α β : Type} {I : β → α → Prop} {R : β → β → Prop} {fwd inv : α → β → α} {l : List β}
    (hl : l.Pairwise R)
    (hinv : ∀ b ∈ l, ∀ a, I b a → inv (fwd a b) b = a) (hkeeps : ∀ b ∈ l, ∀ b', R b b' → ∀ a, I b a → I b' (fwd a b)) {a : α}
    (ha : ∀ b ∈ l, I b a) : l.reverse.foldl inv (l.foldl fwd a) = a := by
  induction l generalizing a with
  | nil => rfl
  | cons b l ih =>
    obtain ⟨hb, hl⟩ := List.pairwise_cons.1 hl
    obtain ⟨hinvb, hinv⟩ := List.forall_mem_cons.1 hinv
    obtain ⟨hkeepsb, hkeeps⟩ := List.forall_mem_cons.1 hkeeps
    obtain ⟨hab, -⟩ := List.forall_mem_cons.1 ha
    have hlater : l.reverse.foldl inv (l.foldl fwd (fwd a b)) = fwd a b :=
      ih hl hinv hkeeps fun b' hb' => hkeepsb b' (hb b' hb') a hab
    rw [List.reverse_cons, List.foldl_append]
    exact (congrArg (inv · b) hlater).trans (hinvb a hab)

/-- The inverse transform takes back the forward transform of a plane whose samples satisfy `P` (R126). -/
theorem wavInverse_wavForward {enc dec : Sample → Sample → Sample × Sample} {P D : Sample → Prop} (hpair : PairInverse enc dec P D)
    {pl : Plane} (hgeo : pl.Geometry) {m : Memory} (hwf : m.wf = true) (hP : ∀ x y, x < pl.nx → y < pl.ny → P (pl.get m x y)) :
    wavInverse dec pl (wavForward enc pl m) = m :=
  foldl_reverse_foldl (I := fun p m => m.wf = true ∧ SamplesAt P pl p m) (wavLevels_pairwise_dvd pl.nx pl.ny)
    (fun _ hp _ ⟨hwf, hm⟩ => wavScale_inverts hp hm hpair hgeo hwf)
    (fun p hp _ hdvd m ⟨hwf, hm⟩ => ⟨wavScale_forward_eq enc pl p m ▸ wf_rewriteAll hwf, hm.after_scale hp hpair hgeo hwf hdvd⟩)
    fun _ _ => ⟨hwf, fun q ⟨hx, hy⟩ _ _ => hP q.1 q.2 hx hy⟩

/-- The two commands restore DMEM when the two transforms of the variant do. -/
theorem execAll_wavelet_roundTrip {s : State} {wm : WavMode} {base nx ny ox oy : Word} {pl : Plane}
    (hpl : pl = planeOf base nx ny ox oy)
    (hraced : s.hostRaced = false) (hmode : wm = .w14 ∨ wm = .w16 ∨ (wm = .auto ∧ s.valid.lutv = true)) (heven : base.toNat % 2 = 0)
    (hgeo : pl.Geometry) (hin : s.inRange base.toNat pl.span)
    (hround : wavInverseOf (wavIs16 wm s) pl (wavForwardOf (wavIs16 wm s) pl s.dmem) = s.dmem) :
    execAll [.wavFwd wm base nx ny ox oy, .wavInv wm base nx ny ox oy] s = .next s.retire.retire := by
  subst hpl
  have hwm : wm.wellFormed = true := by
    rcases hmode with rfl | rfl | ⟨rfl, -⟩ <;> rfl
  have hval : wm = .auto → s.valid.lutv = true := by
    rintro rfl
    simpa using hmode
  rcases lt_or_ge (min nx.toNat ny.toNat) 2 with hmin | hmin
  · have hfwd : exec (.wavFwd wm base nx ny ox oy) s = .next s.retire := wavCommand_small hwm hmin
    have hinv : exec (.wavInv wm base nx ny ox oy) s.retire = .next s.retire.retire := wavCommand_small hwm hmin
    rw [execAll_cons hfwd, execAll_cons hinv, execAll]
  · have hfwd : exec (.wavFwd wm base nx ny ox oy) s =
        .next ({ s with dmem := wavForwardOf (wavIs16 wm s) (planeOf base nx ny ox oy) s.dmem } : State).retire :=
      wavCommand_completes hwm hmin (wavCheck_passes heven hgeo hin hval) hraced
    have hinv : ∀ m, exec (.wavInv wm base nx ny ox oy) ({ s with dmem := m } : State).retire =
        .next ({ s with dmem := wavInverseOf (wavIs16 wm s) (planeOf base nx ny ox oy) m } : State).retire.retire := fun _ =>
      wavCommand_completes hwm hmin (wavCheck_passes heven hgeo hin hval) hraced
    rw [execAll_cons hfwd, execAll_cons (hinv _), execAll, hround]

/-- Settles O59: `dec16` inverts `enc16` on all pairs. -/
theorem waveletRoundTripW16 : Obligations.WaveletRoundTripW16 := by
  intro s wm base nx ny ox oy hwf hraced hmode heven hgeo hin
  have his16 : wavIs16 wm s = true := (wavIs16_iff wm s).2 (hmode.imp_right fun ⟨hauto, _, hmax⟩ => ⟨hauto, hmax⟩)
  have hround : wavInverseOf true _ (wavForwardOf true (planeOf base nx ny ox oy) s.dmem) = s.dmem :=
    wavInverse_wavForward pairInverse16 hgeo hwf fun _ _ _ _ => trivial
  exact execAll_wavelet_roundTrip rfl hraced (.inr (hmode.imp_right fun ⟨hauto, hlutv, _⟩ => ⟨hauto, hlutv⟩)) heven hgeo hin
    (his16 ▸ hround)

/-- Settles O60: below 2^14, `dec14` inverts `enc14` on all the pairs that the transforms come to (`pairInverse14`). -/
theorem waveletRoundTripW14 : Obligations.WaveletRoundTripW14 := by
  intro s wm base nx ny ox oy hwf hraced hmode heven hgeo hin hbelow
  have his16 : wavIs16 wm s = false := by
    rw [Bool.eq_false_iff, Ne, wavIs16_iff]
    rcases hmode with rfl | ⟨rfl, -, hmax⟩ <;> simp
    omega
  have hround : wavInverseOf false _ (wavForwardOf false (planeOf base nx ny ox oy) s.dmem) = s.dmem :=
    wavInverse_wavForward pairInverse14 hgeo hwf hbelow
  exact execAll_wavelet_roundTrip rfl hraced (hmode.imp_right fun ⟨hauto, hlutv, _⟩ => .inr ⟨hauto, hlutv⟩) heven hgeo hin
    (his16 ▸ hround)

end Sys2Proof.Machine

namespace Sys2Proof.Machine

/-! ## Errors (R130) -/

/-- A command that completes in a running chain is not in error. -/
theorem Completes.seq_ne_error {i : Instr} {s t : State} (h : Completes i s t) (hrun : s.seq = .running) (c : ErrClass) :
    t.seq ≠ .error c := by
  rcases h.seq with hseq | hseq <;> simp [hseq, hrun]

/-- Settles O8: of the three next states of a command (`exec_next`), a completion is no error; the other two are the error step alone
and `State.hufFail`, whose free values stand in the destination only. -/
theorem errorsArePrecise : Obligations.ErrorsArePrecise := by
  refine ⟨fun _ _ _ => rfl, fun i s t c hwf hrun hexec hseq => ?_⟩
  obtain ⟨e, info, rfl⟩ | ⟨src, len, dst, nout, e, info, rfl, hc, rfl⟩ | hdone := exec_next hexec
  · exact ⟨e, info, rfl, rfl, rfl, rfl, rfl, .inl rfl⟩
  · refine ⟨e, info, rfl, rfl, rfl, rfl, rfl, .inr ⟨src, len, dst, nout, rfl, hc, rfl, fun a ha => ?_⟩⟩
    rw [hufFail_dmem, read_freeRange hwf, if_neg ha]
  · exact absurd hseq (hdone.seq_ne_error hrun c)

end Sys2Proof.Machine
